-- ==== Sys2Proof/Word.lean ====
section
/-! DEFINITION. The word and byte types, and the names of the eight general registers
(spec/00_scope.md R11, R13; spec/10_state.md R21). -/

namespace Sys2Proof

/-- A register, a memory word, an address or an instruction: 16 bits (R11, WORD_BITS and ADDR_BITS). -/
abbrev Word := BitVec 16

/-- A byte at the console: the only narrower datum of the machine (R52, R81, R82). -/
abbrev Byte := BitVec 8

/-- The eight general registers R0 to R7 (R21).  PC and COND are cells of the register file that
no register field can name (R23), so they are not among these. -/
inductive Reg where
  | r0 | r1 | r2 | r3 | r4 | r5 | r6 | r7
  deriving DecidableEq, Repr

end Sys2Proof
end

