-- ==== Sys2Proof/Config.lean ====
section
/-! DEFINITION. The fixed parameters of this hardware (spec/00_scope.md R11).  The open parameters of R12
stand elsewhere: OPCODE_MAP and KBSR_READY_WRITE are `Machine.Params` in Machine/Params.lean, RESET_GPR is an
argument of `Machine.State.construct` in Machine/State.lean, INIT_MEM is `Machine.loadImage` in Machine/Boot.lean,
and the console oracle is `Machine.Console` in Machine/State.lean. -/

namespace Sys2Proof

/-- KBSR, the address of the keyboard status word (R11, R34). -/
def Config.kbsr : Word := 0xFE00

/-- KBDR, the address of the keyboard data word (R11, R35). -/
def Config.kbdr : Word := 0xFE02

/-- RESET_PC (R11, R41). -/
def Config.resetPc : Word := 0x3000

/-- MEM_WORDS, the number of memory words (R11, R50). -/
def Config.memWords : Nat := 65536

end Sys2Proof
end

