-- ==== Sys2Proof/Syntax.lean ====
section
/-! DEFINITION. The instructions as syntax: one constructor per row of spec/opcode_table.json, in the
table's order.  The bits that no layout names (spec/30_encoding.md R114) have no field. -/

namespace Sys2Proof

/-- An instruction.  Offsets and immediates are the raw fields of the encoding; they are extended where they
are used (R112). -/
inductive Instr where
  /-- BR; `flags` is ir[11:9]: bit 2 is n, bit 1 is z, bit 0 is p (R104, R140). -/
  | br (flags : BitVec 3) (offset9 : BitVec 9)
  /-- ADD, register form (R101, R131). -/
  | addReg (dr sr1 sr2 : Reg)
  /-- ADD, immediate form (R102, R131). -/
  | addImm (dr sr1 : Reg) (imm5 : BitVec 5)
  /-- LD (R108, R150). -/
  | ld (dr : Reg) (offset9 : BitVec 9)
  /-- ST (R108, R160). -/
  | st (sr : Reg) (offset9 : BitVec 9)
  /-- JSR (R106, R143). -/
  | jsr (offset11 : BitVec 11)
  /-- JSRR (R107, R144). -/
  | jsrr (baseR : Reg)
  /-- AND, register form (R101, R132). -/
  | andReg (dr sr1 sr2 : Reg)
  /-- AND, immediate form (R102, R132). -/
  | andImm (dr sr1 : Reg) (imm5 : BitVec 5)
  /-- LDR (R109, R152). -/
  | ldr (dr baseR : Reg) (offset6 : BitVec 6)
  /-- STR (R109, R162). -/
  | str (sr baseR : Reg) (offset6 : BitVec 6)
  /-- RTI, unsupported (R111, R190). -/
  | rti
  /-- NOT (R103, R133). -/
  | not (dr sr : Reg)
  /-- LDI (R108, R151). -/
  | ldi (dr : Reg) (offset9 : BitVec 9)
  /-- STI (R108, R161). -/
  | sti (sr : Reg) (offset9 : BitVec 9)
  /-- JMP (R105, R142). -/
  | jmp (baseR : Reg)
  /-- RES, unsupported (R111, R191). -/
  | res
  /-- LEA (R108, R153). -/
  | lea (dr : Reg) (offset9 : BitVec 9)
  /-- TRAP 0x20, GETC (R110, R171). -/
  | trapGetc
  /-- TRAP 0x21, OUT (R110, R172). -/
  | trapOut
  /-- TRAP 0x22, PUTS (R110, R173). -/
  | trapPuts
  /-- TRAP 0x23, IN (R110, R174). -/
  | trapIn
  /-- TRAP 0x24, PUTSP (R110, R175). -/
  | trapPutsp
  /-- TRAP 0x25, HALT (R110, R176). -/
  | trapHalt
  /-- TRAP with a vector that names no service (R110, R177). -/
  | trapUnknown (vector8 : BitVec 8)
  deriving DecidableEq, Repr

end Sys2Proof
end

