-- ==== Sys2Proof/WellFormed.lean ====
section
/-! DEFINITION. Which terms of `Instr` are instructions.  Every register number and every immediate is legal
(spec/30_encoding.md R118), so the one check is that the unknown-vector row of TRAP holds a vector
outside 0x20..0x25 (R117). -/

namespace Sys2Proof

/-- The six vectors with a service, 0x20 to 0x25 (R11, R115). -/
def isServiceVector (v : BitVec 8) : Bool := 0x20 ≤ v.toNat && v.toNat ≤ 0x25

/-- The check of one instruction.  A form with one of the six service vectors has a row of its own (R122), so
`trapUnknown` with such a vector is not an instruction. -/
def Instr.wellFormed : Instr → Bool
  | .br _ _ => true
  | .addReg _ _ _ => true
  | .addImm _ _ _ => true
  | .ld _ _ => true
  | .st _ _ => true
  | .jsr _ => true
  | .jsrr _ => true
  | .andReg _ _ _ => true
  | .andImm _ _ _ => true
  | .ldr _ _ _ => true
  | .str _ _ _ => true
  | .rti => true
  | .not _ _ => true
  | .ldi _ _ => true
  | .sti _ _ => true
  | .jmp _ => true
  | .res => true
  | .lea _ _ => true
  | .trapGetc => true
  | .trapOut => true
  | .trapPuts => true
  | .trapIn => true
  | .trapPutsp => true
  | .trapHalt => true
  | .trapUnknown v => !isServiceVector v

end Sys2Proof
end

