-- ==== Sys2Proof/Decode.lean ====
section
/-! DEFINITION. The decoder and the encoder (spec/30_encoding.md R100 to R122).  An instruction is one 16-bit
word and there is no byte order inside the machine (R52, R100), so both work on words.  The decoder is total
and refuses no word (R118, R122). -/

namespace Sys2Proof

/-! ## The opcode map -/

/-- The sixteen opcodes (R115). -/
inductive Opcode where
  | br | add | ld | st | jsr | and | ldr | str | rti | not | ldi | sti | jmp | res | lea | trap
  deriving DecidableEq, Repr

/-- A value of OPCODE_MAP: the opcode at position n has the number n in ir[15:12] (R12, R115). -/
abbrev OpcodeMap := List Opcode

/-- The default of OPCODE_MAP, the standard assignment (R115; DESIGN CHOICE of the spec, its decision D1, from general
knowledge; notes/assumptions/1.md).  Unsafe for a claim about a machine with this default, if a number is wrong. -/
def opcodeMap : OpcodeMap :=
  [.br, .add, .ld, .st, .jsr, .and, .ldr, .str, .rti, .not, .ldi, .sti, .jmp, .res, .lea, .trap]

/-- A legal value of OPCODE_MAP: each of the sixteen opcodes once (R100, R115). -/
def OpcodeMap.wf (m : OpcodeMap) : Bool := m.isPerm Sys2Proof.opcodeMap

/-- The opcode with a given number. -/
def opcodeOf (m : OpcodeMap) (n : BitVec 4) : Opcode := m.getD n.toNat .br

/-- The number of an opcode. -/
def opcodeNumber (m : OpcodeMap) (op : Opcode) : BitVec 4 := BitVec.ofNat 4 (m.idxOf op)

/-! ## Fields -/

/-- The register that a 3-bit field names (R21, R100). -/
def Reg.ofBits (b : BitVec 3) : Reg :=
  match b.getLsbD 2, b.getLsbD 1, b.getLsbD 0 with
  | false, false, false => .r0
  | false, false, true => .r1
  | false, true, false => .r2
  | false, true, true => .r3
  | true, false, false => .r4
  | true, false, true => .r5
  | true, true, false => .r6
  | true, true, true => .r7

/-- The 3-bit field that names a register. -/
def Reg.toBits : Reg → BitVec 3
  | .r0 => 0b000
  | .r1 => 0b001
  | .r2 => 0b010
  | .r3 => 0b011
  | .r4 => 0b100
  | .r5 => 0b101
  | .r6 => 0b110
  | .r7 => 0b111

/-- `ir[15:12]` (R100). -/
def opcodeField (ir : Word) : BitVec 4 := ir.extractLsb' 12 4

/-- The register named by `ir[11:9]`: DR, or SR of the stores (R101 to R103, R108, R109). -/
def reg11to9 (ir : Word) : Reg := Reg.ofBits (ir.extractLsb' 9 3)

/-- The register named by `ir[8:6]`: SR1, SR of NOT, or BaseR (R101 to R103, R105, R107, R109). -/
def reg8to6 (ir : Word) : Reg := Reg.ofBits (ir.extractLsb' 6 3)

/-- The register named by `ir[2:0]`: SR2 (R101). -/
def reg2to0 (ir : Word) : Reg := Reg.ofBits (ir.extractLsb' 0 3)

/-- `ir[11:9]` of a BR (R104). -/
def flagsField (ir : Word) : BitVec 3 := ir.extractLsb' 9 3

/-- `ir[4:0]` (R102, R112). -/
def imm5Field (ir : Word) : BitVec 5 := ir.extractLsb' 0 5

/-- `ir[5:0]` (R109, R112). -/
def offset6Field (ir : Word) : BitVec 6 := ir.extractLsb' 0 6

/-- `ir[8:0]` (R104, R108, R112). -/
def offset9Field (ir : Word) : BitVec 9 := ir.extractLsb' 0 9

/-- `ir[10:0]` (R106, R112). -/
def offset11Field (ir : Word) : BitVec 11 := ir.extractLsb' 0 11

/-- `ir[7:0]` (R110, R112). -/
def vector8Field (ir : Word) : BitVec 8 := ir.extractLsb' 0 8

/-- The mode bit of ADD and AND: 1 selects the immediate form (R113; DESIGN CHOICE of the spec, its decision
D2, from general knowledge; notes/assumptions/2.md). -/
def immediateMode (ir : Word) : Bool := ir.getLsbD 5

/-- The long bit of the JSR/JSRR opcode: 1 selects JSR (R113). -/
def longBit (ir : Word) : Bool := ir.getLsbD 11

/-! ## Decoding -/

/-- The service that a trap vector selects (R115, R122). -/
def decodeTrap (v : BitVec 8) : Instr :=
  if v = 0x20 then .trapGetc
  else if v = 0x21 then .trapOut
  else if v = 0x22 then .trapPuts
  else if v = 0x23 then .trapIn
  else if v = 0x24 then .trapPutsp
  else if v = 0x25 then .trapHalt
  else .trapUnknown v

/-- The instruction of a word whose opcode is known: the layouts of R101 to R111. -/
def decodeAs (op : Opcode) (ir : Word) : Instr :=
  match op with
  | .br => .br (flagsField ir) (offset9Field ir)
  | .add =>
    bif immediateMode ir then .addImm (reg11to9 ir) (reg8to6 ir) (imm5Field ir)
    else .addReg (reg11to9 ir) (reg8to6 ir) (reg2to0 ir)
  | .ld => .ld (reg11to9 ir) (offset9Field ir)
  | .st => .st (reg11to9 ir) (offset9Field ir)
  | .jsr => bif longBit ir then .jsr (offset11Field ir) else .jsrr (reg8to6 ir)
  | .and =>
    bif immediateMode ir then .andImm (reg11to9 ir) (reg8to6 ir) (imm5Field ir)
    else .andReg (reg11to9 ir) (reg8to6 ir) (reg2to0 ir)
  | .ldr => .ldr (reg11to9 ir) (reg8to6 ir) (offset6Field ir)
  | .str => .str (reg11to9 ir) (reg8to6 ir) (offset6Field ir)
  | .rti => .rti
  | .not => .not (reg11to9 ir) (reg8to6 ir)
  | .ldi => .ldi (reg11to9 ir) (offset9Field ir)
  | .sti => .sti (reg11to9 ir) (offset9Field ir)
  | .jmp => .jmp (reg8to6 ir)
  | .res => .res
  | .lea => .lea (reg11to9 ir) (offset9Field ir)
  | .trap => decodeTrap (vector8Field ir)

/-- The decoding procedure of R122, under a value of OPCODE_MAP. -/
def decodeWith (m : OpcodeMap) (ir : Word) : Instr := decodeAs (opcodeOf m (opcodeField ir)) ir

/-- The decoder of the opcode table: OPCODE_MAP is the default (R115). -/
def decode (ir : Word) : Instr := decodeWith opcodeMap ir

/-- What the decoder reads from an instruction whose bits are `w`, numbered as the opcode table numbers them.
An instruction is one word (R100), so `nbits` is at most 16 and the bits above `nbits` are 0. -/
def decodeTableWord (nbits w : Nat) : Option Instr :=
  if nbits ≤ 16 then some (decode (BitVec.ofNat 16 (w % 2 ^ nbits))) else none

/-! ## Encoding -/

/-- An instruction word: the opcode's number above the twelve layout bits (R100). -/
def opcodeWord (m : OpcodeMap) (op : Opcode) (layout : BitVec 12) : Word := opcodeNumber m op ++ layout

/-- The layout bits of formats BR and PCREL: a 3-bit field in [11:9] and one of nine bits in [8:0] (R104, R108). -/
def layout3and9 (a : BitVec 3) (b : BitVec 9) : BitVec 12 := a ++ b

/-- The layout bits of formats OPR, NOT, JMP, JSRR and BASE: fields in [11:9], [8:6] and [5:0] (R101 to R103, R105,
R107, R109). -/
def layout3and3and6 (a b : BitVec 3) (c : BitVec 6) : BitVec 12 := a ++ b ++ c

/-- The layout bits of format JSR: the long bit and a field in [10:0] (R106). -/
def layout1and11 (a : BitVec 1) (b : BitVec 11) : BitVec 12 := a ++ b

/-- The layout bits of format TRAP: [11:8] and the vector in [7:0] (R110). -/
def layout4and8 (a : BitVec 4) (b : BitVec 8) : BitVec 12 := a ++ b

/-- Bits [5:0] of the register form of ADD and AND: the mode bit 0, two bits that no layout names, and SR2 (R101,
R113). -/
def registerOperand (sr2 : Reg) : BitVec 6 := 0b000#3 ++ sr2.toBits

/-- Bits [5:0] of the immediate form of ADD and AND: the mode bit 1, and imm5 (R102, R113). -/
def immediateOperand (imm5 : BitVec 5) : BitVec 6 := 0b1#1 ++ imm5

/-- The word of an instruction under a value of OPCODE_MAP.  The bits that no layout names are written 0, but for NOT, whose bits [5:0]
are written 1, as is customary (R103; the decoder looks at none of them, R114). -/
def encodeWith (m : OpcodeMap) : Instr → Word
  | .br flags offset9 => opcodeWord m .br (layout3and9 flags offset9)
  | .addReg dr sr1 sr2 => opcodeWord m .add (layout3and3and6 dr.toBits sr1.toBits (registerOperand sr2))
  | .addImm dr sr1 imm5 => opcodeWord m .add (layout3and3and6 dr.toBits sr1.toBits (immediateOperand imm5))
  | .ld dr offset9 => opcodeWord m .ld (layout3and9 dr.toBits offset9)
  | .st sr offset9 => opcodeWord m .st (layout3and9 sr.toBits offset9)
  | .jsr offset11 => opcodeWord m .jsr (layout1and11 1 offset11)
  | .jsrr baseR => opcodeWord m .jsr (layout3and3and6 0 baseR.toBits 0)
  | .andReg dr sr1 sr2 => opcodeWord m .and (layout3and3and6 dr.toBits sr1.toBits (registerOperand sr2))
  | .andImm dr sr1 imm5 => opcodeWord m .and (layout3and3and6 dr.toBits sr1.toBits (immediateOperand imm5))
  | .ldr dr baseR offset6 => opcodeWord m .ldr (layout3and3and6 dr.toBits baseR.toBits offset6)
  | .str sr baseR offset6 => opcodeWord m .str (layout3and3and6 sr.toBits baseR.toBits offset6)
  | .rti => opcodeWord m .rti 0
  | .not dr sr => opcodeWord m .not (layout3and3and6 dr.toBits sr.toBits 0b111111)
  | .ldi dr offset9 => opcodeWord m .ldi (layout3and9 dr.toBits offset9)
  | .sti sr offset9 => opcodeWord m .sti (layout3and9 sr.toBits offset9)
  | .jmp baseR => opcodeWord m .jmp (layout3and3and6 0 baseR.toBits 0)
  | .res => opcodeWord m .res 0
  | .lea dr offset9 => opcodeWord m .lea (layout3and9 dr.toBits offset9)
  | .trapGetc => opcodeWord m .trap (layout4and8 0 0x20)
  | .trapOut => opcodeWord m .trap (layout4and8 0 0x21)
  | .trapPuts => opcodeWord m .trap (layout4and8 0 0x22)
  | .trapIn => opcodeWord m .trap (layout4and8 0 0x23)
  | .trapPutsp => opcodeWord m .trap (layout4and8 0 0x24)
  | .trapHalt => opcodeWord m .trap (layout4and8 0 0x25)
  | .trapUnknown v => opcodeWord m .trap (layout4and8 0 v)

/-- The encoder of the opcode table: OPCODE_MAP is the default (R115). -/
def encode (i : Instr) : Word := encodeWith opcodeMap i

/-! ## The opcode table as data -/

/-- One row of spec/opcode_table.json: a word `w` matches when `w &&& mask = pattern`, and of the rows that
match the one of highest priority is taken (R122). -/
structure OpcodeRow where
  mask : Word
  pattern : Word
  priority : Nat
  deriving DecidableEq, Repr

/-- Whether a word matches a row. -/
def OpcodeRow.matchesWord (r : OpcodeRow) (w : Word) : Bool := w &&& r.mask == r.pattern

/-- The row of spec/opcode_table.json that a constructor stands for: its mask, its match and its priority (the
rows without a priority overlap no other and get 0). -/
def Instr.row : Instr → OpcodeRow
  | .br _ _ => ⟨0xF000, 0x0000, 0⟩
  | .addReg _ _ _ => ⟨0xF020, 0x1000, 0⟩
  | .addImm _ _ _ => ⟨0xF020, 0x1020, 0⟩
  | .ld _ _ => ⟨0xF000, 0x2000, 0⟩
  | .st _ _ => ⟨0xF000, 0x3000, 0⟩
  | .jsr _ => ⟨0xF800, 0x4800, 0⟩
  | .jsrr _ => ⟨0xF800, 0x4000, 0⟩
  | .andReg _ _ _ => ⟨0xF020, 0x5000, 0⟩
  | .andImm _ _ _ => ⟨0xF020, 0x5020, 0⟩
  | .ldr _ _ _ => ⟨0xF000, 0x6000, 0⟩
  | .str _ _ _ => ⟨0xF000, 0x7000, 0⟩
  | .rti => ⟨0xF000, 0x8000, 0⟩
  | .not _ _ => ⟨0xF000, 0x9000, 0⟩
  | .ldi _ _ => ⟨0xF000, 0xA000, 0⟩
  | .sti _ _ => ⟨0xF000, 0xB000, 0⟩
  | .jmp _ => ⟨0xF000, 0xC000, 0⟩
  | .res => ⟨0xF000, 0xD000, 0⟩
  | .lea _ _ => ⟨0xF000, 0xE000, 0⟩
  | .trapGetc => ⟨0xF0FF, 0xF020, 1⟩
  | .trapOut => ⟨0xF0FF, 0xF021, 1⟩
  | .trapPuts => ⟨0xF0FF, 0xF022, 1⟩
  | .trapIn => ⟨0xF0FF, 0xF023, 1⟩
  | .trapPutsp => ⟨0xF0FF, 0xF024, 1⟩
  | .trapHalt => ⟨0xF0FF, 0xF025, 1⟩
  | .trapUnknown _ => ⟨0xF000, 0xF000, 0⟩

/-- One instruction of each row of spec/opcode_table.json, in the table's order. -/
def tableInstrs : List Instr :=
  [.br 0 0, .addReg .r0 .r0 .r0, .addImm .r0 .r0 0, .ld .r0 0, .st .r0 0, .jsr 0, .jsrr .r0,
    .andReg .r0 .r0 .r0, .andImm .r0 .r0 0, .ldr .r0 .r0 0, .str .r0 .r0 0, .rti, .not .r0 .r0] ++
  [.ldi .r0 0, .sti .r0 0, .jmp .r0, .res, .lea .r0 0, .trapGetc, .trapOut, .trapPuts, .trapIn,
    .trapPutsp, .trapHalt, .trapUnknown 0]

/-- The 25 rows of spec/opcode_table.json. -/
def opcodeTable : List OpcodeRow := tableInstrs.map Instr.row

end Sys2Proof
end

