-- ==== Sys2Proof/Machine/Params.lean ====
section
/-! DEFINITION. The open parameters that an implementation fixes and the spec does not (spec/00_scope.md R12): OPCODE_MAP and
KBSR_READY_WRITE.  A machine is constructed with their values (`State.construct`), every statement about every state holds
for all of them, and no step changes them.  The other open parameters of R12 are arguments too: RESET_GPR of
`State.construct`, INIT_MEM of `loadImage`, and the console oracle is `Console`. -/

namespace Sys2Proof.Machine

/-- KBSR_READY_WRITE, the two readings of "set bit 15" (R12, R55). -/
inductive ReadyWrite where
  | or | assign
  deriving DecidableEq, Repr

/-- The status word once a key was found, from the word stored before (R55). -/
def ReadyWrite.apply (setting : ReadyWrite) (old : Word) : Word :=
  match setting with
  | .or => old ||| 0x8000
  | .assign => 0x8000

/-- The parameters: plain data, fixed for one machine. -/
structure Params where
  /-- OPCODE_MAP (R12, R115). -/
  opcodeMap : OpcodeMap
  /-- KBSR_READY_WRITE (R12, R55). -/
  readyWrite : ReadyWrite
  deriving DecidableEq, Repr

/-- The default of KBSR_READY_WRITE, the OR that R55 writes (DESIGN CHOICE of the spec, its decision D6;
notes/assumptions/4.md).  Unsafe for a claim about a machine with this default, where software stored nonzero low bits at
0xFE00. -/
def kbsrReadyWrite : ReadyWrite := .or

/-- The defaults of the spec (R12; its decisions D1 and D6). -/
def Params.default : Params := ⟨Sys2Proof.opcodeMap, kbsrReadyWrite⟩

end Sys2Proof.Machine
end

