-- ==== Sys2Proof/Machine/State.lean ====
section
/-! DEFINITION. The state of the machine as plain data, the reasons a step can stop, and the state after reset
(spec/10_state.md R20 to R45; spec/21_console.md R85, R86; spec/50_execution_loop.md R203). -/

namespace Sys2Proof.Machine

/-- The three fatal conditions (spec/60_exceptions.md R220 to R222).  An instruction that meets one does not stop
the model: it takes a next state whose run state is `faulted` (`State.raise`, R224).  `step` answers the condition
as a fault when it is asked to go on from that state, from which the spec has no transition (R205).  Safe: the model
makes no claim of a step that does not exist. -/
inductive Fault where
  /-- UnsupportedOpcode (R220): raised by RTI and RES only.  `opcode` is ir[15:12], a diagnostic (R224).  Safe. -/
  | unsupportedOpcode (opcode : BitVec 4)
  /-- UnknownTrap (R221): raised by a TRAP whose vector is outside 0x20..0x25 only.  `vector` is ir[7:0], a
  diagnostic (R224).  Safe. -/
  | unknownTrap (vector : BitVec 8)
  /-- IoFailure (R222): raised by any console call that fails, in a trap service or in a read of the keyboard status
  word.  Safe. -/
  | ioFailure
  deriving DecidableEq, Repr

/-- What the model gives no meaning. -/
inductive Refusal where
  /-- An instruction that is not modelled, by its mnemonic.  No arm of `exec` answers it.  Safe. -/
  | notModelled (mnemonic : String)
  /-- A step from Halted: the spec has no such transition (R205, R209; U18 of spec/93_implementation_defined.md says
  refuse).  Raised by `step` only, never by an instruction.  Safe. -/
  | halted
  deriving DecidableEq, Repr

/-- The condition register: exactly one of three flags (R27). -/
inductive Cond where
  | pos | zro | neg
  deriving DecidableEq, Repr

/-- The run state (R32, R203).  `faulted` carries the fatal condition that was raised, which R222 surfaces to the
caller; it is no register of the machine (R224; notes/assumptions/5.md). -/
inductive RunState where
  | notStarted
  | running
  | halted
  | faulted (condition : Fault)
  deriving DecidableEq, Repr

/-- The eight general registers (R21), each with a home of its own. -/
structure Regs where
  r0 : Word
  r1 : Word
  r2 : Word
  r3 : Word
  r4 : Word
  r5 : Word
  r6 : Word
  r7 : Word
  deriving DecidableEq, Repr

/-- Memory: the words that are not 0x0000, by address, addresses strictly rising (`Memory.wf`).  An address that is
not listed reads as 0x0000, the reset contents (R44).  The addressable unit is the 16-bit word and nothing is
narrower (R50, R52), so a cell is an address and a word (notes/assumptions/6.md). -/
abbrev Memory := List (Nat × Word)

/-- What an unlisted address reads as (R44). -/
def Memory.unlisted : Word := 0x0000

/-- The canonical form: addresses below 65,536 and strictly rising, no entry equal to what an unlisted address
reads as. -/
def Memory.wf : Memory → Bool
  | [] => true
  | [c] => decide (c.1 < Config.memWords) && c.2 != Memory.unlisted
  | c :: d :: rest => decide (c.1 < d.1) && c.2 != Memory.unlisted && Memory.wf (d :: rest)

/-- An answer of the console to `KeyAvailable()` (R80, R84). -/
inductive PollAnswer where
  | yes | no | fails
  deriving DecidableEq, Repr

/-- An answer of the console to `ReadKey()` (R81, R83, R84): a byte; or none yet, and the call goes on waiting; or a
failure. -/
inductive KeyAnswer where
  | byte (k : Byte)
  | notYet
  | fails
  deriving DecidableEq, Repr

/-- An answer of the console to `WriteByte(b)` (R82, R84). -/
inductive WriteAnswer where
  | done | fails
  deriving DecidableEq, Repr

/-- The environment behind the console port.  The spec leaves its answers free (R12, R85): they are the three lists,
the answers to the calls to come, first call first, over which every statement quantifies.  `out` is the output log
(R86), oldest byte first.  When a list is empty the console is the deterministic simulator of R85: a key is
available when a byte is next in `keys`, a `ReadKey()` waits, a write is accepted (DESIGN CHOICE, unsafe for a claim
about one given console; notes/assumptions/7.md). -/
structure Console where
  polls : List PollAnswer
  keys : List KeyAnswer
  writes : List WriteAnswer
  out : List Byte
  deriving DecidableEq, Repr

/-- The two services that write a string in memory (R173, R175). -/
inductive StringService where
  | puts | putsp
  deriving DecidableEq, Repr

/-- What is to be done with the word of a memory read, once it is there. -/
inductive ReadUse where
  /-- The word is the instruction (R201). -/
  | fetch
  /-- The word goes to a register (LD, LDR, and the second read of LDI; R150 to R152). -/
  | load (dr : Reg)
  /-- The word is the pointer of LDI (R151). -/
  | loadPointer (dr : Reg)
  /-- The word is the pointer of STI (R161). -/
  | storePointer (sr : Reg)
  /-- The word is the word of a string at this address (R173, R175). -/
  | stringWord (service : StringService) (addr : Word)
  deriving DecidableEq, Repr

/-- An instruction, or a fetch, that has begun and is not complete (R83, R207, R208): it has had the effects that
precede the point where it stands, and no others. -/
inductive Pending where
  /-- GETC waits in `ReadKey()` (R171). -/
  | getcKey
  /-- IN waits in `ReadKey()`, its prompt written (R174). -/
  | inKey
  /-- A read of the keyboard status word found a key and waits in `ReadKey()`, the ready bit set (R55, R83). -/
  | statusKey (use : ReadUse)
  /-- PUTS or PUTSP is to read the string word at this address (R173, R175). -/
  | stringAt (service : StringService) (addr : Word)
  deriving DecidableEq, Repr

/-- The whole state. -/
structure State where
  /-- R0 to R7 (R21). -/
  regs : Regs
  /-- PC (R24). -/
  pc : Word
  /-- COND (R27). -/
  cond : Cond
  /-- The run state (R32). -/
  run : RunState
  /-- Memory, the keyboard words at 0xFE00 and 0xFE02 included (R31, R34, R35). -/
  mem : Memory
  /-- The console (R37, R85, R86). -/
  console : Console
  /-- The instruction in progress, if one waits inside a step (R83, R208). -/
  pending : Option Pending
  /-- The open parameters this machine was constructed with, which no step changes (R12). -/
  params : Params
  deriving DecidableEq, Repr

/-- The machine as constructed, with the open parameters `params` and RESET_GPR = `gpr` (R12; R40 to R45, R250): the spec
leaves the general registers open (R43). -/
def State.construct (params : Params) (gpr : Regs) : State where
  regs := gpr
  pc := Config.resetPc
  cond := .zro
  run := .notStarted
  mem := []
  console := ⟨[], [], [], []⟩
  pending := none
  params := params

/-- The machine right after reset, with the spec's defaults of OPCODE_MAP and KBSR_READY_WRITE (R12).  The spec states no
value for R0 to R7 (R43); 0x0000 is the model's choice
(DESIGN CHOICE, unsafe; notes/assumptions/3.md), and no statement rests on it. -/
def State.reset : State := State.construct Params.default ⟨0, 0, 0, 0, 0, 0, 0, 0⟩

end Sys2Proof.Machine
end

