-- ==== Sys2Proof/Machine/Ops.lean ====
section
/-! DEFINITION. The named operations over registers, memory, console and run state: `x[i]`, `pc`, `MemRead`, `MemWrite`,
`KeyAvailable`, `ReadKey`, `WriteByte`, `WriteText` and `raise` of spec/00_scope.md R16 to R18. -/

namespace Sys2Proof.Machine

/-! ## Registers -/

/-- `x[i]` (R16, R21). -/
def Regs.get (x : Regs) : Reg → Word
  | .r0 => x.r0
  | .r1 => x.r1
  | .r2 => x.r2
  | .r3 => x.r3
  | .r4 => x.r4
  | .r5 => x.r5
  | .r6 => x.r6
  | .r7 => x.r7

/-- `x[i] <- v` (R16, R21): no register is hard-wired and none aliases another. -/
def Regs.set (x : Regs) (i : Reg) (v : Word) : Regs :=
  match i with
  | .r0 => { x with r0 := v }
  | .r1 => { x with r1 := v }
  | .r2 => { x with r2 := v }
  | .r3 => { x with r3 := v }
  | .r4 => { x with r4 := v }
  | .r5 => { x with r5 := v }
  | .r6 => { x with r6 := v }
  | .r7 => { x with r7 := v }

/-- Reads a general register. -/
def State.reg (s : State) (i : Reg) : Word := s.regs.get i

/-- Writes a general register. -/
def State.setReg (s : State) (i : Reg) (v : Word) : State := { s with regs := s.regs.set i v }

/-- `pc <- t` (R16). -/
def State.setPc (s : State) (t : Word) : State := { s with pc := t }

/-- Writes `cond`; only `setcc` calls it (R29). -/
def State.setCond (s : State) (c : Cond) : State := { s with cond := c }

/-! ## Run state -/

/-- Writes the run state. -/
def State.setRun (s : State) (r : RunState) : State := { s with run := r }

/-- `raise C(info)`, taking a fatal condition (R18, R224, R229): the run state becomes Faulted and nothing else is
written; no cause, no PC and no status is saved and control goes nowhere.  There is no return from it (R230). -/
def State.raise (s : State) (c : Fault) : State := s.setRun (.faulted c)

/-- The `run()` invocation, NotStarted to Running (R203): nothing else changes. -/
def State.start (s : State) : State := s.setRun .running

/-- Records which instruction is in progress. -/
def State.setPending (s : State) (p : Option Pending) : State := { s with pending := p }

/-- The instruction waits at `p` (R83, R208): `run` stays as it is. -/
def State.park (s : State) (p : Pending) : State := s.setPending (some p)

/-! ## Memory as an array -/

/-- `mem[a]`, the stored word, without side effect (R16, R50). -/
def Memory.read : Memory → Nat → Word
  | [], _ => Memory.unlisted
  | (k, v) :: rest, a => if a = k then v else if a < k then Memory.unlisted else Memory.read rest a

/-- `v` at address `a` in front of a tail whose addresses are above `a`, in canonical form. -/
def Memory.cons (a : Nat) (v : Word) (rest : Memory) : Memory :=
  if v = Memory.unlisted then rest else (a, v) :: rest

/-- `mem[a] <- v` (R58), which keeps the canonical form. -/
def Memory.write : Memory → Nat → Word → Memory
  | [], a, v => Memory.cons a v []
  | (k, w) :: rest, a, v =>
    if a < k then Memory.cons a v ((k, w) :: rest)
    else if a = k then Memory.cons a v rest
    else (k, w) :: Memory.write rest a v

/-- The stored word at an address. -/
def State.word (s : State) (a : Word) : Word := s.mem.read a.toNat

/-- Stores a word at an address. -/
def State.putWord (s : State) (a v : Word) : State := { s with mem := s.mem.write a.toNat v }

/-! ## The console port -/

/-- Replaces the environment behind the port. -/
def State.setConsole (s : State) (c : Console) : State := { s with console := c }

/-- The answer of the simulator of R85 to `KeyAvailable()`: whether a key byte is next. -/
def Console.simulatedPoll (c : Console) : PollAnswer :=
  match c.keys with
  | .byte _ :: _ => .yes
  | _ => .no

/-- The next answer to `KeyAvailable()` (R80, R85): it consumes no key. -/
def Console.poll (c : Console) : PollAnswer × Console :=
  match c.polls with
  | [] => (c.simulatedPoll, c)
  | p :: ps => (p, { c with polls := ps })

/-- The next answer to `ReadKey()` (R81, R83, R85): it consumes one byte from the input, or waits. -/
def Console.takeKey (c : Console) : KeyAnswer × Console :=
  match c.keys with
  | [] => (.notYet, c)
  | k :: ks => (k, { c with keys := ks })

/-- The next answer to `WriteByte(b)` (R82, R84): the byte is appended to the output unless the write fails. -/
def Console.writeByte (c : Console) (b : Byte) : WriteAnswer × Console :=
  match c.writes with
  | [] => (.done, { c with out := c.out ++ [b] })
  | .done :: ws => (.done, { c with writes := ws, out := c.out ++ [b] })
  | .fails :: ws => (.fails, { c with writes := ws })

/-- `KeyAvailable()` (R80). -/
def keyAvailable (s : State) : PollAnswer × State :=
  (s.console.poll.1, s.setConsole s.console.poll.2)

/-- `ReadKey()` (R81). -/
def readKey (s : State) : KeyAnswer × State :=
  (s.console.takeKey.1, s.setConsole s.console.takeKey.2)

/-- `WriteByte(b)` (R82). -/
def writeByte (b : Byte) (s : State) : WriteAnswer × State :=
  ((s.console.writeByte b).1, s.setConsole (s.console.writeByte b).2)

/-- `WriteByte` of each byte in order, up to the first that fails (R82, R84).  `WriteText(s)` is this of the character
codes of `s`. -/
def writeBytes : List Byte → State → WriteAnswer × State
  | [], s => (.done, s)
  | b :: bs, s =>
    match writeByte b s with
    | (.done, t) => writeBytes bs t
    | (.fails, t) => (.fails, t)

/-- The character codes of the prompt of IN (R174; the byte values are general knowledge, K9; notes/assumptions/9.md). -/
def promptBytes : List Byte :=
  [0x45, 0x6E, 0x74, 0x65, 0x72, 0x20, 0x61, 0x20, 0x63, 0x68, 0x61, 0x72, 0x61, 0x63, 0x74, 0x65, 0x72, 0x3A, 0x20]

/-- The character codes of the text of HALT (R176; the byte values are general knowledge, K9; notes/assumptions/9.md). -/
def haltBytes : List Byte := [0x48, 0x41, 0x4C, 0x54, 0x0A]

/-- `zext_8` (R15, R81): a key byte widened with zeros. -/
def zext8 (k : Byte) : Word := k.zeroExtend 16

/-! ## MemRead and MemWrite -/

/-- What a `MemRead` gives: a word, or a wait inside `ReadKey()`, or IoFailure. -/
inductive ReadResult where
  | value (v : Word)
  | waits
  | fails
  deriving DecidableEq, Repr

/-- The part of a read of the keyboard status word that follows a successful poll: `ReadKey()`, the key to the data
word, and the status word as it now stands (R55). -/
def takeStatusKey (s : State) : ReadResult × State :=
  match readKey s with
  | (.byte k, t) => (.value ((t.putWord Config.kbdr (zext8 k)).word Config.kbsr), t.putWord Config.kbdr (zext8 k))
  | (.notYet, t) => (.waits, t)
  | (.fails, t) => (.fails, t)

/-- A read of the keyboard status word (R55, R56), the ready bit set as KBSR_READY_WRITE says (R12). -/
def readStatus (s : State) : ReadResult × State :=
  match keyAvailable s with
  | (.yes, t) => takeStatusKey (t.putWord Config.kbsr (t.params.readyWrite.apply (t.word Config.kbsr)))
  | (.no, t) => (.value ((t.putWord Config.kbsr 0x0000).word Config.kbsr), t.putWord Config.kbsr 0x0000)
  | (.fails, t) => (.fails, t)

/-- `MemRead(a, 1)` (R17, R55, R57): only 0xFE00 is intercepted; every other address gives the stored word and changes
nothing. -/
def memRead (a : Word) (s : State) : ReadResult × State :=
  if a = Config.kbsr then readStatus s else (.value (s.word a), s)

/-- `MemWrite(a, 1, v)` (R17, R58): plain storage at every address, the keyboard words included. -/
def memWrite (a v : Word) (s : State) : State := s.putWord a v

/-! ## Going on after a call that can wait or fail -/

/-- Goes on with the word of a read; or waits, to resume with `use`; or raises IoFailure (R83, R84). -/
def finishRead (use : ReadUse) (k : Word → State → State) : ReadResult × State → State
  | (.value v, s) => k v s
  | (.waits, s) => s.park (.statusKey use)
  | (.fails, s) => s.raise .ioFailure

/-- Goes on with the byte of a `ReadKey()`; or waits at `p`; or raises IoFailure (R83, R84). -/
def finishKey (p : Pending) (k : Byte → State → State) : KeyAnswer × State → State
  | (.byte b, s) => k b s
  | (.notYet, s) => s.park p
  | (.fails, s) => s.raise .ioFailure

/-- Goes on after a write, or raises IoFailure (R84). -/
def finishWrite (k : State → State) : WriteAnswer × State → State
  | (.done, s) => k s
  | (.fails, s) => s.raise .ioFailure

end Sys2Proof.Machine
end

