-- ==== Sys2Proof/Machine/Flags.lean ====
section
/-! DEFINITION. The condition flags (spec/10_state.md R27 to R30) and the branch test (spec/41_control.md R140). -/

namespace Sys2Proof.Machine

/-- The number that COND holds: POS = 1, ZRO = 2, NEG = 4 (R11, R27). -/
def Cond.bits : Cond → BitVec 3
  | .pos => 0b001
  | .zro => 0b010
  | .neg => 0b100

/-- The flag of a value (R28). -/
def condOf (v : Word) : Cond :=
  if v = 0x0000 then .zro else if v.getLsbD 15 then .neg else .pos

/-- `setcc(i)`, from the current value of Ri (R28). -/
def State.setcc (s : State) (i : Reg) : State := s.setCond (condOf (s.reg i))

/-- Writes a destination register and then sets the flags from it, as ADD, AND, NOT, LD, LDI, LDR, LEA, GETC and IN end
(R29). -/
def State.setRegCc (s : State) (dr : Reg) (v : Word) : State := (s.setReg dr v).setcc dr

/-- The test of BR: `(ir[11:9] & cond[2:0]) != 0` (R140). -/
def branchTaken (flags : BitVec 3) (c : Cond) : Bool := flags &&& c.bits != 0

end Sys2Proof.Machine
end

