-- ==== Sys2Proof/Machine/Operands.lean ====
section
/-! DEFINITION. Operand forms and addresses (spec/00_scope.md R15; spec/30_encoding.md R112; spec/42_load.md R154;
spec/44_trap.md R173, R175).  All sums wrap modulo 65,536 (R14, R50). -/

namespace Sys2Proof.Machine

/-- `sext_5`, for imm5 of ADD and AND (R15, R112). -/
def sext5 (v : BitVec 5) : Word := v.signExtend 16

/-- `sext_6`, for offset6 of LDR and STR (R15, R112). -/
def sext6 (v : BitVec 6) : Word := v.signExtend 16

/-- `sext_9`, for offset9 of BR, LD, LDI, LEA, ST and STI (R15, R112). -/
def sext9 (v : BitVec 9) : Word := v.signExtend 16

/-- `sext_11`, for offset11 of JSR (R15, R112). -/
def sext11 (v : BitVec 11) : Word := v.signExtend 16

/-- The PC-relative address `pc + sext_9(offset9)`, from the incremented pc (R24, R154). -/
def State.pcRelative (s : State) (offset9 : BitVec 9) : Word := s.pc + sext9 offset9

/-- The base-plus-offset address `x[BaseR] + sext_6(offset6)` (R154). -/
def State.basePlus (s : State) (baseR : Reg) (offset6 : BitVec 6) : Word := s.reg baseR + sext6 offset6

/-- Bits [7:0] of a word. -/
def lowByte (w : Word) : Byte := w.extractLsb' 0 8

/-- Bits [15:8] of a word. -/
def highByte (w : Word) : Byte := w.extractLsb' 8 8

/-- The bytes that a string service writes for one word that is not the terminator: the low byte (PUTS, R173); the
low byte and then the high byte if it is not 0x00 (PUTSP, R175). -/
def StringService.bytes (service : StringService) (w : Word) : List Byte :=
  match service with
  | .puts => [lowByte w]
  | .putsp => if highByte w = 0x00 then [lowByte w] else [lowByte w, highByte w]

end Sys2Proof.Machine
end

