-- ==== Sys2Proof/Machine/Control.lean ====
section
/-! DEFINITION. BR, JMP, JSR and JSRR (spec/41_control.md R140 to R146).  `pc` is already the address of the instruction
plus 1 (R24). -/

namespace Sys2Proof.Machine

/-- `x[7] <- pc`: the link that JSR, JSRR and TRAP write; the flags stay (R29, R145). -/
def State.link (s : State) : State := s.setReg .r7 s.pc

/-- BR (R140). -/
def execBr (flags : BitVec 3) (offset9 : BitVec 9) (s : State) : Host.Outcome State Fault Refusal :=
  .next (bif branchTaken flags s.cond then s.setPc (s.pcRelative offset9) else s)

/-- JMP (R142). -/
def execJmp (baseR : Reg) (s : State) : Host.Outcome State Fault Refusal :=
  .next (s.setPc (s.reg baseR))

/-- JSR (R143). -/
def execJsr (offset11 : BitVec 11) (s : State) : Host.Outcome State Fault Refusal :=
  .next (s.link.setPc (s.pc + sext11 offset11))

/-- JSRR (R144): R7 is written first and BaseR is read second, so `JSRR R7` falls through (decision D8 of the spec;
notes/assumptions/10.md). -/
def execJsrr (baseR : Reg) (s : State) : Host.Outcome State Fault Refusal :=
  .next (s.link.setPc (s.link.reg baseR))

end Sys2Proof.Machine
end

