-- ==== Sys2Proof/Machine/Load.lean ====
section
/-! DEFINITION. LD, LDI, LDR and LEA (spec/42_load.md R150 to R154). -/

namespace Sys2Proof.Machine

/-- The end of LD, LDR and LDI: the word that was read goes to DR and sets the flags; if the read fails, DR and `cond`
are not written (R150 to R152). -/
def loadFrom (dr : Reg) (r : ReadResult × State) : State :=
  finishRead (.load dr) (fun v t => t.setRegCc dr v) r

/-- The part of LDI that follows its first read: the word is the address of the second read (R151). -/
def loadThrough (dr : Reg) (r : ReadResult × State) : State :=
  finishRead (.loadPointer dr) (fun a t => loadFrom dr (memRead a t)) r

/-- LD (R150). -/
def execLd (dr : Reg) (offset9 : BitVec 9) (s : State) : Host.Outcome State Fault Refusal :=
  .next (loadFrom dr (memRead (s.pcRelative offset9) s))

/-- LDI (R151). -/
def execLdi (dr : Reg) (offset9 : BitVec 9) (s : State) : Host.Outcome State Fault Refusal :=
  .next (loadThrough dr (memRead (s.pcRelative offset9) s))

/-- LDR (R152). -/
def execLdr (dr baseR : Reg) (offset6 : BitVec 6) (s : State) : Host.Outcome State Fault Refusal :=
  .next (loadFrom dr (memRead (s.basePlus baseR offset6) s))

/-- LEA, which reads no memory and sets the flags (R153). -/
def execLea (dr : Reg) (offset9 : BitVec 9) (s : State) : Host.Outcome State Fault Refusal :=
  .next (s.setRegCc dr (s.pcRelative offset9))

end Sys2Proof.Machine
end

