-- ==== Sys2Proof/Machine/Operate.lean ====
section
/-! DEFINITION. ADD, AND and NOT (spec/40_operate.md R130 to R133). -/

namespace Sys2Proof.Machine

/-- ADD, register form (R131). -/
def execAddReg (dr sr1 sr2 : Reg) (s : State) : Host.Outcome State Fault Refusal :=
  .next (s.setRegCc dr (s.reg sr1 + s.reg sr2))

/-- ADD, immediate form (R131). -/
def execAddImm (dr sr1 : Reg) (imm5 : BitVec 5) (s : State) : Host.Outcome State Fault Refusal :=
  .next (s.setRegCc dr (s.reg sr1 + sext5 imm5))

/-- AND, register form (R132). -/
def execAndReg (dr sr1 sr2 : Reg) (s : State) : Host.Outcome State Fault Refusal :=
  .next (s.setRegCc dr (s.reg sr1 &&& s.reg sr2))

/-- AND, immediate form, the immediate sign-extended (R112, R132). -/
def execAndImm (dr sr1 : Reg) (imm5 : BitVec 5) (s : State) : Host.Outcome State Fault Refusal :=
  .next (s.setRegCc dr (s.reg sr1 &&& sext5 imm5))

/-- NOT (R133). -/
def execNot (dr sr : Reg) (s : State) : Host.Outcome State Fault Refusal :=
  .next (s.setRegCc dr (~~~ s.reg sr))

end Sys2Proof.Machine
end

