-- ==== Sys2Proof/Machine/Store.lean ====
section
/-! DEFINITION. ST, STI and STR (spec/43_store.md R160 to R163). -/

namespace Sys2Proof.Machine

/-- The part of STI that follows its pointer read: SR is stored at the address that was read; if the read fails,
nothing is stored (R161). -/
def storeThrough (sr : Reg) (r : ReadResult × State) : State :=
  finishRead (.storePointer sr) (fun a t => memWrite a (t.reg sr) t) r

/-- ST (R160). -/
def execSt (sr : Reg) (offset9 : BitVec 9) (s : State) : Host.Outcome State Fault Refusal :=
  .next (memWrite (s.pcRelative offset9) (s.reg sr) s)

/-- STI (R161). -/
def execSti (sr : Reg) (offset9 : BitVec 9) (s : State) : Host.Outcome State Fault Refusal :=
  .next (storeThrough sr (memRead (s.pcRelative offset9) s))

/-- STR (R162). -/
def execStr (sr baseR : Reg) (offset6 : BitVec 6) (s : State) : Host.Outcome State Fault Refusal :=
  .next (memWrite (s.basePlus baseR offset6) (s.reg sr) s)

end Sys2Proof.Machine
end

