-- ==== Sys2Proof/Machine/Trap.lean ====
section
/-! DEFINITION. TRAP and its six services (spec/44_trap.md R170 to R178).  The executor performs the whole service; R7 is
written before the vector is examined (R170). -/

namespace Sys2Proof.Machine

/-- The end of GETC: the key goes to R0 and sets the flags (R171). -/
def getcFrom (r : KeyAnswer × State) : State :=
  finishKey .getcKey (fun k t => t.setRegCc .r0 (zext8 k)) r

/-- The part of IN that follows its prompt: the key is echoed, and then goes to R0 and sets the flags (R174). -/
def inFrom (r : KeyAnswer × State) : State :=
  finishKey .inKey (fun k t => finishWrite (fun u => u.setRegCc .r0 (zext8 k)) (writeByte k t)) r

/-- One turn of the loop of PUTS and PUTSP: the word read at `a` ends the string if it is 0x0000; otherwise its bytes are
written and `rest` goes on at `a + 1`, modulo 65,536 (R173, R175). -/
def stringTurn (service : StringService) (a : Word) (rest : Word → State → State) (r : ReadResult × State) : State :=
  finishRead (.stringWord service a)
    (fun w t => if w = 0x0000 then t else finishWrite (rest (a + 1)) (writeBytes (service.bytes w) t)) r

/-- The loop of PUTS and PUTSP from the read at `a`, for this word and at most `turns` more; a string that is longer
goes on in the next step of the model, from `pending` (notes/assumptions/8.md). -/
def stringLoop (service : StringService) : Nat → Word → ReadResult × State → State
  | 0, a, r => stringTurn service a (fun b t => t.park (.stringAt service b)) r
  | n + 1, a, r => stringTurn service a (fun b t => stringLoop service n b (memRead b t)) r

/-- The turns that one step makes after its first word: with it, one lap of the address space. -/
def stringTurns : Nat := 65535

/-- The loop of PUTS and PUTSP from an address. -/
def stringFrom (service : StringService) (a : Word) (s : State) : State :=
  stringLoop service stringTurns a (memRead a s)

/-- GETC (R170, R171). -/
def execTrapGetc (s : State) : Host.Outcome State Fault Refusal :=
  .next (getcFrom (readKey s.link))

/-- OUT (R170, R172). -/
def execTrapOut (s : State) : Host.Outcome State Fault Refusal :=
  .next (finishWrite id (writeByte (lowByte (s.link.reg .r0)) s.link))

/-- PUTS (R170, R173). -/
def execTrapPuts (s : State) : Host.Outcome State Fault Refusal :=
  .next (stringFrom .puts (s.link.reg .r0) s.link)

/-- IN (R170, R174). -/
def execTrapIn (s : State) : Host.Outcome State Fault Refusal :=
  .next (finishWrite (fun t => inFrom (readKey t)) (writeBytes promptBytes s.link))

/-- PUTSP (R170, R175). -/
def execTrapPutsp (s : State) : Host.Outcome State Fault Refusal :=
  .next (stringFrom .putsp (s.link.reg .r0) s.link)

/-- HALT: the text is written first and the run state changes second (R170, R176, R204). -/
def execTrapHalt (s : State) : Host.Outcome State Fault Refusal :=
  .next (finishWrite (fun t => t.setRun .halted) (writeBytes haltBytes s.link))

/-- A vector without a service: R7 is written and UnknownTrap is raised (R170, R177, R221). -/
def execTrapUnknown (vector8 : BitVec 8) (s : State) : Host.Outcome State Fault Refusal :=
  .next (s.link.raise (.unknownTrap vector8))

end Sys2Proof.Machine
end

