-- ==== Sys2Proof/Machine/Unsupported.lean ====
section
/-! DEFINITION. RTI and RES (spec/45_unsupported.md R190 to R192): each raises UnsupportedOpcode, and the pc increment of
the fetch is the only other change.  The payload is the opcode number, a diagnostic (R191, R224). -/

namespace Sys2Proof.Machine

/-- RTI (R190, R220). -/
def execRti (s : State) : Host.Outcome State Fault Refusal :=
  .next (s.raise (.unsupportedOpcode (opcodeNumber s.params.opcodeMap .rti)))

/-- RES (R191, R220). -/
def execRes (s : State) : Host.Outcome State Fault Refusal :=
  .next (s.raise (.unsupportedOpcode (opcodeNumber s.params.opcodeMap .res)))

end Sys2Proof.Machine
end

