-- ==== Sys2Proof/Machine/Fetch.lean ====
section
/-! DEFINITION. Fetching an instruction, and going on with one that waits (spec/50_execution_loop.md R201, R207;
spec/21_console.md R83).  `execute` is the meaning of an instruction, `exec` of Dispatch.lean. -/

namespace Sys2Proof.Machine

/-- `ir <- MemRead(pc, 1)` (R57, R201). -/
def fetch (s : State) : ReadResult × State := memRead s.pc s

/-- The instruction that a word is on this machine, under its OPCODE_MAP (R12, R122). -/
def State.decodes (s : State) (ir : Word) : Instr := decodeWith s.params.opcodeMap ir

/-- After the fetch: the increment, modulo 65,536, and then the instruction; a fetch that waits or fails has made no
increment (R26, R201). -/
def afterFetch (execute : Instr → State → Host.Outcome State Fault Refusal) :
    ReadResult × State → Host.Outcome State Fault Refusal
  | (.value ir, s) => execute (s.decodes ir) (s.setPc (s.pc + 1))
  | (.waits, s) => .next (s.park (.statusKey .fetch))
  | (.fails, s) => .next (s.raise .ioFailure)

/-- Goes on with an instruction, or a fetch, that waits in `ReadKey()` or stands inside a string (R83, R207, R208): the
call is made again, and if it still waits the state stays as it is but for the console's answer. -/
def resume (execute : Instr → State → Host.Outcome State Fault Refusal) (p : Pending) (s : State) :
    Host.Outcome State Fault Refusal :=
  match p with
  | .getcKey => .next (getcFrom (readKey s))
  | .inKey => .next (inFrom (readKey s))
  | .statusKey .fetch => afterFetch execute (takeStatusKey s)
  | .statusKey (.load dr) => .next (loadFrom dr (takeStatusKey s))
  | .statusKey (.loadPointer dr) => .next (loadThrough dr (takeStatusKey s))
  | .statusKey (.storePointer sr) => .next (storeThrough sr (takeStatusKey s))
  | .statusKey (.stringWord service a) => .next (stringLoop service stringTurns a (takeStatusKey s))
  | .stringAt service a => .next (stringFrom service a s)

end Sys2Proof.Machine
end

