-- ==== Sys2Proof/Machine/Step.lean ====
section
/-! DEFINITION. The step (spec/50_execution_loop.md R200 to R206) and the placing of one instruction word. -/

namespace Sys2Proof.Machine

/-- One step.  From NotStarted it is the `run()` invocation (R203; notes/assumptions/11.md); while Running it is one whole
instruction (R200, R201), or the going on with one that waits (R83); from Halted and from Faulted there is none
(R205). -/
def step (s : State) : Host.Outcome State Fault Refusal :=
  match s.run with
  | .notStarted => .next s.start
  | .halted => .refused .halted
  | .faulted c => .fault c
  | .running =>
    match s.pending with
    | none => afterFetch exec (fetch s)
    | some p => resume exec p (s.setPending none)

/-- `s` with one instruction word stored where the next step fetches it, `run()` invoked and no instruction in progress,
so that the very next step runs that instruction.  It stands for the loader (R252) and `run()` (R203); see
notes/assumptions/11.md. -/
def State.withFetchWord (s : State) (nbits w : Nat) : State :=
  ((s.putWord s.pc (BitVec.ofNat 16 (w % 2 ^ nbits))).setPending none).start

end Sys2Proof.Machine
end

