-- ==== Sys2Proof/Machine/Boot.lean ====
section
/-! DEFINITION. What the loader leaves in memory before the run (spec/70_reset_and_hazards.md R251 to R254).  The loader
itself is out of scope (spec/00_scope.md R10); only its effect, INIT_MEM, is kept. -/

namespace Sys2Proof.Machine

/-- `mem[(origin + i) mod 65536] <- words[i]`, in order (R252, R253): plain storage, with the wrap, and nothing else. -/
def loadImage (origin : Word) : List Word → State → State
  | [], s => s
  | w :: ws, s => loadImage (origin + 1) ws (s.putWord origin w)

end Sys2Proof.Machine
end

