-- ==== Sys2Proof/Safety.lean ====
section
/-! DEFINITION. How a run can end, what a safe state is, and the invariant of the machine (spec/50_execution_loop.md
R203 to R206; spec/60_exceptions.md R224). -/

namespace Sys2Proof.Safety

open Sys2Proof.Machine

/-- A run has ended exactly when `run` is Halted or Faulted (R205). -/
def Ended (s : State) : Prop := s.run = .halted ∨ ∃ c, s.run = .faulted c

/-- A safe state: no fatal condition has been raised. -/
def Safe (s : State) : Prop := ∀ c, s.run ≠ .faulted c

/-- The invariant of the machine: memory has its canonical form, an instruction is in progress only while the machine runs
(R83: a waiting call leaves `run` Running), and OPCODE_MAP gives each opcode one number (R115). -/
structure Inv (s : State) : Prop where
  mem : s.mem.wf = true
  pending : s.pending ≠ none → s.run = .running
  opcodeMap : s.params.opcodeMap.wf = true

/-- The states that steps lead to from `s`. -/
inductive Reaches (s : State) : State → Prop where
  | refl : Reaches s s
  | step {t u : State} : Reaches s t → Machine.step t = .next u → Reaches s u

end Sys2Proof.Safety
end

