-- ==== Sys2Proof/Certificates/Slice0/Obligations.lean ====
section
/-! DEFINITION. The statements for the provers.  Each docstring says which rule of spec/ it formalises.  A statement about
every state holds for every console, since the console's answers are data of the state.  Memory statements have the
premise that memory has its canonical form, which every step keeps (`Obligations.StepKeepsInv`). -/

namespace Sys2Proof.Statements

open Sys2Proof.Machine

/-- The flag of a value, as R28 writes it: ZRO, NEG or POS. -/
def flagOf (v : Word) : Cond :=
  if v = 0x0000 then .zro else if v.getLsbD 15 = true then .neg else .pos

/-- The bits of a word that no layout names, as R114 lists them by opcode. -/
def ignoredBits (w : Word) : Word :=
  let op := w.extractLsb' 12 4
  if op = 0x1 ∨ op = 0x5 then (if w.getLsbD 5 = true then 0x0000 else 0x0018)
  else if op = 0x9 then 0x003F
  else if op = 0xC then 0x0E3F
  else if op = 0x4 then (if w.getLsbD 11 = true then 0x0000 else 0x063F)
  else if op = 0xF then 0x0F00
  else if op = 0x8 ∨ op = 0xD then 0x0FFF
  else 0x0000

/-- The general registers an instruction may write (R22). -/
def regsWritten : Instr → List Reg
  | .addReg dr _ _ | .addImm dr _ _ | .andReg dr _ _ | .andImm dr _ _ | .not dr _ => [dr]
  | .ld dr _ | .ldi dr _ | .ldr dr _ _ | .lea dr _ => [dr]
  | .jsr _ | .jsrr _ => [.r7]
  | .trapGetc | .trapIn => [.r7, .r0]
  | .trapOut | .trapPuts | .trapPutsp | .trapHalt | .trapUnknown _ => [.r7]
  | .br _ _ | .jmp _ | .st _ _ | .sti _ _ | .str _ _ _ | .rti | .res => []

/-- The register that an instruction's `setcc` reads, for the instructions that end with one (R29). -/
def flagRegister : Instr → Option Reg
  | .addReg dr _ _ | .addImm dr _ _ | .andReg dr _ _ | .andImm dr _ _ | .not dr _ => some dr
  | .ld dr _ | .ldi dr _ | .ldr dr _ _ | .lea dr _ => some dr
  | .trapGetc | .trapIn => some .r0
  | .br _ _ | .jmp _ | .jsr _ | .jsrr _ | .st _ _ | .sti _ _ | .str _ _ _ | .rti | .res => none
  | .trapOut | .trapPuts | .trapPutsp | .trapHalt | .trapUnknown _ => none

/-- What `pc` is after an instruction, from the incremented `pc` before it (R25). -/
def pcAfter (i : Instr) (s : State) : Word :=
  match i with
  | .br flags offset9 => if flags &&& s.cond.bits ≠ 0 then s.pc + sext9 offset9 else s.pc
  | .jmp baseR => s.reg baseR
  | .jsr offset11 => s.pc + sext11 offset11
  | .jsrr baseR => if baseR = .r7 then s.pc else s.reg baseR
  | _ => s.pc

/-- The address that an instruction stores to, if it stores (R51): the same expressions as in R160 to R162, the pointer of
STI being the word that its read gives. -/
def storeAddress (i : Instr) (s : State) : Option Word :=
  match i with
  | .st _ offset9 => some (s.pcRelative offset9)
  | .str _ baseR offset6 => some (s.basePlus baseR offset6)
  | .sti _ offset9 =>
    match (memRead (s.pcRelative offset9) s).1 with
    | .value a => some a
    | _ => none
  | _ => none

/-- Whether an instruction may read the keyboard status word (R51): LD, LDR, LDI and STI by the addresses they read; PUTS
and PUTSP are counted as readers whatever their string. -/
def mayReadStatus (i : Instr) (s : State) : Bool :=
  match i with
  | .ld _ offset9 | .sti _ offset9 => s.pcRelative offset9 == Config.kbsr
  | .ldr _ baseR offset6 => s.basePlus baseR offset6 == Config.kbsr
  | .ldi _ offset9 => s.pcRelative offset9 == Config.kbsr || s.word (s.pcRelative offset9) == Config.kbsr
  | .trapPuts | .trapPutsp => true
  | _ => false

/-- The services that call the console themselves (R178). -/
def callsConsole : Instr → Bool
  | .trapGetc | .trapOut | .trapPuts | .trapIn | .trapPutsp | .trapHalt => true
  | _ => false

/-- The instructions that raise a fatal condition whatever the state (R177, R190, R191). -/
def raisesAlways : Instr → Bool
  | .rti | .res | .trapUnknown _ => true
  | _ => false

/-- The TRAP instructions (R170). -/
def isTrap : Instr → Bool
  | .trapGetc | .trapOut | .trapPuts | .trapIn | .trapPutsp | .trapHalt | .trapUnknown _ => true
  | _ => false

/-- The step from `s` executes the word `ir`, which its fetch read, leaving the state `u`: at once, or after the fetch had
waited in `ReadKey()` (R201, R83). -/
def Executes (s : State) (ir : Word) (u : State) : Prop :=
  (s.pending = none ∧ memRead s.pc s = (.value ir, u)) ∨
  (s.pending = some (.statusKey .fetch) ∧ takeStatusKey (s.setPending none) = (.value ir, u))

/-- The same state with another output log. -/
def withOut (s : State) (out : List Byte) : State := { s with console := { s.console with out := out } }

/-- The same state with another list of answers to `ReadKey()`. -/
def withKeys (s : State) (keys : List KeyAnswer) : State := { s with console := { s.console with keys := keys } }

/-- The words at `a`, `a + 1`, and so on, `n` of them, none of them 0x0000 and none at the keyboard status word; then the
terminator, a word 0x0000 that is not at the keyboard status word either. -/
def StringAt (s : State) : Word → List Word → Prop
  | a, [] => a ≠ Config.kbsr ∧ s.word a = 0x0000
  | a, w :: ws => a ≠ Config.kbsr ∧ s.word a = w ∧ w ≠ 0x0000 ∧ StringAt s (a + 1) ws

/-- The loop of PUTS and PUTSP as their pseudocode has it (R173, R175), from address `a` and state `s` to the state in
which it ends, waits or fails, with the number of words that were written whole. -/
inductive StringRun (service : StringService) : Nat → Word → State → State → Prop where
  | terminator {a : Word} {s t : State} : memRead a s = (.value 0x0000, t) → StringRun service 0 a s t
  | word {n : Nat} {a w : Word} {s t u v : State} : memRead a s = (.value w, t) → w ≠ 0x0000 →
      writeBytes (service.bytes w) t = (.done, u) → StringRun service n (a + 1) u v → StringRun service (n + 1) a s v
  | readWaits {a : Word} {s t : State} : memRead a s = (.waits, t) →
      StringRun service 0 a s { t with pending := some (.statusKey (.stringWord service a)) }
  | readFails {a : Word} {s t : State} : memRead a s = (.fails, t) →
      StringRun service 0 a s { t with run := .faulted .ioFailure }
  | writeFails {a w : Word} {s t u : State} : memRead a s = (.value w, t) → w ≠ 0x0000 →
      writeBytes (service.bytes w) t = (.fails, u) → StringRun service 0 a s { u with run := .faulted .ioFailure }

/-- The same loop over `n` words that are all written whole, from address `a` and state `s` to the next address and the state
there. -/
inductive StringWords (service : StringService) : Nat → Word → State → Word → State → Prop where
  | none {a : Word} {s : State} : StringWords service 0 a s a s
  | word {n : Nat} {a b w : Word} {s t u v : State} : memRead a s = (.value w, t) → w ≠ 0x0000 →
      writeBytes (service.bytes w) t = (.done, u) → StringWords service n (a + 1) u b v →
      StringWords service (n + 1) a s b v

end Sys2Proof.Statements

open Sys2Proof Sys2Proof.Machine Sys2Proof.Safety Sys2Proof.Statements

/-! ## Encoding -/

/-- Decoding what the encoder writes gives the instruction back, for every well-formed instruction and every value of its
fields, under every legal value of the open parameter OPCODE_MAP (30_encoding.md R101 to R111, R115; 00_scope.md R12). -/
def Obligations.DecodeOfEncodeIsIdentity : Prop :=
  ∀ (m : OpcodeMap) (i : Instr), m.wf = true → i.wellFormed = true → decodeWith m (encodeWith m i) = i

/-- Bits that no layout names do not change the decoding, with the two examples of R114 (30_encoding.md section 2; that they
are ignored is the spec's decision D3), under the default of OPCODE_MAP. -/
def Obligations.DecodeIgnoresUnnamedBits : Prop :=
  (∀ w v : Word, v &&& ~~~ ignoredBits w = w &&& ~~~ ignoredBits w → decode v = decode w) ∧
  decode 0xC0C0 = .jmp .r3 ∧ decode 0xCEFF = .jmp .r3 ∧
  decode 0xF025 = .trapHalt ∧ decode 0xFF25 = .trapHalt

/-- Encoding what was decoded gives every named bit of the word back, so the decoder drops none of them (30_encoding.md R101
to R114), and what was decoded is well-formed; under the default of OPCODE_MAP. -/
def Obligations.EncodeOfDecodeKeepsNamedBits : Prop :=
  ∀ w : Word, (decode w).wellFormed = true ∧
    encode (decode w) &&& ~~~ ignoredBits w = w &&& ~~~ ignoredBits w

/-- Every word matches the row of spec/opcode_table.json of the instruction it decodes to, and any other row that it matches
has a lower priority (30_encoding.md R118, R122, both derived by the spec from R113 to R117). -/
def Obligations.DecodeFollowsTheTable : Prop :=
  opcodeTable.length = 25 ∧ opcodeTable.Nodup ∧
  ∀ w : Word, (decode w).row ∈ opcodeTable ∧ (decode w).row.matchesWord w = true ∧
    ∀ r ∈ opcodeTable, r.matchesWord w = true → r ≠ (decode w).row → r.priority < (decode w).row.priority

/-- Words written out in 95_test_vectors.md, each decoding to the instruction it stands for. -/
def Obligations.DecodeOfWrittenWords : Prop :=
  decode 0x03FD = .br 0b001 0b111111101 ∧
  decode 0x1440 = .addReg .r2 .r1 .r0 ∧
  decode 0x127F = .addImm .r1 .r1 0b11111 ∧
  decode 0x2205 = .ld .r1 5 ∧
  decode 0x3401 = .st .r2 1 ∧
  decode 0x4803 = .jsr 3 ∧
  decode 0x7705 = .str .r3 .r4 5 ∧
  decode 0x927F = .not .r1 .r1 ∧
  decode 0xC1C0 = .jmp .r7 ∧
  decode 0x8FFF = .rti ∧
  decode 0xF022 = .trapPuts ∧
  decode 0xF026 = .trapUnknown 0x26

/-! ## Helpers of the instructions -/

/-- R15, sign extension for the four widths and zero extension of the console byte, with the source's examples. -/
def Obligations.SignAndZeroExtension : Prop :=
  (∀ v : BitVec 5, sext5 v = if v.getLsbD 4 = true then v.zeroExtend 16 ||| (0xFFFF <<< 5) else v.zeroExtend 16) ∧
  (∀ v : BitVec 6, sext6 v = if v.getLsbD 5 = true then v.zeroExtend 16 ||| (0xFFFF <<< 6) else v.zeroExtend 16) ∧
  (∀ v : BitVec 9, sext9 v = if v.getLsbD 8 = true then v.zeroExtend 16 ||| (0xFFFF <<< 9) else v.zeroExtend 16) ∧
  (∀ v : BitVec 11, sext11 v = if v.getLsbD 10 = true then v.zeroExtend 16 ||| (0xFFFF <<< 11) else v.zeroExtend 16) ∧
  (∀ k : Byte, (zext8 k).toNat = k.toNat) ∧
  sext5 0b10000 = 0xFFF0 ∧ sext5 0b01111 = 0x000F

/-- R28, `setcc(i)`: from the current value of Ri, ZRO (2) if it is 0, NEG (4) if its bit 15 is set, POS (1) otherwise; nothing
else changes. -/
def Obligations.FlagUpdateRule : Prop :=
  Cond.bits .zro = 2 ∧ Cond.bits .neg = 4 ∧ Cond.bits .pos = 1 ∧
  ∀ (s : State) (i : Reg),
    s.setcc i = { s with cond := if s.reg i = 0x0000 then .zro else if (s.reg i).getLsbD 15 = true then .neg else .pos }

/-! ## Operate instructions -/

/-- ADD, both forms: its encoding, its result and its flags, and that nothing else changes (40_operate.md section 2, R131; the
opcode number and the mode bit are the spec's decisions D1 and D2). -/
def Obligations.AddMeaning : Prop :=
  (∀ w : Word, w.extractLsb' 12 4 = 0x1 → w.getLsbD 5 = false →
    decode w = .addReg (Reg.ofBits (w.extractLsb' 9 3)) (Reg.ofBits (w.extractLsb' 6 3)) (Reg.ofBits (w.extractLsb' 0 3))) ∧
  (∀ w : Word, w.extractLsb' 12 4 = 0x1 → w.getLsbD 5 = true →
    decode w = .addImm (Reg.ofBits (w.extractLsb' 9 3)) (Reg.ofBits (w.extractLsb' 6 3)) (w.extractLsb' 0 5)) ∧
  (∀ (dr sr1 sr2 : Reg) (s : State), exec (.addReg dr sr1 sr2) s =
    .next { s with regs := s.regs.set dr (s.reg sr1 + s.reg sr2), cond := flagOf (s.reg sr1 + s.reg sr2) }) ∧
  (∀ (dr sr1 : Reg) (imm5 : BitVec 5) (s : State), exec (.addImm dr sr1 imm5) s =
    .next { s with regs := s.regs.set dr (s.reg sr1 + sext5 imm5), cond := flagOf (s.reg sr1 + sext5 imm5) })

/-- AND, both forms: its encoding, its result and its flags, and that nothing else changes (40_operate.md section 3, R132; the
opcode number, the mode bit and the sign extension of imm5 are the spec's decisions D1, D2 and D7). -/
def Obligations.AndMeaning : Prop :=
  (∀ w : Word, w.extractLsb' 12 4 = 0x5 → w.getLsbD 5 = false →
    decode w = .andReg (Reg.ofBits (w.extractLsb' 9 3)) (Reg.ofBits (w.extractLsb' 6 3)) (Reg.ofBits (w.extractLsb' 0 3))) ∧
  (∀ w : Word, w.extractLsb' 12 4 = 0x5 → w.getLsbD 5 = true →
    decode w = .andImm (Reg.ofBits (w.extractLsb' 9 3)) (Reg.ofBits (w.extractLsb' 6 3)) (w.extractLsb' 0 5)) ∧
  (∀ (dr sr1 sr2 : Reg) (s : State), exec (.andReg dr sr1 sr2) s =
    .next { s with regs := s.regs.set dr (s.reg sr1 &&& s.reg sr2), cond := flagOf (s.reg sr1 &&& s.reg sr2) }) ∧
  (∀ (dr sr1 : Reg) (imm5 : BitVec 5) (s : State), exec (.andImm dr sr1 imm5) s =
    .next { s with regs := s.regs.set dr (s.reg sr1 &&& sext5 imm5), cond := flagOf (s.reg sr1 &&& sext5 imm5) })

/-- NOT: its encoding, its result (0xFFFF less the source) and its flags, and that nothing else changes (40_operate.md section
4, R133; the opcode number is the spec's decision D1). -/
def Obligations.NotMeaning : Prop :=
  (∀ w : Word, w.extractLsb' 12 4 = 0x9 →
    decode w = .not (Reg.ofBits (w.extractLsb' 9 3)) (Reg.ofBits (w.extractLsb' 6 3))) ∧
  (∀ (dr sr : Reg) (s : State), exec (.not dr sr) s =
    .next { s with regs := s.regs.set dr (0xFFFF - s.reg sr), cond := flagOf (0xFFFF - s.reg sr) })

/-! ## Control transfer -/

/-- BR: its encoding; the pc when taken and when not; and that nothing else changes (41_control.md section 1, R140; the opcode
number is the spec's decision D1). -/
def Obligations.BrMeaning : Prop :=
  (∀ w : Word, w.extractLsb' 12 4 = 0x0 → decode w = .br (w.extractLsb' 9 3) (w.extractLsb' 0 9)) ∧
  (∀ (flags : BitVec 3) (offset9 : BitVec 9) (s : State),
    (flags &&& s.cond.bits ≠ 0 → exec (.br flags offset9) s = .next { s with pc := s.pc + sext9 offset9 }) ∧
    (flags &&& s.cond.bits = 0 → exec (.br flags offset9) s = .next s)) ∧
  (∀ (s : State) (flags : BitVec 3), flags &&& s.cond.bits ≠ 0 ↔
    (flags.getLsbD 2 = true ∧ s.cond = .neg) ∨ (flags.getLsbD 1 = true ∧ s.cond = .zro) ∨
    (flags.getLsbD 0 = true ∧ s.cond = .pos))

/-- JMP: its encoding and the pc, and that nothing else changes (41_control.md section 2, R142; the opcode number is the spec's
decision D1). -/
def Obligations.JmpMeaning : Prop :=
  (∀ w : Word, w.extractLsb' 12 4 = 0xC → decode w = .jmp (Reg.ofBits (w.extractLsb' 6 3))) ∧
  (∀ (baseR : Reg) (s : State), exec (.jmp baseR) s = .next { s with pc := s.reg baseR })

/-- JSR: its encoding, R7 and the pc, and that nothing else changes (41_control.md section 3, R143; the opcode number is the
spec's decision D1). -/
def Obligations.JsrMeaning : Prop :=
  (∀ w : Word, w.extractLsb' 12 4 = 0x4 → w.getLsbD 11 = true → decode w = .jsr (w.extractLsb' 0 11)) ∧
  (∀ (offset11 : BitVec 11) (s : State), exec (.jsr offset11) s =
    .next { s with regs := s.regs.set .r7 s.pc, pc := s.pc + sext11 offset11 })

/-- JSRR: its encoding, R7 and the pc, and that nothing else changes; with BaseR = R7 it falls through, since R7 is written
first (41_control.md section 4, R144; that order is the spec's decision D8 and the opcode number its decision D1). -/
def Obligations.JsrrMeaning : Prop :=
  (∀ w : Word, w.extractLsb' 12 4 = 0x4 → w.getLsbD 11 = false → decode w = .jsrr (Reg.ofBits (w.extractLsb' 6 3))) ∧
  (∀ (baseR : Reg) (s : State), baseR ≠ .r7 → exec (.jsrr baseR) s =
    .next { s with regs := s.regs.set .r7 s.pc, pc := s.reg baseR }) ∧
  (∀ s : State, exec (.jsrr .r7) s = .next { s with regs := s.regs.set .r7 s.pc })

/-! ## Loads and stores -/

/-- LD: its encoding, and its whole effect from what `MemRead` answers: DR and the flags; or, if the console fails, IoFailure
and neither (42_load.md section 1, R150; the opcode number is D1, the wait inside `ReadKey()` is D24 and D27; that the wait is a next
state which holds it in `pending` is the model's form, notes/assumptions/8.md). -/
def Obligations.LdMeaning : Prop :=
  (∀ w : Word, w.extractLsb' 12 4 = 0x2 → decode w = .ld (Reg.ofBits (w.extractLsb' 9 3)) (w.extractLsb' 0 9)) ∧
  (∀ (dr : Reg) (offset9 : BitVec 9) (s : State), exec (.ld dr offset9) s =
    match memRead (s.pc + sext9 offset9) s with
    | (.value v, t) => .next { t with regs := s.regs.set dr v, cond := flagOf v }
    | (.waits, t) => .next { t with pending := some (.statusKey (.load dr)) }
    | (.fails, t) => .next { t with run := .faulted .ioFailure })

/-- LDI: its encoding, and its two reads in order; DR and the flags are written only when both succeed; either read may wait inside
`ReadKey()` (42_load.md section 2, R151; the opcode number and the sign extension are D1 and D7, the waits D24 and D27; that a wait is
a next state which holds it in `pending` is the model's form, notes/assumptions/8.md). -/
def Obligations.LdiMeaning : Prop :=
  (∀ w : Word, w.extractLsb' 12 4 = 0xA → decode w = .ldi (Reg.ofBits (w.extractLsb' 9 3)) (w.extractLsb' 0 9)) ∧
  (∀ (dr : Reg) (offset9 : BitVec 9) (s : State), exec (.ldi dr offset9) s =
    match memRead (s.pc + sext9 offset9) s with
    | (.value a, t) =>
      (match memRead a t with
      | (.value v, u) => .next { u with regs := s.regs.set dr v, cond := flagOf v }
      | (.waits, u) => .next { u with pending := some (.statusKey (.load dr)) }
      | (.fails, u) => .next { u with run := .faulted .ioFailure })
    | (.waits, t) => .next { t with pending := some (.statusKey (.loadPointer dr)) }
    | (.fails, t) => .next { t with run := .faulted .ioFailure })

/-- LDR: its encoding, and its whole effect from what `MemRead` answers, the wait inside `ReadKey()` included (42_load.md section 3,
R152; the opcode number is D1, the wait D24 and D27; that the wait is a next state which holds it in `pending` is the model's form,
notes/assumptions/8.md). -/
def Obligations.LdrMeaning : Prop :=
  (∀ w : Word, w.extractLsb' 12 4 = 0x6 →
    decode w = .ldr (Reg.ofBits (w.extractLsb' 9 3)) (Reg.ofBits (w.extractLsb' 6 3)) (w.extractLsb' 0 6)) ∧
  (∀ (dr baseR : Reg) (offset6 : BitVec 6) (s : State), exec (.ldr dr baseR offset6) s =
    match memRead (s.reg baseR + sext6 offset6) s with
    | (.value v, t) => .next { t with regs := s.regs.set dr v, cond := flagOf v }
    | (.waits, t) => .next { t with pending := some (.statusKey (.load dr)) }
    | (.fails, t) => .next { t with run := .faulted .ioFailure })

/-- LEA: its encoding, its result and its flags, and that nothing else changes: no memory is read (42_load.md section 4, R153; the
opcode number is D1). -/
def Obligations.LeaMeaning : Prop :=
  (∀ w : Word, w.extractLsb' 12 4 = 0xE → decode w = .lea (Reg.ofBits (w.extractLsb' 9 3)) (w.extractLsb' 0 9)) ∧
  (∀ (dr : Reg) (offset9 : BitVec 9) (s : State), exec (.lea dr offset9) s =
    .next { s with regs := s.regs.set dr (s.pc + sext9 offset9), cond := flagOf (s.pc + sext9 offset9) })

/-- ST: its encoding; it stores x[SR] at pc + sext_9(offset9) at every address, and nothing else changes (43_store.md section 1,
R160; the opcode number and the sign extension are D1 and D7). -/
def Obligations.StMeaning : Prop :=
  (∀ w : Word, w.extractLsb' 12 4 = 0x3 → decode w = .st (Reg.ofBits (w.extractLsb' 9 3)) (w.extractLsb' 0 9)) ∧
  (∀ (sr : Reg) (offset9 : BitVec 9) (s : State), s.mem.wf = true → ∃ t, exec (.st sr offset9) s = .next t ∧
    { t with mem := s.mem } = s ∧
    ∀ a, t.word a = if a = s.pc + sext9 offset9 then s.reg sr else s.word a)

/-- STI: its encoding; the pointer is read first and x[SR] is stored second; a failed read stores nothing, nor does one that waits
inside `ReadKey()` (43_store.md section 2, R161; the opcode number and the sign extension are D1 and D7, the wait D24 and D27; that the
wait is a next state which holds it in `pending` is the model's form, notes/assumptions/8.md). -/
def Obligations.StiMeaning : Prop :=
  (∀ w : Word, w.extractLsb' 12 4 = 0xB → decode w = .sti (Reg.ofBits (w.extractLsb' 9 3)) (w.extractLsb' 0 9)) ∧
  (∀ (sr : Reg) (offset9 : BitVec 9) (s : State), exec (.sti sr offset9) s =
    match memRead (s.pc + sext9 offset9) s with
    | (.value a, t) => .next { t with mem := t.mem.write a.toNat (s.reg sr) }
    | (.waits, t) => .next { t with pending := some (.statusKey (.storePointer sr)) }
    | (.fails, t) => .next { t with run := .faulted .ioFailure })

/-- STR: its encoding; it stores x[SR] at x[BaseR] + sext_6(offset6) at every address, and nothing else changes (43_store.md
section 3, R162; the opcode number and the sign extension are D1 and D7). -/
def Obligations.StrMeaning : Prop :=
  (∀ w : Word, w.extractLsb' 12 4 = 0x7 →
    decode w = .str (Reg.ofBits (w.extractLsb' 9 3)) (Reg.ofBits (w.extractLsb' 6 3)) (w.extractLsb' 0 6)) ∧
  (∀ (sr baseR : Reg) (offset6 : BitVec 6) (s : State), s.mem.wf = true → ∃ t, exec (.str sr baseR offset6) s = .next t ∧
    { t with mem := s.mem } = s ∧
    ∀ a, t.word a = if a = s.reg baseR + sext6 offset6 then s.reg sr else s.word a)

/-- Where no read is at the keyboard status word, LD, LDR, LDI and STI complete with the stored words and no other effect
(20_memory.md R51, R57; 42_load.md; 43_store.md). -/
def Obligations.LoadsAwayFromStatusWord : Prop :=
  ∀ (s : State) (r baseR : Reg) (offset9 : BitVec 9) (offset6 : BitVec 6),
    (s.pc + sext9 offset9 ≠ Config.kbsr →
      exec (.ld r offset9) s = .next { s with
        regs := s.regs.set r (s.word (s.pc + sext9 offset9)), cond := flagOf (s.word (s.pc + sext9 offset9)) } ∧
      (s.word (s.pc + sext9 offset9) ≠ Config.kbsr →
        exec (.ldi r offset9) s = .next { s with
          regs := s.regs.set r (s.word (s.word (s.pc + sext9 offset9))),
          cond := flagOf (s.word (s.word (s.pc + sext9 offset9))) }) ∧
      (s.mem.wf = true → ∃ t, exec (.sti r offset9) s = .next t ∧ { t with mem := s.mem } = s ∧
        ∀ a, t.word a = if a = s.word (s.pc + sext9 offset9) then s.reg r else s.word a)) ∧
    (s.reg baseR + sext6 offset6 ≠ Config.kbsr →
      exec (.ldr r baseR offset6) s = .next { s with
        regs := s.regs.set r (s.word (s.reg baseR + sext6 offset6)),
        cond := flagOf (s.word (s.reg baseR + sext6 offset6)) })

/-! ## TRAP and its services -/

/-- GETC: its encoding; R7, R0 and the flags when a key is there, never NEG; the wait; and the failure, which writes neither R0
nor the flags (44_trap.md section 2, R170, R171; the encoding is D1, the zero extension D12, the wait D24; that the wait is a
next state which holds it in `pending` is the model's form, notes/assumptions/8.md). -/
def Obligations.GetcMeaning : Prop :=
  (∀ w : Word, w &&& 0xF0FF = 0xF020 → decode w = .trapGetc) ∧
  ∀ (s : State) (c : Console),
    (∀ k, s.console.takeKey = (.byte k, c) → exec .trapGetc s = .next { s with
      regs := (s.regs.set .r7 s.pc).set .r0 (zext8 k), cond := if k = 0x00 then .zro else .pos, console := c }) ∧
    (s.console.takeKey = (.notYet, c) → exec .trapGetc s = .next { s with
      regs := s.regs.set .r7 s.pc, console := c, pending := some .getcKey }) ∧
    (s.console.takeKey = (.fails, c) → exec .trapGetc s = .next { s with
      regs := s.regs.set .r7 s.pc, console := c, run := .faulted .ioFailure })

/-- OUT: its encoding; it writes R7 and the low byte of R0 to the console; a failed write leaves R7 written and raises IoFailure
(44_trap.md section 3, R170, R172; the encoding is D1). -/
def Obligations.OutMeaning : Prop :=
  (∀ w : Word, w &&& 0xF0FF = 0xF021 → decode w = .trapOut) ∧
  ∀ (s : State) (c : Console),
    (s.console.writeByte ((s.reg .r0).extractLsb' 0 8) = (.done, c) →
      c.out = s.console.out ++ [(s.reg .r0).extractLsb' 0 8] ∧
      exec .trapOut s = .next { s with regs := s.regs.set .r7 s.pc, console := c }) ∧
    (s.console.writeByte ((s.reg .r0).extractLsb' 0 8) = (.fails, c) →
      c.out = s.console.out ∧
      exec .trapOut s = .next { s with regs := s.regs.set .r7 s.pc, console := c, run := .faulted .ioFailure })

/-- IN: its encoding; when the writes it makes do not fail, the 19 prompt bytes are written and then a key is read: when it is
there it is echoed and goes to R0 and the flags; otherwise the instruction waits; or it fails (44_trap.md section 5, R170, R174;
the encoding is D1, the byte values D11 and K9 (notes/assumptions/9.md), the zero extension D12, the order D18, the wait D24; that
the wait is held in `pending` is the model's form, notes/assumptions/8.md).  A write that fails is in
`Obligations.FailedWriteRaises`. -/
def Obligations.InMeaning : Prop :=
  (∀ w : Word, w &&& 0xF0FF = 0xF023 → decode w = .trapIn) ∧
  promptBytes = [0x45, 0x6E, 0x74, 0x65, 0x72, 0x20, 0x61, 0x20, 0x63, 0x68, 0x61, 0x72, 0x61, 0x63, 0x74, 0x65, 0x72,
    0x3A, 0x20] ∧
  ∀ (s : State) (c : Console), (∀ w ∈ s.console.writes.take 19, w = .done) →
    (∀ k, s.console.takeKey = (.byte k, c) → (∀ w ∈ s.console.writes.take 20, w = .done) → exec .trapIn s = .next { s with
      regs := (s.regs.set .r7 s.pc).set .r0 (zext8 k), cond := if k = 0x00 then .zro else .pos,
      console := { c with writes := s.console.writes.drop 20, out := s.console.out ++ promptBytes ++ [k] } }) ∧
    (s.console.takeKey = (.notYet, c) → exec .trapIn s = .next { s with
      regs := s.regs.set .r7 s.pc, pending := some .inKey,
      console := { c with writes := s.console.writes.drop 19, out := s.console.out ++ promptBytes } }) ∧
    (s.console.takeKey = (.fails, c) → exec .trapIn s = .next { s with
      regs := s.regs.set .r7 s.pc, run := .faulted .ioFailure,
      console := { c with writes := s.console.writes.drop 19, out := s.console.out ++ promptBytes } })

/-- HALT: its encoding; when the writes it makes do not fail, R7 is written, the text is written and the run state becomes Halted
(44_trap.md section 7, R170, R176; the encoding is D1, the byte values D11 and K9, the order D19). -/
def Obligations.HaltMeaning : Prop :=
  (∀ w : Word, w &&& 0xF0FF = 0xF025 → decode w = .trapHalt) ∧
  ∀ s : State, (∀ w ∈ s.console.writes.take 5, w = .done) → exec .trapHalt s = .next { s with
    regs := s.regs.set .r7 s.pc, run := .halted,
    console := { s.console with
      writes := s.console.writes.drop 5, out := s.console.out ++ [0x48, 0x41, 0x4C, 0x54, 0x0A] } }

/-- PUTS on a string that ends within one lap of memory and is not at the keyboard status word, when the writes it makes do not fail: R7
is written and the low byte of each word is written, in order; nothing else changes (44_trap.md section 4, R170, R173; the
encoding is D1, the read path and the wrap D10). -/
def Obligations.PutsMeaning : Prop :=
  (∀ w : Word, w &&& 0xF0FF = 0xF022 → decode w = .trapPuts) ∧
  ∀ (s : State) (ws : List Word), StringAt s (s.reg .r0) ws → ws.length < 65536 →
    (∀ a ∈ s.console.writes.take ws.length, a = .done) → exec .trapPuts s = .next { s with
      regs := s.regs.set .r7 s.pc,
      console := { s.console with
        writes := s.console.writes.drop ws.length,
        out := s.console.out ++ ws.map fun w => w.extractLsb' 0 8 } }

/-- PUTSP on such a string: the low byte of each word and then its high byte if that is not 0x00 (44_trap.md section 6, R170, R175;
the encoding is D1, the read path and the wrap D10, which byte is tested D26). -/
def Obligations.PutspMeaning : Prop :=
  (∀ w : Word, w &&& 0xF0FF = 0xF024 → decode w = .trapPutsp) ∧
  ∀ (s : State) (ws : List Word) (bytes : List Byte), StringAt s (s.reg .r0) ws → ws.length < 65536 →
    (∀ a ∈ s.console.writes.take bytes.length, a = .done) →
    bytes = ws.flatMap (fun w =>
      if w.extractLsb' 8 8 = 0x00 then [w.extractLsb' 0 8] else [w.extractLsb' 0 8, w.extractLsb' 8 8]) →
    exec .trapPutsp s = .next { s with
      regs := s.regs.set .r7 s.pc,
      console := { s.console with
        writes := s.console.writes.drop bytes.length,
        out := s.console.out ++ bytes } }

/-- PUTS and PUTSP do what the loop of their pseudocode does on every string that ends, waits or fails within one lap of memory,
the keyboard status word and failing writes included (44_trap.md R173, R175; D10).  A longer string goes on in the next step
of the model, at the address where it stands, and so does a string whose read of the keyboard status word waited (R83, D24): that
such a string is cut into steps and held in `pending` is the model's form (notes/assumptions/8.md). -/
def Obligations.StringServicesFollowPseudocode : Prop :=
  (∀ (n : Nat) (s t : State), n < 65536 →
    (StringRun .puts n (s.reg .r0) { s with regs := s.regs.set .r7 s.pc } t → exec .trapPuts s = .next t) ∧
    (StringRun .putsp n (s.reg .r0) { s with regs := s.regs.set .r7 s.pc } t → exec .trapPutsp s = .next t)) ∧
  (∀ (s t : State) (b : Word),
    (StringWords .puts 65536 (s.reg .r0) { s with regs := s.regs.set .r7 s.pc } b t →
      exec .trapPuts s = .next { t with pending := some (.stringAt .puts b) }) ∧
    (StringWords .putsp 65536 (s.reg .r0) { s with regs := s.regs.set .r7 s.pc } b t →
      exec .trapPutsp s = .next { t with pending := some (.stringAt .putsp b) })) ∧
  (∀ (service : StringService) (n : Nat) (a b : Word) (s t : State), s.run = .running →
    s.pending = some (.stringAt service a) →
    (n < 65536 → StringRun service n a { s with pending := none } t → step s = .next t) ∧
    (StringWords service 65536 a { s with pending := none } b t →
      step s = .next { t with pending := some (.stringAt service b) })) ∧
  (∀ (service : StringService) (a : Word) (s u : State), s.run = .running →
    s.pending = some (.statusKey (.stringWord service a)) →
    (takeStatusKey { s with pending := none } = (.fails, u) → step s = .next { u with run := .faulted .ioFailure }) ∧
    (takeStatusKey { s with pending := none } = (.value 0x0000, u) → step s = .next u) ∧
    (∀ w x, takeStatusKey { s with pending := none } = (.value w, u) → w ≠ 0x0000 →
      (writeBytes (service.bytes w) u = (.fails, x) → step s = .next { x with run := .faulted .ioFailure }) ∧
      (writeBytes (service.bytes w) u = (.done, x) →
        (∀ n v, n < 65535 → StringRun service n (a + 1) x v → step s = .next v) ∧
        (∀ b v, StringWords service 65535 (a + 1) x b v → step s = .next { v with pending := some (.stringAt service b) }))))

/-- A TRAP with an unknown vector: its encoding; R7 is written, UnknownTrap is raised, and nothing else changes, the pc and the
console included (44_trap.md section 8, R177; that R7 is written is the spec's decision D9, the encoding D1).  That the
condition is a next state is the model's reading (notes/assumptions/5.md). -/
def Obligations.UnknownTrapMeaning : Prop :=
  (∀ w : Word, w.extractLsb' 12 4 = 0xF → ¬ (0x20 ≤ (w.extractLsb' 0 8).toNat ∧ (w.extractLsb' 0 8).toNat ≤ 0x25) →
    decode w = .trapUnknown (w.extractLsb' 0 8)) ∧
  (∀ (v : BitVec 8) (s : State), exec (.trapUnknown v) s =
    .next { s with regs := s.regs.set .r7 s.pc, run := .faulted (.unknownTrap v) })

/-- RTI and RES: every word of their two opcodes raises UnsupportedOpcode and changes nothing else; the payload is ir[15:12]
(45_unsupported.md R190, R191; the opcode numbers are D1, the payload D13).  That the condition is a next state is the model's reading
(notes/assumptions/5.md). -/
def Obligations.UnsupportedOpcodeMeaning : Prop :=
  (∀ w : Word, w.extractLsb' 12 4 = 0x8 → decode w = .rti) ∧
  (∀ w : Word, w.extractLsb' 12 4 = 0xD → decode w = .res) ∧
  (∀ s : State, ∃ op, exec .rti s = .next { s with run := .faulted (.unsupportedOpcode op) } ∧
    (s.params.opcodeMap = opcodeMap → op = 0x8)) ∧
  (∀ s : State, ∃ op, exec .res s = .next { s with run := .faulted (.unsupportedOpcode op) } ∧
    (s.params.opcodeMap = opcodeMap → op = 0xD)) ∧
  (∀ (s : State) (w : Word), s.params.opcodeMap.wf = true →
    decodeWith s.params.opcodeMap w = .rti ∨ decodeWith s.params.opcodeMap w = .res →
    exec (decodeWith s.params.opcodeMap w) s = .next { s with run := .faulted (.unsupportedOpcode (w.extractLsb' 12 4)) })

/-- Every TRAP leaves the incremented pc in R7 and in the pc, and R1 to R6 as they were, whether its service completes, waits or
fails (44_trap.md R170, R178; D9; that a wait is a next state is the model's form, notes/assumptions/8.md). -/
def Obligations.TrapLinksAndKeepsPc : Prop :=
  ∀ (i : Instr) (s t : State), isTrap i = true → exec i s = .next t →
    t.reg .r7 = s.pc ∧ t.pc = s.pc ∧ ∀ r, r ≠ .r0 → r ≠ .r7 → t.reg r = s.reg r

/-- A write that fails ends a service with IoFailure: the bytes before it are written and nothing after it happens, so HALT does
not halt and IN writes neither R0 nor the flags (21_console.md R82, R84; 44_trap.md R174, R176; D14, D18, D19).  That a text can
fail after some of its bytes, and the bytes of the two texts, are the model's and the spec's choices (D11, K9;
notes/assumptions/9.md). -/
def Obligations.FailedWriteRaises : Prop :=
  ∀ (s : State) (n : Nat) (rest : List WriteAnswer), s.console.writes = List.replicate n .done ++ .fails :: rest →
    (n = 0 → exec .trapOut s = .next { s with
      regs := s.regs.set .r7 s.pc, run := .faulted .ioFailure, console := { s.console with writes := rest } }) ∧
    (n < 5 → exec .trapHalt s = .next { s with
      regs := s.regs.set .r7 s.pc, run := .faulted .ioFailure,
      console := { s.console with
        writes := rest, out := s.console.out ++ [0x48, 0x41, 0x4C, 0x54, 0x0A].take n } }) ∧
    (n < 19 → exec .trapIn s = .next { s with
      regs := s.regs.set .r7 s.pc, run := .faulted .ioFailure,
      console := { s.console with writes := rest, out := s.console.out ++ promptBytes.take n } }) ∧
    (n = 19 → ∀ k ks, s.console.keys = .byte k :: ks → exec .trapIn s = .next { s with
      regs := s.regs.set .r7 s.pc, run := .faulted .ioFailure,
      console := { s.console with keys := ks, writes := rest, out := s.console.out ++ promptBytes } })

/-! ## Memory through the arbiter -/

/-- `MemRead(a, 1)` in every case of the console's answers, under both settings of the open parameter KBSR_READY_WRITE (20_memory.md
R55, R57; 00_scope.md R12; the zero extension and the wait are the spec's decisions D12 and D27). -/
def Obligations.MemReadMeaning : Prop :=
  ∀ s : State, s.mem.wf = true →
    (∀ a, a ≠ 0xFE00 → memRead a s = (.value (s.word a), s)) ∧
    (∀ c, s.console.poll = (.fails, c) → memRead 0xFE00 s = (.fails, { s with console := c })) ∧
    (∀ c, s.console.poll = (.no, c) →
      memRead 0xFE00 s = (.value 0x0000, { s with console := c, mem := s.mem.write 0xFE00 0x0000 })) ∧
    (∀ c d, s.console.poll = (.yes, c) →
      (∀ k, c.takeKey = (.byte k, d) →
        memRead 0xFE00 s = (.value (s.params.readyWrite.apply (s.word 0xFE00)), { s with
          console := d, mem := (s.mem.write 0xFE00 (s.params.readyWrite.apply (s.word 0xFE00))).write 0xFE02 (k.zeroExtend 16) })) ∧
      (c.takeKey = (.notYet, d) →
        memRead 0xFE00 s = (.waits, { s with
          console := d, mem := s.mem.write 0xFE00 (s.params.readyWrite.apply (s.word 0xFE00)) })) ∧
      (c.takeKey = (.fails, d) →
        memRead 0xFE00 s = (.fails, { s with
          console := d, mem := s.mem.write 0xFE00 (s.params.readyWrite.apply (s.word 0xFE00)) })))

/-- `MemWrite(a, 1, v)`: plain storage at every address, with no failure, no console call and no side effect; the next read of 0xFE00
sets bit 15 of a value stored there, as KBSR_READY_WRITE says, or replaces it by 0 (20_memory.md R58; the parameter is D6,
notes/assumptions/4.md); and one stored at 0xFE02 is read back, also after a read of 0xFE00 that finds no key. -/
def Obligations.MemWriteMeaning : Prop :=
  ∀ (a v : Word) (s : State), s.mem.wf = true →
    { memWrite a v s with mem := s.mem } = s ∧
    (∀ b, (memWrite a v s).word b = if b = a then v else s.word b) ∧
    (∀ w, (memRead 0xFE00 (memWrite 0xFE00 v s)).1 = .value w → w = s.params.readyWrite.apply v ∨ w = 0x0000) ∧
    memRead 0xFE02 (memWrite 0xFE02 v s) = (.value v, memWrite 0xFE02 v s) ∧
    (s.console.poll.1 = .no → (memRead 0xFE02 (memRead 0xFE00 (memWrite 0xFE02 v s)).2).1 = .value v)

/-- R59, read after write: for every address but 0xFE00, the stored value, with no other effect; for 0xFE02 also after a read of
0xFE00 that found no key; for 0xFE00 it does not hold. -/
def Obligations.ReadAfterWrite : Prop :=
  (∀ (a v : Word) (s : State), s.mem.wf = true → a ≠ 0xFE00 →
    memRead a (memWrite a v s) = (.value v, memWrite a v s)) ∧
  (∀ (v : Word) (s : State), s.mem.wf = true → s.console.poll.1 = .no →
    (memRead 0xFE02 (memRead 0xFE00 (memWrite 0xFE02 v s)).2).1 = .value v) ∧
  (∀ (v : Word) (s : State), s.mem.wf = true → s.console.poll.1 = .no → v ≠ 0x0000 →
    (memRead 0xFE00 (memWrite 0xFE00 v s)).1 = .value 0x0000)

/-- R56, a read of 0xFE00 that finds a key consumes it: a second read with no key gives 0x0000 and leaves the key in 0xFE02, and a
second read that finds another key overwrites 0xFE02. -/
def Obligations.StatusReadConsumesKey : Prop :=
  ∀ (s t : State) (v k : Word) (c d : Console) (key : Byte), s.mem.wf = true →
    s.console.poll = (.yes, c) → c.takeKey = (.byte key, d) → k = key.zeroExtend 16 →
    memRead 0xFE00 s = (.value v, t) →
    t.console = d ∧ v = s.params.readyWrite.apply (s.word 0xFE00) ∧ (s.word 0xFE00 &&& 0x7FFF = 0x0000 → v = 0x8000) ∧
    t.word 0xFE00 = v ∧ t.word 0xFE02 = k ∧
    (∀ e, d.poll = (.no, e) → ∃ u, memRead 0xFE00 t = (.value 0x0000, u) ∧ u.console = e ∧
      u.word 0xFE00 = 0x0000 ∧ u.word 0xFE02 = k) ∧
    (∀ e f key2, d.poll = (.yes, e) → e.takeKey = (.byte key2, f) → ∃ w u, memRead 0xFE00 t = (.value w, u) ∧
      u.word 0xFE02 = key2.zeroExtend 16)

/-- Both settings of KBSR_READY_WRITE set the ready bit, and they agree where the low bits stored before are zero (20_memory.md R55;
92_eei_decisions.md D6; the default, OR, is notes/assumptions/4.md). -/
def Obligations.ReadyBitUnderBothSettings : Prop :=
  ∀ (setting : ReadyWrite) (old : Word),
    (setting.apply old).getLsbD 15 = true ∧
    (old &&& 0x7FFF = 0x0000 → setting.apply old = 0x8000) ∧
    (∀ i, i < 15 → (setting.apply old).getLsbD i = (decide (setting = .or) && old.getLsbD i))

/-- R163, a store followed by a load of the same address returns the stored value, across the three store forms and the three load
forms, for every address that is not memory-mapped; whatever else the machine did in between that wrote no memory. -/
def Obligations.StoreThenLoadRoundTrip : Prop :=
  ∀ (s t u : State) (a : Word) (sr dr baseR : Reg) (store : Instr) (offset9 : BitVec 9) (offset6 : BitVec 6),
    s.mem.wf = true → a ≠ Config.kbsr → a ≠ Config.kbdr →
    (store = .st sr offset9 ∨ store = .sti sr offset9 ∨ store = .str sr baseR offset6) →
    storeAddress store s = some a → exec store s = .next t → u.mem = t.mem →
    (∀ off : BitVec 9, u.pc + sext9 off = a →
      exec (.ld dr off) u = .next { u with regs := u.regs.set dr (s.reg sr), cond := flagOf (s.reg sr) }) ∧
    (∀ (base : Reg) (off : BitVec 6), u.reg base + sext6 off = a →
      exec (.ldr dr base off) u = .next { u with regs := u.regs.set dr (s.reg sr), cond := flagOf (s.reg sr) }) ∧
    (∀ off : BitVec 9, u.pc + sext9 off ≠ Config.kbsr → u.word (u.pc + sext9 off) = a →
      exec (.ldi dr off) u = .next { u with regs := u.regs.set dr (s.reg sr), cond := flagOf (s.reg sr) })

/-! ## Whole-machine rules over all instructions -/

/-- How every instruction leaves the pc (10_state.md R25; for JSRR R7 the order is the spec's decision D8). -/
def Obligations.PcAfterEachInstruction : Prop :=
  ∀ (i : Instr) (s t : State), exec i s = .next t → t.pc = pcAfter i s

/-- What writes `cond`: the listed instructions, from their destination register, when they complete; an instruction that waits or has
failed leaves it, and its destination register, as they were; every other instruction, and a memory read with its side effect,
leaves it as it was (10_state.md R29; that a wait is held in `pending` is the model's form, notes/assumptions/8.md). -/
def Obligations.FlagsWrittenOnlyBy : Prop :=
  (∀ (i : Instr) (s t : State), exec i s = .next t → flagRegister i = none → t.cond = s.cond) ∧
  (∀ (i : Instr) (d : Reg) (s t : State), flagRegister i = some d → s.run = .running → s.pending = none →
    exec i s = .next t →
    (t.run = .faulted .ioFailure ∨ t.pending ≠ none → t.cond = s.cond ∧ t.reg d = s.reg d) ∧
    (t.run ≠ .faulted .ioFailure → t.pending = none → t.cond = flagOf (t.reg d))) ∧
  (∀ (a : Word) (s : State), (memRead a s).2.cond = s.cond)

/-- R30, only BR reads `cond`: for every other instruction a different `cond` changes nothing in the outcome but `cond` itself; and BR
tests `(ir[11:9] & cond) != 0`; and no instruction writes `cond` but by the flag rule. -/
def Obligations.OnlyBranchReadsFlags : Prop :=
  (∀ (i : Instr) (s t : State) (c : Cond), (∀ flags off, i ≠ .br flags off) → exec i s = .next t →
    ∃ t', exec i { s with cond := c } = .next t' ∧ { t' with cond := t.cond } = t) ∧
  (∀ (flags : BitVec 3) (off : BitVec 9) (s : State), exec (.br flags off) s =
    .next (if flags &&& s.cond.bits ≠ 0 then { s with pc := s.pc + sext9 off } else s)) ∧
  (∀ (i : Instr) (s t : State), exec i s = .next t →
    t.cond = s.cond ∨ ∃ d, flagRegister i = some d ∧ t.cond = flagOf (t.reg d))

/-- The frame of the general registers: only the registers that R22 lists for an instruction change (10_state.md R22). -/
def Obligations.RegistersWrittenOnly : Prop :=
  ∀ (i : Instr) (s t : State), exec i s = .next t → ∀ r, r ∉ regsWritten i → t.reg r = s.reg r

/-- The frame of memory: an instruction changes no word but the one at the address it stores to and, if it may read the keyboard status
word, the two keyboard words (20_memory.md R51, R55, R64). -/
def Obligations.MemoryFrame : Prop :=
  ∀ (i : Instr) (s t : State), s.mem.wf = true → exec i s = .next t →
    (∀ a, storeAddress i s ≠ some a → a ≠ Config.kbsr → a ≠ Config.kbdr → t.word a = s.word a) ∧
    (mayReadStatus i s = false → ∀ a, storeAddress i s ≠ some a → t.word a = s.word a)

/-- Who calls the console and who changes the run state: an instruction that is no console service and reads no keyboard status word
leaves the console, the run state (unless it raises always) and the instruction in progress as they were, and does the
same whatever the console holds (21_console.md R80 to R82; 60_exceptions.md R222, R227; the instruction in progress is the model's own
field, notes/assumptions/8.md). -/
def Obligations.ConsoleCallersOnly : Prop :=
  ∀ (i : Instr) (s t : State), callsConsole i = false → mayReadStatus i s = false → exec i s = .next t →
    t.console = s.console ∧ t.pending = s.pending ∧ (raisesAlways i = false → t.run = s.run) ∧
    ∀ c, exec i { s with console := c } = .next { t with console := c }

/-! ## The step and the run -/

/-- The step: while Running, the word at `pc` is fetched through `MemRead`; `pc` is incremented, modulo 65,536; and the decoded
instruction is executed.  A fetch that fails makes no increment and executes nothing.  A fetch that had waited goes on alike
once its key is there (50_execution_loop.md R201; 21_console.md R83; D24; that its wait is held in `pending` is the model's form,
notes/assumptions/8.md). -/
def Obligations.StepRunsDecodedInstruction : Prop :=
  ∀ s : State, s.run = .running →
    (s.pending = none →
      (∀ ir t, memRead s.pc s = (.value ir, t) →
        step s = exec (decodeWith s.params.opcodeMap ir) { t with pc := s.pc + 1 }) ∧
      (∀ t, memRead s.pc s = (.fails, t) → step s = .next { t with run := .faulted .ioFailure } ∧ t.pc = s.pc) ∧
      (∀ i, s.pc ≠ Config.kbsr → i.wellFormed = true → decodeWith s.params.opcodeMap (s.word s.pc) = i →
        step s = exec i { s with pc := s.pc + 1 })) ∧
    (s.pending = some (.statusKey .fetch) →
      (∀ ir u, takeStatusKey (s.setPending none) = (.value ir, u) →
        step s = exec (decodeWith s.params.opcodeMap ir) { u with pc := s.pc + 1 }) ∧
      (∀ u, takeStatusKey (s.setPending none) = (.fails, u) →
        step s = .next { u with run := .faulted .ioFailure } ∧ u.pc = s.pc))

/-- The run-state machine (50_execution_loop.md R203 to R206, R209): NotStarted becomes Running and nothing else changes; a step while
Running stays Running, halts or faults; Halted and Faulted have no next state.  That the step from NotStarted is the
`run()` invocation is the model's choice (notes/assumptions/11.md), and that a step which waits answers a next state is its form
(notes/assumptions/8.md). -/
def Obligations.RunStateTransitions : Prop :=
  (∀ s : State, s.run = .notStarted → step s = .next { s with run := .running }) ∧
  (∀ s : State, s.run = .halted → step s = .refused .halted) ∧
  (∀ (s : State) (c : Fault), s.run = .faulted c → step s = .fault c) ∧
  (∀ s : State, s.run = .running → ∃ t, step s = .next t ∧
    (t.run = .running ∨ t.run = .halted ∨ ∃ c, t.run = .faulted c))

/-- R204 and R205: only the HALT service makes the transition from Running to Halted; the state it leaves has the address after the HALT
in `pc` and in R7 and an output log that ends in "HALT" and a line feed (the ASCII values of these five characters are general
knowledge, K9; notes/assumptions/9.md); and from an ended run there is no next state. -/
def Obligations.OnlyHaltHalts : Prop :=
  (∀ s t : State, s.run = .running → step s = .next t → t.run = .halted →
    ∃ ir u, Executes s ir u ∧ decodeWith s.params.opcodeMap ir = .trapHalt ∧ t.pc = s.pc + 1 ∧ t.reg .r7 = s.pc + 1 ∧
      ∃ before, t.console.out = before ++ [0x48, 0x41, 0x4C, 0x54, 0x0A]) ∧
  (∀ s : State, Ended s ↔ s.run = .halted ∨ ∃ c, s.run = .faulted c) ∧
  (∀ s t : State, Ended s → step s ≠ .next t)

/-- UnsupportedOpcode is raised by executing RTI or RES and by nothing else, with the pc incremented and no other state changed;
UnknownTrap by executing a TRAP whose vector is outside 0x20..0x25 and by nothing else, with the pc incremented and R7 written
(60_exceptions.md R220, R221; that R7 is written is the spec's decision D9, notes/assumptions/14.md). -/
def Obligations.FatalConditionSources : Prop :=
  ∀ s t : State, s.run = .running → step s = .next t →
    (∀ op, t.run = .faulted (.unsupportedOpcode op) →
      ∃ ir u, Executes s ir u ∧
        (decodeWith s.params.opcodeMap ir = .rti ∨ decodeWith s.params.opcodeMap ir = .res) ∧
        t = { u with pc := s.pc + 1, run := .faulted (.unsupportedOpcode op) }) ∧
    (∀ v, t.run = .faulted (.unknownTrap v) →
      ∃ ir u, Executes s ir u ∧ decodeWith s.params.opcodeMap ir = .trapUnknown v ∧
        ¬ (0x20 ≤ v.toNat ∧ v.toNat ≤ 0x25) ∧
        t = { u with pc := s.pc + 1, regs := u.regs.set .r7 (s.pc + 1), run := .faulted (.unknownTrap v) }) ∧
    (∀ ir u, Executes s ir u → (decodeWith s.params.opcodeMap ir = .rti ∨ decodeWith s.params.opcodeMap ir = .res) →
      ∃ op, t.run = .faulted (.unsupportedOpcode op)) ∧
    (∀ ir u v, Executes s ir u → decodeWith s.params.opcodeMap ir = .trapUnknown v → t.run = .faulted (.unknownTrap v))

/-- An instruction that waits in `ReadKey()` with no byte there stays as it is, `run` stays Running, and with no answer to come at all
the step gives the same state again: a hang, no fault and no final state.  A fetch that comes to wait has made no increment
(21_console.md R83; 50_execution_loop.md R208; D24; that the wait is held in `pending` is the model's form,
notes/assumptions/8.md). -/
def Obligations.WaitingReadIsAHang : Prop :=
  (∀ (s : State) (p : Pending), s.run = .running → s.pending = some p →
    (p = .getcKey ∨ p = .inKey ∨ ∃ use, p = .statusKey use) →
    (∀ c, s.console.takeKey = (.notYet, c) → step s = .next { s with console := c }) ∧
    (s.console.keys = [] → step s = .next s)) ∧
  (∀ s t : State, s.run = .running → s.pending = none → memRead s.pc s = (.waits, t) →
    step s = .next { t with pending := some (.statusKey .fetch) } ∧ t.pc = s.pc)

/-- Waiting changes only the moment.  GETC, IN, and an LD, LDI (its pointer and its operand), LDR, STI, PUTS or PUTSP whose read of
the keyboard status word found a key, when `ReadKey()` waits once and then returns, end in the state in which they end when it
returns at once.  And from any state in which a load, an LDI at its pointer, or an STI waits, the next step does with the word of
the read what the instruction does with it (21_console.md R83; 50_execution_loop.md R207; D24, D27; that the wait is held in
`pending` is the model's form, notes/assumptions/8.md). -/
def Obligations.WaitingChangesOnlyTheMoment : Prop :=
  (∀ (s : State) (k : Byte) (ks : List KeyAnswer), s.run = .running → s.pending = none →
    s.console.keys = .notYet :: .byte k :: ks →
    (∃ t, exec .trapGetc s = .next t ∧ t.pending = some .getcKey ∧
      step t = exec .trapGetc (withKeys s (.byte k :: ks))) ∧
    ((∀ w ∈ s.console.writes.take 19, w = .done) → ∃ t, exec .trapIn s = .next t ∧ t.pending = some .inKey ∧
      step t = exec .trapIn (withKeys s (.byte k :: ks))) ∧
    (∀ (r baseR : Reg) (offset9 : BitVec 9) (offset6 : BitVec 6) (ps : List PollAnswer), s.console.polls = .yes :: ps →
      (s.pc + sext9 offset9 = Config.kbsr →
        (∃ t, exec (.ld r offset9) s = .next t ∧ t.pending = some (.statusKey (.load r)) ∧
          step t = exec (.ld r offset9) (withKeys s (.byte k :: ks))) ∧
        (∃ t, exec (.ldi r offset9) s = .next t ∧ t.pending = some (.statusKey (.loadPointer r)) ∧
          step t = exec (.ldi r offset9) (withKeys s (.byte k :: ks))) ∧
        (∃ t, exec (.sti r offset9) s = .next t ∧ t.pending = some (.statusKey (.storePointer r)) ∧
          step t = exec (.sti r offset9) (withKeys s (.byte k :: ks)))) ∧
      (s.pc + sext9 offset9 ≠ Config.kbsr → s.word (s.pc + sext9 offset9) = Config.kbsr →
        ∃ t, exec (.ldi r offset9) s = .next t ∧ t.pending = some (.statusKey (.load r)) ∧
          step t = exec (.ldi r offset9) (withKeys s (.byte k :: ks))) ∧
      (s.reg baseR + sext6 offset6 = Config.kbsr →
        ∃ t, exec (.ldr r baseR offset6) s = .next t ∧ t.pending = some (.statusKey (.load r)) ∧
          step t = exec (.ldr r baseR offset6) (withKeys s (.byte k :: ks))) ∧
      (s.reg .r0 = Config.kbsr →
        (∃ t, exec .trapPuts s = .next t ∧ t.pending = some (.statusKey (.stringWord .puts Config.kbsr)) ∧
          step t = exec .trapPuts (withKeys s (.byte k :: ks))) ∧
        (∃ t, exec .trapPutsp s = .next t ∧ t.pending = some (.statusKey (.stringWord .putsp Config.kbsr)) ∧
          step t = exec .trapPutsp (withKeys s (.byte k :: ks)))))) ∧
  (∀ (s : State) (r : Reg), s.run = .running →
    (s.pending = some (.statusKey (.load r)) → step s =
      match takeStatusKey { s with pending := none } with
      | (.value v, t) => .next { t with regs := s.regs.set r v, cond := flagOf v }
      | (.waits, t) => .next { t with pending := s.pending }
      | (.fails, t) => .next { t with run := .faulted .ioFailure }) ∧
    (s.pending = some (.statusKey (.loadPointer r)) → step s =
      match takeStatusKey { s with pending := none } with
      | (.value a, t) =>
        (match memRead a t with
        | (.value v, u) => .next { u with regs := s.regs.set r v, cond := flagOf v }
        | (.waits, u) => .next { u with pending := some (.statusKey (.load r)) }
        | (.fails, u) => .next { u with run := .faulted .ioFailure })
      | (.waits, t) => .next { t with pending := s.pending }
      | (.fails, t) => .next { t with run := .faulted .ioFailure }) ∧
    (s.pending = some (.statusKey (.storePointer r)) → step s =
      match takeStatusKey { s with pending := none } with
      | (.value a, t) => .next { t with mem := t.mem.write a.toNat (s.reg r) }
      | (.waits, t) => .next { t with pending := s.pending }
      | (.fails, t) => .next { t with run := .faulted .ioFailure }))

/-- The output log is append-only and nothing reads it back: every step appends some bytes, and the same bytes and the same outcome
otherwise whatever the log held (21_console.md R86). -/
def Obligations.OutputLogIsWriteOnly : Prop :=
  ∀ s t : State, step s = .next t → ∃ bytes, t.console.out = s.console.out ++ bytes ∧
    ∀ out, step (withOut s out) = .next (withOut t (out ++ bytes))

/-- R41, R42 and R45: after reset `pc` is 0x3000, whatever image is loaded; `cond` is ZRO, so a BR with the z bit set is taken; `run` is
NotStarted and becomes Running when the run is started.  For every value of the open parameters and of the general registers. -/
def Obligations.ResetState : Prop :=
  ∀ (params : Params) (gpr : Regs) (origin : Word) (words : List Word),
    (loadImage origin words (State.construct params gpr)).pc = 0x3000 ∧
    (loadImage origin words (State.construct params gpr)).cond = .zro ∧
    (loadImage origin words (State.construct params gpr)).run = .notStarted ∧
    (∀ (s : State) (flags : BitVec 3) (off : BitVec 9), s.cond = .zro → flags.getLsbD 1 = true →
      exec (.br flags off) s = .next { s with pc := s.pc + sext9 off }) ∧
    (loadImage origin words (State.construct params gpr)).start.run = .running

/-- The effect of the loader on memory (70_reset_and_hazards.md R252, R253; 92_eei_decisions.md D5): words[i] at origin + i modulo
65,536, a later word over an earlier one, and nothing else; the constructed machine's memory is all 0x0000 (10_state.md R44). -/
def Obligations.LoaderEffect : Prop :=
  (∀ (params : Params) (gpr : Regs) (a : Word), (State.construct params gpr).word a = 0x0000) ∧
  ∀ (origin : Word) (words : List Word) (s : State), s.mem.wf = true →
    { loadImage origin words s with mem := s.mem } = s ∧
    (∀ w a, (loadImage origin (words ++ [w]) s).word a =
      if a = origin + BitVec.ofNat 16 words.length then w else (loadImage origin words s).word a) ∧
    (words.length ≤ 65536 → ∀ (i : Nat) (h : i < words.length),
      (loadImage origin words s).word (origin + BitVec.ofNat 16 i) = words[i]) ∧
    (∀ a, (∀ i, i < words.length → a ≠ origin + BitVec.ofNat 16 i) → (loadImage origin words s).word a = s.word a)

/-- Every step keeps the invariant: memory keeps its canonical form, an instruction is in progress only while the machine runs, and
OPCODE_MAP stays legal; and no step changes an open parameter of the machine (20_memory.md R50, R58; 21_console.md R83;
00_scope.md R12; notes/assumptions/26.md; the instruction in progress is the model's own field, notes/assumptions/8.md). -/
def Obligations.StepKeepsInv : Prop :=
  ∀ s t : State, step s = .next t → t.params = s.params ∧ (Inv s → Inv t)

/-- The constructed machine has the invariant, for every legal value of the open parameters, every value of the general registers and
every image (00_scope.md R12; 10_state.md R43, R44). -/
def Obligations.ConstructedMachineHasInv : Prop :=
  Inv State.reset ∧
  ∀ (params : Params) (gpr : Regs) (origin : Word) (words : List Word), params.opcodeMap.wf = true →
    Inv (loadImage origin words (State.construct params gpr))

/-- A store is seen by the very next fetch: after any of the three stores to the address of the next instruction, the next step executes
the stored word (20_memory.md R64, R67, which the spec derives). -/
def Obligations.StoreIntoNextInstruction : Prop :=
  ∀ (s t : State) (store : Instr) (sr baseR : Reg) (offset9 : BitVec 9) (offset6 : BitVec 6),
    s.mem.wf = true → s.run = .running → s.pending = none → s.pc ≠ Config.kbsr →
    (store = .st sr offset9 ∨ store = .sti sr offset9 ∨ store = .str sr baseR offset6) →
    storeAddress store s = some s.pc → exec store s = .next t →
    step t = exec (decodeWith s.params.opcodeMap (s.reg sr)) { t with pc := s.pc + 1 }

/-- The no-operations, under the default of OPCODE_MAP: the words 0x0000 to 0x01FF decode to a BR that tests no flag, and running one
changes nothing but the pc, which wraps from 0xFFFF to 0x0000.  The fetch is not at the keyboard status word, whose read has an
effect of its own (30_encoding.md R119 and 70_reset_and_hazards.md R258, which the spec derives; D1). -/
def Obligations.NoFlagBranchIsNop : Prop :=
  (∀ w : Word, w.toNat < 0x0200 → decode w = .br 0 (w.extractLsb' 0 9)) ∧
  ∀ s : State, s.run = .running → s.pending = none → s.params.opcodeMap = opcodeMap → s.pc ≠ Config.kbsr →
    (s.word s.pc).toNat < 0x0200 → step s = .next { s with pc := BitVec.ofNat 16 ((s.pc.toNat + 1) % 65536) }

/-- `withFetchWord` places a word so that the next step runs exactly it (the model's loader, notes/assumptions/11.md; not at the
keyboard status word, whose fetch the console alters). -/
def Obligations.PlacedWordRunsNext : Prop :=
  ∀ (s : State) (w : Word), s.mem.wf = true → s.pc ≠ Config.kbsr →
    ∃ t, step (s.withFetchWord 16 w.toNat) = exec (decodeWith s.params.opcodeMap w) t ∧
      t.pc = s.pc + 1 ∧ t.word s.pc = w ∧ t.run = .running ∧ t.pending = none ∧
      t.regs = s.regs ∧ t.cond = s.cond ∧ t.console = s.console ∧ t.params = s.params ∧ ∀ a, a ≠ s.pc → t.word a = s.word a

/-- R21, the general registers: the eight that the eight values of a register field name; each holds any word, reads what was last
written, R0 among them, and no write of one changes another. -/
def Obligations.GeneralRegisters : Prop :=
  (∀ b : BitVec 3, (Reg.ofBits b).toBits = b) ∧ (∀ r : Reg, Reg.ofBits r.toBits = r) ∧
  (∀ (x : Regs) (d i : Reg) (v : Word), (x.set d v).get i = if i = d then v else x.get i) ∧
  (∀ (s : State) (d i : Reg) (v : Word), (s.setReg d v).reg i = if i = d then v else s.reg i) ∧
  (∀ f : Reg → Word, ∃ x : Regs, ∀ i, x.get i = f i)
end

