-- ==== Sys2Proof/Laws/Decode.lean ====
section
/-! SUPPORT. The small laws of the decoder's tables and fields: each table is inverted by its other direction, and a
field of an instruction word is read back from where the encoder put it. -/

namespace Sys2Proof

/-- A register's bits name it (R21). -/
@[simp] theorem Reg.ofBits_toBits (r : Reg) : Reg.ofBits r.toBits = r := by
  cases r <;> rfl

/-- Every field value is a register's (R21). -/
@[simp] theorem Reg.toBits_ofBits (b : BitVec 3) : (Reg.ofBits b).toBits = b := by
  revert b
  decide

/-- A legal OPCODE_MAP has sixteen positions. -/
theorem OpcodeMap.length_of_wf {m : OpcodeMap} (hm : m.wf = true) : m.length = 16 :=
  (List.isPerm_iff.1 hm).length_eq

/-- A legal OPCODE_MAP has every opcode. -/
theorem OpcodeMap.mem_of_wf {m : OpcodeMap} (hm : m.wf = true) (op : Opcode) : op ∈ m :=
  (List.isPerm_iff.1 hm).mem_iff.2 (by cases op <;> decide)

/-- A legal OPCODE_MAP has no opcode twice. -/
theorem OpcodeMap.nodup_of_wf {m : OpcodeMap} (hm : m.wf = true) : m.Nodup :=
  (List.isPerm_iff.1 hm).nodup_iff.2 (by decide)

/-- The position of an opcode fits the opcode field. -/
theorem OpcodeMap.idxOf_lt {m : OpcodeMap} (hm : m.wf = true) (op : Opcode) : m.idxOf op < 16 :=
  OpcodeMap.length_of_wf hm ▸ List.idxOf_lt_length_of_mem (OpcodeMap.mem_of_wf hm op)

/-- A legal OPCODE_MAP gives every opcode its own number (R115). -/
theorem opcodeOf_opcodeNumber {m : OpcodeMap} (hm : m.wf = true) (op : Opcode) : opcodeOf m (opcodeNumber m op) = op := by
  have hlt := OpcodeMap.idxOf_lt hm op
  unfold opcodeOf opcodeNumber
  rw [BitVec.toNat_ofNat, Nat.mod_eq_of_lt hlt, List.getD_eq_getElem _ _ (OpcodeMap.length_of_wf hm ▸ hlt)]
  exact List.getElem_idxOf _

/-- A legal OPCODE_MAP gives every number an opcode (R115, R118). -/
theorem opcodeNumber_opcodeOf {m : OpcodeMap} (hm : m.wf = true) (n : BitVec 4) : opcodeNumber m (opcodeOf m n) = n := by
  have hlt : n.toNat < m.length := OpcodeMap.length_of_wf hm ▸ n.isLt
  unfold opcodeOf opcodeNumber
  rw [List.getD_eq_getElem _ _ hlt, (OpcodeMap.nodup_of_wf hm).idxOf_getElem]
  exact BitVec.ofNat_toNat 4 n |>.trans (by simp)

/-- The default of OPCODE_MAP is legal. -/
theorem opcodeMap_wf : opcodeMap.wf = true := by decide

/-! The numbers of R115, one lemma each. -/

@[simp] theorem opcodeNumber_br : opcodeNumber opcodeMap .br = 0x0 := rfl
@[simp] theorem opcodeNumber_add : opcodeNumber opcodeMap .add = 0x1 := rfl
@[simp] theorem opcodeNumber_ld : opcodeNumber opcodeMap .ld = 0x2 := rfl
@[simp] theorem opcodeNumber_st : opcodeNumber opcodeMap .st = 0x3 := rfl
@[simp] theorem opcodeNumber_jsr : opcodeNumber opcodeMap .jsr = 0x4 := rfl
@[simp] theorem opcodeNumber_and : opcodeNumber opcodeMap .and = 0x5 := rfl
@[simp] theorem opcodeNumber_ldr : opcodeNumber opcodeMap .ldr = 0x6 := rfl
@[simp] theorem opcodeNumber_str : opcodeNumber opcodeMap .str = 0x7 := rfl
@[simp] theorem opcodeNumber_rti : opcodeNumber opcodeMap .rti = 0x8 := rfl
@[simp] theorem opcodeNumber_not : opcodeNumber opcodeMap .not = 0x9 := rfl
@[simp] theorem opcodeNumber_ldi : opcodeNumber opcodeMap .ldi = 0xa := rfl
@[simp] theorem opcodeNumber_sti : opcodeNumber opcodeMap .sti = 0xb := rfl
@[simp] theorem opcodeNumber_jmp : opcodeNumber opcodeMap .jmp = 0xc := rfl
@[simp] theorem opcodeNumber_res : opcodeNumber opcodeMap .res = 0xd := rfl
@[simp] theorem opcodeNumber_lea : opcodeNumber opcodeMap .lea = 0xe := rfl
@[simp] theorem opcodeNumber_trap : opcodeNumber opcodeMap .trap = 0xf := rfl

/-! Each layout, bit by bit. -/

@[simp] theorem getLsbD_opcodeWord (m : OpcodeMap) (op : Opcode) (layout : BitVec 12) (i : Nat) :
    (opcodeWord m op layout).getLsbD i = if i < 12 then layout.getLsbD i else (opcodeNumber m op).getLsbD (i - 12) :=
  BitVec.getLsbD_append

@[simp] theorem getLsbD_layout3and9 (a : BitVec 3) (b : BitVec 9) (i : Nat) :
    (layout3and9 a b).getLsbD i = if i < 9 then b.getLsbD i else a.getLsbD (i - 9) :=
  BitVec.getLsbD_append

@[simp] theorem getLsbD_layout3and3and6 (a b : BitVec 3) (c : BitVec 6) (i : Nat) :
    (layout3and3and6 a b c).getLsbD i =
      if i < 6 then c.getLsbD i
      else if i - 6 < 3 then b.getLsbD (i - 6) else a.getLsbD (i - 6 - 3) := by
  refine BitVec.getLsbD_append.trans ?_
  rw [BitVec.getLsbD_append]

@[simp] theorem getLsbD_layout1and11 (a : BitVec 1) (b : BitVec 11) (i : Nat) :
    (layout1and11 a b).getLsbD i = if i < 11 then b.getLsbD i else a.getLsbD (i - 11) :=
  BitVec.getLsbD_append

@[simp] theorem getLsbD_layout4and8 (a : BitVec 4) (b : BitVec 8) (i : Nat) :
    (layout4and8 a b).getLsbD i = if i < 8 then b.getLsbD i else a.getLsbD (i - 8) :=
  BitVec.getLsbD_append

@[simp] theorem getLsbD_registerOperand (sr2 : Reg) (i : Nat) :
    (registerOperand sr2).getLsbD i = if i < 3 then sr2.toBits.getLsbD i else (0b000#3).getLsbD (i - 3) :=
  BitVec.getLsbD_append

@[simp] theorem getLsbD_immediateOperand (imm5 : BitVec 5) (i : Nat) :
    (immediateOperand imm5).getLsbD i = if i < 5 then imm5.getLsbD i else (0b1#1).getLsbD (i - 5) :=
  BitVec.getLsbD_append

/-- The opcode field of an instruction word. -/
@[simp] theorem opcodeField_opcodeWord (m : OpcodeMap) (op : Opcode) (layout : BitVec 12) :
    opcodeField (opcodeWord m op layout) = opcodeNumber m op := by
  apply BitVec.eq_of_getLsbD_eq
  intro i hi
  simp [opcodeField, hi]

/-- A field is known from its bits. -/
theorem extract_eq_of_bits {len : Nat} (w : Word) (start : Nat) (x : BitVec len)
    (h : ∀ i, i < len → w.getLsbD (start + i) = x.getLsbD i) : w.extractLsb' start len = x := by
  apply BitVec.eq_of_getLsbD_eq
  intro i hi
  rw [BitVec.getLsbD_extractLsb', h i hi, decide_eq_true hi, Bool.true_and]

/-- A word whose opcode field is known is decoded by that opcode's layout (R100, R122). -/
theorem decodeWith_of_opcode (m : OpcodeMap) {w : Word} {n : BitVec 4} (h : w.extractLsb' 12 4 = n) :
    decodeWith m w = decodeAs (opcodeOf m n) w := by
  unfold decodeWith opcodeField
  rw [h]

/-- The same under the default of OPCODE_MAP. -/
theorem decode_of_opcode {w : Word} {n : BitVec 4} (h : w.extractLsb' 12 4 = n) :
    decode w = decodeAs (opcodeOf opcodeMap n) w :=
  decodeWith_of_opcode opcodeMap h

/-- Decoding an instruction word goes by the opcode it was written with. -/
theorem decodeWith_opcodeWord {m : OpcodeMap} (hm : m.wf = true) (op : Opcode) (layout : BitVec 12) :
    decodeWith m (opcodeWord m op layout) = decodeAs op (opcodeWord m op layout) := by
  unfold decodeWith
  rw [opcodeField_opcodeWord, opcodeOf_opcodeNumber hm]

end Sys2Proof
end

