-- ==== Sys2Proof/Laws/Memory.lean ====
section
/-! SUPPORT. The laws of memory as an array: read after write, the canonical form, and that equal memories are equal
data. -/

namespace Sys2Proof.Machine

/-- The canonical form of a list, entry by entry. -/
theorem Memory.wf_cons (c : Nat × Word) (rest : Memory) :
    Memory.wf (c :: rest) = true ↔
      c.1 < Config.memWords ∧ c.2 ≠ Memory.unlisted ∧ (∀ d ∈ rest, c.1 < d.1) ∧ Memory.wf rest = true := by
  induction rest generalizing c with
  | nil => simp [Memory.wf]
  | cons d rest ih =>
    simp only [Memory.wf, Bool.and_eq_true, decide_eq_true_eq, bne_iff_ne, ne_eq, List.mem_cons]
    rw [ih d]
    constructor
    · rintro ⟨⟨hlt, hv⟩, hd, hdv, hall, hrest⟩
      refine ⟨by omega, hv, ?_, hd, hdv, hall, hrest⟩
      rintro e (rfl | he)
      · exact hlt
      · exact hlt.trans (hall e he)
    · rintro ⟨_, hv, hall, hd, hdv, hdall, hrest⟩
      exact ⟨⟨hall d (Or.inl rfl), hv⟩, hd, hdv, hdall, hrest⟩

@[simp] theorem Memory.wf_nil : Memory.wf [] = true := rfl

@[simp] theorem Memory.read_nil (a : Nat) : Memory.read [] a = Memory.unlisted := rfl

theorem Memory.read_cons (k : Nat) (v : Word) (rest : Memory) (a : Nat) :
    Memory.read ((k, v) :: rest) a =
      if a = k then v else if a < k then Memory.unlisted else Memory.read rest a := rfl

/-- An address below every listed one reads as an unlisted address does. -/
theorem Memory.read_below {m : Memory} {a : Nat} (h : ∀ d ∈ m, a < d.1) : m.read a = Memory.unlisted := by
  cases m with
  | nil => rfl
  | cons c rest =>
    obtain ⟨k, v⟩ := c
    have hk : a < k := h (k, v) (by simp)
    rw [Memory.read_cons, if_neg (by omega), if_pos hk]

/-- Reading through `Memory.cons`. -/
theorem Memory.read_cons_canonical {rest : Memory} {a : Nat} (v : Word) (h : ∀ d ∈ rest, a < d.1) (b : Nat) :
    (Memory.cons a v rest).read b = if b = a then v else rest.read b := by
  unfold Memory.cons
  split
  · next hv =>
    split
    · next hb => rw [hb, hv, Memory.read_below h]
    · rfl
  · rw [Memory.read_cons]
    split
    · rfl
    · split
      · next hlt => rw [Memory.read_below fun d hd => hlt.trans (h d hd)]
      · rfl

/-- What a write does to every read (R58, R59). -/
theorem Memory.read_write {m : Memory} (hm : m.wf = true) (a : Nat) (v : Word) (b : Nat) :
    (m.write a v).read b = if b = a then v else m.read b := by
  induction m with
  | nil => exact Memory.read_cons_canonical v (by simp) b
  | cons c rest ih =>
    obtain ⟨k, w⟩ := c
    obtain ⟨_, _, hall, hrest⟩ := (Memory.wf_cons _ _).1 hm
    simp only [Memory.write]
    split
    · next hak =>
      refine Memory.read_cons_canonical v ?_ b
      rintro d hd
      obtain rfl | hd := List.mem_cons.1 hd
      · exact hak
      · exact hak.trans (hall d hd)
    · split
      · next hak =>
        subst hak
        rw [Memory.read_cons_canonical v hall, Memory.read_cons]
        split
        · rfl
        · split
          · next hlt => exact Memory.read_below fun d hd => hlt.trans (hall d hd)
          · rfl
      · rw [Memory.read_cons, Memory.read_cons, ih hrest]
        grind

theorem Memory.mem_cons_canonical {a : Nat} {v : Word} {rest : Memory} {d : Nat × Word}
    (h : d ∈ Memory.cons a v rest) : d.1 = a ∨ d ∈ rest := by
  unfold Memory.cons at h
  split at h
  · exact Or.inr h
  · obtain rfl | h := List.mem_cons.1 h
    · exact Or.inl rfl
    · exact Or.inr h

theorem Memory.mem_write {m : Memory} {a : Nat} {v : Word} {d : Nat × Word}
    (h : d ∈ m.write a v) : d.1 = a ∨ d ∈ m := by
  induction m with
  | nil => exact Memory.mem_cons_canonical h
  | cons c rest ih =>
    obtain ⟨k, w⟩ := c
    simp only [Memory.write] at h
    split at h
    · exact Memory.mem_cons_canonical h
    · split at h
      · exact (Memory.mem_cons_canonical h).imp_right (List.mem_cons_of_mem _)
      · obtain rfl | h := List.mem_cons.1 h
        · exact Or.inr (by simp)
        · exact (ih h).imp_right (List.mem_cons_of_mem _)

theorem Memory.wf_cons_canonical {a : Nat} {rest : Memory} (v : Word) (ha : a < Config.memWords)
    (hall : ∀ d ∈ rest, a < d.1) (hrest : rest.wf = true) : (Memory.cons a v rest).wf = true := by
  unfold Memory.cons
  split
  · exact hrest
  · next hv => exact (Memory.wf_cons _ _).2 ⟨ha, hv, hall, hrest⟩

/-- A write at an address of the address space keeps the canonical form. -/
theorem Memory.wf_write {m : Memory} (hm : m.wf = true) {a : Nat} (ha : a < Config.memWords) (v : Word) :
    (m.write a v).wf = true := by
  induction m with
  | nil => exact Memory.wf_cons_canonical v ha (by simp) rfl
  | cons c rest ih =>
    obtain ⟨k, w⟩ := c
    obtain ⟨hk, hw, hall, hrest⟩ := (Memory.wf_cons _ _).1 hm
    simp only [Memory.write]
    split
    · next hak =>
      refine Memory.wf_cons_canonical v ha ?_ hm
      rintro d hd
      obtain rfl | hd := List.mem_cons.1 hd
      · exact hak
      · exact hak.trans (hall d hd)
    · split
      · next hak =>
        subst hak
        exact Memory.wf_cons_canonical v ha hall hrest
      · next hlt hne =>
        refine (Memory.wf_cons _ _).2 ⟨hk, hw, ?_, ih hrest⟩
        intro d hd
        obtain he | hd := Memory.mem_write hd
        · show k < d.1
          omega
        · exact hall d hd

/-- Two memories in canonical form that read alike everywhere are the same data. -/
theorem Memory.eq_of_read_eq {m n : Memory} (hm : m.wf = true) (hn : n.wf = true)
    (h : ∀ a, m.read a = n.read a) : m = n := by
  induction m generalizing n with
  | nil =>
    cases n with
    | nil => rfl
    | cons d n =>
      obtain ⟨k, v⟩ := d
      have hv := ((Memory.wf_cons _ _).1 hn).2.1
      have := h k
      rw [Memory.read_cons, if_pos rfl] at this
      exact absurd this.symm hv
  | cons c m ih =>
    obtain ⟨j, u⟩ := c
    obtain ⟨_, hu, hjall, hm'⟩ := (Memory.wf_cons _ _).1 hm
    cases n with
    | nil =>
      have := h j
      rw [Memory.read_cons, if_pos rfl] at this
      exact absurd this hu
    | cons d n =>
      obtain ⟨k, v⟩ := d
      obtain ⟨_, hv, hkall, hn'⟩ := (Memory.wf_cons _ _).1 hn
      have hjk : j = k := by
        rcases Nat.lt_trichotomy j k with hlt | heq | hlt
        · have := h j
          rw [Memory.read_cons, Memory.read_cons, if_pos rfl, if_neg (by omega), if_pos hlt] at this
          exact absurd this hu
        · exact heq
        · have := h k
          rw [Memory.read_cons, Memory.read_cons, if_pos rfl, if_neg (by omega), if_pos hlt] at this
          exact absurd this.symm hv
      subst hjk
      have huv : u = v := by
        have := h j
        rwa [Memory.read_cons, Memory.read_cons, if_pos rfl, if_pos rfl] at this
      subst huv
      have hmn : m = n := by
        refine ih hm' hn' fun a => ?_
        rcases Nat.lt_trichotomy a j with hlt | heq | hlt
        · rw [Memory.read_below fun d hd => hlt.trans (hjall d hd),
            Memory.read_below fun d hd => hlt.trans (hkall d hd)]
        · rw [heq, Memory.read_below hjall, Memory.read_below hkall]
        · have := h a
          rwa [Memory.read_cons, Memory.read_cons, if_neg (by omega), if_neg (by omega), if_neg (by omega),
            if_neg (by omega)] at this
      rw [hmn]

/-- An address is an index of memory. -/
theorem addr_lt_memWords (a : Word) : a.toNat < Config.memWords := a.isLt

end Sys2Proof.Machine
end

