-- ==== Sys2Proof/Laws/State.lean ====
section
/-! SUPPORT. One lemma per field per update of State, each true by rfl, so that no later proof unfolds a record update;
and the register file's read after write. -/

namespace Sys2Proof.Machine

/-- Read after write in the register file: the register written, and every other as before (R21). -/
theorem Regs.get_set (x : Regs) (d i : Reg) (v : Word) : (x.set d v).get i = if i = d then v else x.get i := by
  cases d <;> cases i <;> rfl

/-- Two register files that read alike are equal. -/
theorem Regs.eq_of_get_eq {x y : Regs} (h : ∀ i, x.get i = y.get i) : x = y := by
  cases x
  cases y
  have h0 := h .r0
  have h1 := h .r1
  have h2 := h .r2
  have h3 := h .r3
  have h4 := h .r4
  have h5 := h .r5
  have h6 := h .r6
  have h7 := h .r7
  simp only [Regs.get] at h0 h1 h2 h3 h4 h5 h6 h7
  simp only [h0, h1, h2, h3, h4, h5, h6, h7]

variable (s : State)

@[simp] theorem State.setReg_regs (i : Reg) (v : Word) : (s.setReg i v).regs = s.regs.set i v := rfl
@[simp] theorem State.setReg_pc (i : Reg) (v : Word) : (s.setReg i v).pc = s.pc := rfl
@[simp] theorem State.setReg_cond (i : Reg) (v : Word) : (s.setReg i v).cond = s.cond := rfl
@[simp] theorem State.setReg_run (i : Reg) (v : Word) : (s.setReg i v).run = s.run := rfl
@[simp] theorem State.setReg_mem (i : Reg) (v : Word) : (s.setReg i v).mem = s.mem := rfl
@[simp] theorem State.setReg_console (i : Reg) (v : Word) : (s.setReg i v).console = s.console := rfl
@[simp] theorem State.setReg_pending (i : Reg) (v : Word) : (s.setReg i v).pending = s.pending := rfl
@[simp] theorem State.setReg_params (i : Reg) (v : Word) : (s.setReg i v).params = s.params := rfl

@[simp] theorem State.setPc_regs (t : Word) : (s.setPc t).regs = s.regs := rfl
@[simp] theorem State.setPc_pc (t : Word) : (s.setPc t).pc = t := rfl
@[simp] theorem State.setPc_cond (t : Word) : (s.setPc t).cond = s.cond := rfl
@[simp] theorem State.setPc_run (t : Word) : (s.setPc t).run = s.run := rfl
@[simp] theorem State.setPc_mem (t : Word) : (s.setPc t).mem = s.mem := rfl
@[simp] theorem State.setPc_console (t : Word) : (s.setPc t).console = s.console := rfl
@[simp] theorem State.setPc_pending (t : Word) : (s.setPc t).pending = s.pending := rfl
@[simp] theorem State.setPc_params (t : Word) : (s.setPc t).params = s.params := rfl

@[simp] theorem State.setCond_regs (c : Cond) : (s.setCond c).regs = s.regs := rfl
@[simp] theorem State.setCond_pc (c : Cond) : (s.setCond c).pc = s.pc := rfl
@[simp] theorem State.setCond_cond (c : Cond) : (s.setCond c).cond = c := rfl
@[simp] theorem State.setCond_run (c : Cond) : (s.setCond c).run = s.run := rfl
@[simp] theorem State.setCond_mem (c : Cond) : (s.setCond c).mem = s.mem := rfl
@[simp] theorem State.setCond_console (c : Cond) : (s.setCond c).console = s.console := rfl
@[simp] theorem State.setCond_pending (c : Cond) : (s.setCond c).pending = s.pending := rfl
@[simp] theorem State.setCond_params (c : Cond) : (s.setCond c).params = s.params := rfl

@[simp] theorem State.setRun_regs (r : RunState) : (s.setRun r).regs = s.regs := rfl
@[simp] theorem State.setRun_pc (r : RunState) : (s.setRun r).pc = s.pc := rfl
@[simp] theorem State.setRun_cond (r : RunState) : (s.setRun r).cond = s.cond := rfl
@[simp] theorem State.setRun_run (r : RunState) : (s.setRun r).run = r := rfl
@[simp] theorem State.setRun_mem (r : RunState) : (s.setRun r).mem = s.mem := rfl
@[simp] theorem State.setRun_console (r : RunState) : (s.setRun r).console = s.console := rfl
@[simp] theorem State.setRun_pending (r : RunState) : (s.setRun r).pending = s.pending := rfl
@[simp] theorem State.setRun_params (r : RunState) : (s.setRun r).params = s.params := rfl

@[simp] theorem State.setPending_regs (p : Option Pending) : (s.setPending p).regs = s.regs := rfl
@[simp] theorem State.setPending_pc (p : Option Pending) : (s.setPending p).pc = s.pc := rfl
@[simp] theorem State.setPending_cond (p : Option Pending) : (s.setPending p).cond = s.cond := rfl
@[simp] theorem State.setPending_run (p : Option Pending) : (s.setPending p).run = s.run := rfl
@[simp] theorem State.setPending_mem (p : Option Pending) : (s.setPending p).mem = s.mem := rfl
@[simp] theorem State.setPending_console (p : Option Pending) : (s.setPending p).console = s.console := rfl
@[simp] theorem State.setPending_pending (p : Option Pending) : (s.setPending p).pending = p := rfl
@[simp] theorem State.setPending_params (p : Option Pending) : (s.setPending p).params = s.params := rfl

@[simp] theorem State.putWord_regs (a v : Word) : (s.putWord a v).regs = s.regs := rfl
@[simp] theorem State.putWord_pc (a v : Word) : (s.putWord a v).pc = s.pc := rfl
@[simp] theorem State.putWord_cond (a v : Word) : (s.putWord a v).cond = s.cond := rfl
@[simp] theorem State.putWord_run (a v : Word) : (s.putWord a v).run = s.run := rfl
@[simp] theorem State.putWord_mem (a v : Word) : (s.putWord a v).mem = s.mem.write a.toNat v := rfl
@[simp] theorem State.putWord_console (a v : Word) : (s.putWord a v).console = s.console := rfl
@[simp] theorem State.putWord_pending (a v : Word) : (s.putWord a v).pending = s.pending := rfl
@[simp] theorem State.putWord_params (a v : Word) : (s.putWord a v).params = s.params := rfl

@[simp] theorem State.setConsole_regs (c : Console) : (s.setConsole c).regs = s.regs := rfl
@[simp] theorem State.setConsole_pc (c : Console) : (s.setConsole c).pc = s.pc := rfl
@[simp] theorem State.setConsole_cond (c : Console) : (s.setConsole c).cond = s.cond := rfl
@[simp] theorem State.setConsole_run (c : Console) : (s.setConsole c).run = s.run := rfl
@[simp] theorem State.setConsole_mem (c : Console) : (s.setConsole c).mem = s.mem := rfl
@[simp] theorem State.setConsole_console (c : Console) : (s.setConsole c).console = c := rfl
@[simp] theorem State.setConsole_pending (c : Console) : (s.setConsole c).pending = s.pending := rfl
@[simp] theorem State.setConsole_params (c : Console) : (s.setConsole c).params = s.params := rfl

@[simp] theorem State.raise_regs (c : Fault) : (s.raise c).regs = s.regs := rfl
@[simp] theorem State.raise_pc (c : Fault) : (s.raise c).pc = s.pc := rfl
@[simp] theorem State.raise_cond (c : Fault) : (s.raise c).cond = s.cond := rfl
@[simp] theorem State.raise_run (c : Fault) : (s.raise c).run = .faulted c := rfl
@[simp] theorem State.raise_mem (c : Fault) : (s.raise c).mem = s.mem := rfl
@[simp] theorem State.raise_console (c : Fault) : (s.raise c).console = s.console := rfl
@[simp] theorem State.raise_pending (c : Fault) : (s.raise c).pending = s.pending := rfl
@[simp] theorem State.raise_params (c : Fault) : (s.raise c).params = s.params := rfl

@[simp] theorem State.start_regs : (s.start).regs = s.regs := rfl
@[simp] theorem State.start_pc : (s.start).pc = s.pc := rfl
@[simp] theorem State.start_cond : (s.start).cond = s.cond := rfl
@[simp] theorem State.start_run : (s.start).run = .running := rfl
@[simp] theorem State.start_mem : (s.start).mem = s.mem := rfl
@[simp] theorem State.start_console : (s.start).console = s.console := rfl
@[simp] theorem State.start_pending : (s.start).pending = s.pending := rfl
@[simp] theorem State.start_params : (s.start).params = s.params := rfl

@[simp] theorem State.park_regs (p : Pending) : (s.park p).regs = s.regs := rfl
@[simp] theorem State.park_pc (p : Pending) : (s.park p).pc = s.pc := rfl
@[simp] theorem State.park_cond (p : Pending) : (s.park p).cond = s.cond := rfl
@[simp] theorem State.park_run (p : Pending) : (s.park p).run = s.run := rfl
@[simp] theorem State.park_mem (p : Pending) : (s.park p).mem = s.mem := rfl
@[simp] theorem State.park_console (p : Pending) : (s.park p).console = s.console := rfl
@[simp] theorem State.park_pending (p : Pending) : (s.park p).pending = some p := rfl
@[simp] theorem State.park_params (p : Pending) : (s.park p).params = s.params := rfl

/-! ## Reading a register or a word after an update -/

theorem State.reg_setReg (d i : Reg) (v : Word) : (s.setReg d v).reg i = if i = d then v else s.reg i :=
  Regs.get_set s.regs d i v

@[simp] theorem State.reg_setReg_same (d : Reg) (v : Word) : (s.setReg d v).reg d = v := by
  rw [State.reg_setReg, if_pos rfl]

@[simp] theorem State.reg_setPc (t : Word) (i : Reg) : (s.setPc t).reg i = s.reg i := rfl
@[simp] theorem State.reg_setCond (c : Cond) (i : Reg) : (s.setCond c).reg i = s.reg i := rfl
@[simp] theorem State.reg_setRun (r : RunState) (i : Reg) : (s.setRun r).reg i = s.reg i := rfl
@[simp] theorem State.reg_setPending (p : Option Pending) (i : Reg) : (s.setPending p).reg i = s.reg i := rfl
@[simp] theorem State.reg_putWord (a v : Word) (i : Reg) : (s.putWord a v).reg i = s.reg i := rfl
@[simp] theorem State.reg_setConsole (c : Console) (i : Reg) : (s.setConsole c).reg i = s.reg i := rfl
@[simp] theorem State.reg_raise (c : Fault) (i : Reg) : (s.raise c).reg i = s.reg i := rfl
@[simp] theorem State.reg_park (p : Pending) (i : Reg) : (s.park p).reg i = s.reg i := rfl

@[simp] theorem State.word_setReg (d : Reg) (v a : Word) : (s.setReg d v).word a = s.word a := rfl
@[simp] theorem State.word_setPc (t a : Word) : (s.setPc t).word a = s.word a := rfl
@[simp] theorem State.word_setCond (c : Cond) (a : Word) : (s.setCond c).word a = s.word a := rfl
@[simp] theorem State.word_setRun (r : RunState) (a : Word) : (s.setRun r).word a = s.word a := rfl
@[simp] theorem State.word_setPending (p : Option Pending) (a : Word) : (s.setPending p).word a = s.word a := rfl
@[simp] theorem State.word_setConsole (c : Console) (a : Word) : (s.setConsole c).word a = s.word a := rfl
@[simp] theorem State.word_raise (c : Fault) (a : Word) : (s.raise c).word a = s.word a := rfl
@[simp] theorem State.word_park (p : Pending) (a : Word) : (s.park p).word a = s.word a := rfl

end Sys2Proof.Machine
end

