-- ==== Sys2Proof/Laws/Ops.lean ====
section
/-! SUPPORT. What the shared operations can do, said once each: the console calls, `memRead`, the continuations, the
write of several bytes, and the string loop.  Proofs cite these and do not unfold the operations. -/

namespace Sys2Proof.Machine

variable (s : State)

/-! ## The console -/

@[simp] theorem Console.poll_out (c : Console) : c.poll.2.out = c.out := by
  unfold Console.poll
  split <;> rfl

@[simp] theorem Console.poll_keys (c : Console) : c.poll.2.keys = c.keys := by
  unfold Console.poll
  split <;> rfl

@[simp] theorem Console.poll_writes (c : Console) : c.poll.2.writes = c.writes := by
  unfold Console.poll
  split <;> rfl

@[simp] theorem Console.takeKey_out (c : Console) : c.takeKey.2.out = c.out := by
  unfold Console.takeKey
  split <;> rfl

@[simp] theorem Console.takeKey_polls (c : Console) : c.takeKey.2.polls = c.polls := by
  unfold Console.takeKey
  split <;> rfl

@[simp] theorem Console.takeKey_writes (c : Console) : c.takeKey.2.writes = c.writes := by
  unfold Console.takeKey
  split <;> rfl

/-- Everything a write can do: it is accepted and the byte is appended, or it fails and nothing is (R82, R84). -/
theorem Console.writeByte_cases (c : Console) (b : Byte) :
    ((c.writeByte b).1 = .done ∧ (c.writeByte b).2 = { c with writes := c.writes.tail, out := c.out ++ [b] }) ∨
    ((c.writeByte b).1 = .fails ∧ (c.writeByte b).2 = { c with writes := c.writes.tail }) := by
  unfold Console.writeByte
  split
  · next h => exact Or.inl ⟨rfl, by rw [h]; rfl⟩
  · next h => exact Or.inl ⟨rfl, by rw [h]; rfl⟩
  · next h => exact Or.inr ⟨rfl, by rw [h]; rfl⟩

@[simp] theorem keyAvailable_regs : (keyAvailable s).2.regs = s.regs := rfl
@[simp] theorem keyAvailable_pc : (keyAvailable s).2.pc = s.pc := rfl
@[simp] theorem keyAvailable_cond : (keyAvailable s).2.cond = s.cond := rfl
@[simp] theorem keyAvailable_run : (keyAvailable s).2.run = s.run := rfl
@[simp] theorem keyAvailable_mem : (keyAvailable s).2.mem = s.mem := rfl
@[simp] theorem keyAvailable_pending : (keyAvailable s).2.pending = s.pending := rfl
@[simp] theorem keyAvailable_params : (keyAvailable s).2.params = s.params := rfl

@[simp] theorem readKey_regs : (readKey s).2.regs = s.regs := rfl
@[simp] theorem readKey_pc : (readKey s).2.pc = s.pc := rfl
@[simp] theorem readKey_cond : (readKey s).2.cond = s.cond := rfl
@[simp] theorem readKey_run : (readKey s).2.run = s.run := rfl
@[simp] theorem readKey_mem : (readKey s).2.mem = s.mem := rfl
@[simp] theorem readKey_pending : (readKey s).2.pending = s.pending := rfl
@[simp] theorem readKey_params : (readKey s).2.params = s.params := rfl

@[simp] theorem writeByte_regs (b : Byte) : (writeByte b s).2.regs = s.regs := rfl
@[simp] theorem writeByte_pc (b : Byte) : (writeByte b s).2.pc = s.pc := rfl
@[simp] theorem writeByte_cond (b : Byte) : (writeByte b s).2.cond = s.cond := rfl
@[simp] theorem writeByte_run (b : Byte) : (writeByte b s).2.run = s.run := rfl
@[simp] theorem writeByte_mem (b : Byte) : (writeByte b s).2.mem = s.mem := rfl
@[simp] theorem writeByte_pending (b : Byte) : (writeByte b s).2.pending = s.pending := rfl
@[simp] theorem writeByte_params (b : Byte) : (writeByte b s).2.params = s.params := rfl

@[simp] theorem keyAvailable_out : (keyAvailable s).2.console.out = s.console.out := Console.poll_out _
@[simp] theorem readKey_out : (readKey s).2.console.out = s.console.out := Console.takeKey_out _

/-- A property that every written byte keeps is kept by the write of several. -/
theorem writeBytes_keeps {P : State → Prop} (h : ∀ b t, P t → P (writeByte b t).2) (bs : List Byte) (hs : P s) :
    P (writeBytes bs s).2 := by
  induction bs generalizing s with
  | nil => exact hs
  | cons b bs ih =>
    have hb := h b s hs
    unfold writeBytes
    split
    · next t ht => exact ih t (by simpa [ht] using hb)
    · next t ht => simpa [ht] using hb

@[simp] theorem writeBytes_regs (bs : List Byte) : (writeBytes bs s).2.regs = s.regs :=
  writeBytes_keeps s (P := fun t => t.regs = s.regs) (fun _ _ h => h) bs rfl

@[simp] theorem writeBytes_pc (bs : List Byte) : (writeBytes bs s).2.pc = s.pc :=
  writeBytes_keeps s (P := fun t => t.pc = s.pc) (fun _ _ h => h) bs rfl

@[simp] theorem writeBytes_cond (bs : List Byte) : (writeBytes bs s).2.cond = s.cond :=
  writeBytes_keeps s (P := fun t => t.cond = s.cond) (fun _ _ h => h) bs rfl

@[simp] theorem writeBytes_run (bs : List Byte) : (writeBytes bs s).2.run = s.run :=
  writeBytes_keeps s (P := fun t => t.run = s.run) (fun _ _ h => h) bs rfl

@[simp] theorem writeBytes_mem (bs : List Byte) : (writeBytes bs s).2.mem = s.mem :=
  writeBytes_keeps s (P := fun t => t.mem = s.mem) (fun _ _ h => h) bs rfl

@[simp] theorem writeBytes_pending (bs : List Byte) : (writeBytes bs s).2.pending = s.pending :=
  writeBytes_keeps s (P := fun t => t.pending = s.pending) (fun _ _ h => h) bs rfl

@[simp] theorem writeBytes_params (bs : List Byte) : (writeBytes bs s).2.params = s.params :=
  writeBytes_keeps s (P := fun t => t.params = s.params) (fun _ _ h => h) bs rfl

/-- The bytes of a write of several are a prefix of them, all of them when the write is done (R82, R84). -/
theorem writeBytes_out (bs : List Byte) :
    ∃ done rest, bs = done ++ rest ∧ (writeBytes bs s).2.console.out = s.console.out ++ done ∧
      ((writeBytes bs s).1 = .done → rest = []) := by
  induction bs generalizing s with
  | nil => exact ⟨[], [], rfl, (List.append_nil _).symm, fun _ => rfl⟩
  | cons b bs ih =>
    obtain ⟨h1, h2⟩ | ⟨h1, h2⟩ := s.console.writeByte_cases b
    · have hw : writeBytes (b :: bs) s = writeBytes bs (writeByte b s).2 := by
        simp [writeBytes, writeByte, h1]
      obtain ⟨done, rest, hsplit, hout, hall⟩ := ih (writeByte b s).2
      refine ⟨b :: done, rest, by rw [hsplit]; rfl, ?_, by rw [hw]; exact hall⟩
      rw [hw, hout]
      simp [writeByte, h2]
    · have hw : writeBytes (b :: bs) s = (.fails, (writeByte b s).2) := by
        simp [writeBytes, writeByte, h1]
      exact ⟨[], b :: bs, rfl, by rw [hw]; simp [writeByte, h2], by rw [hw]; simp⟩

/-- When the answers it takes are no failures, a write of several is done and appends them all. -/
theorem writeBytes_done (bs : List Byte) (h : ∀ w ∈ s.console.writes.take bs.length, w = .done) :
    writeBytes bs s =
      (.done, s.setConsole { s.console with writes := s.console.writes.drop bs.length, out := s.console.out ++ bs }) := by
  induction bs generalizing s with
  | nil => simp [writeBytes, State.setConsole]
  | cons b bs ih =>
    cases hw : s.console.writes with
    | nil =>
      have hs : writeBytes (b :: bs) s = writeBytes bs (s.setConsole { s.console with out := s.console.out ++ [b] }) := by
        simp [writeBytes, writeByte, Console.writeByte, hw]
      rw [hs, ih _ (by simp [hw])]
      simp [State.setConsole, hw]
    | cons a ws =>
      rw [hw] at h
      have ha : a = .done := h a (by simp)
      have hs : writeBytes (b :: bs) s =
          writeBytes bs (s.setConsole { s.console with writes := ws, out := s.console.out ++ [b] }) := by
        simp [writeBytes, writeByte, Console.writeByte, hw, ha]
      rw [hs, ih _ (fun w hm => h w (by simpa using Or.inr hm))]
      simp [State.setConsole]

/-! ## Memory through the arbiter -/

theorem State.word_putWord (hs : s.mem.wf = true) (a v b : Word) :
    (s.putWord a v).word b = if b = a then v else s.word b := by
  simp only [State.word, State.putWord_mem, Memory.read_write hs, BitVec.toNat_inj]

theorem State.wf_putWord (hs : s.mem.wf = true) (a v : Word) : (s.putWord a v).mem.wf = true :=
  Memory.wf_write hs (addr_lt_memWords a) v

/-- A property that the two keyboard words and the console's answers do not touch is kept by the end of a status
read. -/
theorem takeStatusKey_keeps {P : State → Prop} (hkey : ∀ t, P t → P (readKey t).2)
    (hput : ∀ v t, P t → P (t.putWord Config.kbdr v)) (hs : P s) : P (takeStatusKey s).2 := by
  have hk := hkey s hs
  unfold takeStatusKey
  split
  · next k t ht =>
    rw [ht] at hk
    exact hput _ _ hk
  · next t ht => rwa [ht] at hk
  · next t ht => rwa [ht] at hk

/-- A property that the two keyboard words and the console's answers do not touch is kept by every read (R55, R60,
R64). -/
theorem memRead_keeps {P : State → Prop} (hpoll : ∀ t, P t → P (keyAvailable t).2) (hkey : ∀ t, P t → P (readKey t).2)
    (hput : ∀ a v t, a = Config.kbsr ∨ a = Config.kbdr → P t → P (t.putWord a v)) (a : Word) (hs : P s) :
    P (memRead a s).2 := by
  unfold memRead
  split
  · have hp := hpoll s hs
    unfold readStatus
    split
    · next t ht =>
      rw [ht] at hp
      exact takeStatusKey_keeps _ hkey (fun v t h => hput _ v t (Or.inr rfl) h) (hput _ _ _ (Or.inl rfl) hp)
    · next t ht =>
      rw [ht] at hp
      exact hput _ _ _ (Or.inl rfl) hp
    · next t ht => rwa [ht] at hp
  · exact hs

/-- A read of any address but the status word gives the stored word and changes nothing (R57). -/
theorem memRead_plain {a : Word} (h : a ≠ Config.kbsr) : memRead a s = (.value (s.word a), s) := by
  unfold memRead
  exact if_neg h

theorem memRead_status : memRead Config.kbsr s = readStatus s := by
  unfold memRead
  exact if_pos rfl

@[simp] theorem memRead_regs (a : Word) : (memRead a s).2.regs = s.regs :=
  memRead_keeps s (P := fun t => t.regs = s.regs) (fun _ h => h) (fun _ h => h) (fun _ _ _ _ h => h) a rfl

@[simp] theorem takeStatusKey_regs : (takeStatusKey s).2.regs = s.regs :=
  takeStatusKey_keeps s (P := fun t => t.regs = s.regs) (fun _ h => h) (fun _ _ h => h) rfl

@[simp] theorem memRead_pc (a : Word) : (memRead a s).2.pc = s.pc :=
  memRead_keeps s (P := fun t => t.pc = s.pc) (fun _ h => h) (fun _ h => h) (fun _ _ _ _ h => h) a rfl

@[simp] theorem takeStatusKey_pc : (takeStatusKey s).2.pc = s.pc :=
  takeStatusKey_keeps s (P := fun t => t.pc = s.pc) (fun _ h => h) (fun _ _ h => h) rfl

@[simp] theorem memRead_cond (a : Word) : (memRead a s).2.cond = s.cond :=
  memRead_keeps s (P := fun t => t.cond = s.cond) (fun _ h => h) (fun _ h => h) (fun _ _ _ _ h => h) a rfl

@[simp] theorem takeStatusKey_cond : (takeStatusKey s).2.cond = s.cond :=
  takeStatusKey_keeps s (P := fun t => t.cond = s.cond) (fun _ h => h) (fun _ _ h => h) rfl

@[simp] theorem memRead_run (a : Word) : (memRead a s).2.run = s.run :=
  memRead_keeps s (P := fun t => t.run = s.run) (fun _ h => h) (fun _ h => h) (fun _ _ _ _ h => h) a rfl

@[simp] theorem takeStatusKey_run : (takeStatusKey s).2.run = s.run :=
  takeStatusKey_keeps s (P := fun t => t.run = s.run) (fun _ h => h) (fun _ _ h => h) rfl

@[simp] theorem memRead_pending (a : Word) : (memRead a s).2.pending = s.pending :=
  memRead_keeps s (P := fun t => t.pending = s.pending) (fun _ h => h) (fun _ h => h) (fun _ _ _ _ h => h) a rfl

@[simp] theorem memRead_params (a : Word) : (memRead a s).2.params = s.params :=
  memRead_keeps s (P := fun t => t.params = s.params) (fun _ h => h) (fun _ h => h) (fun _ _ _ _ h => h) a rfl

@[simp] theorem takeStatusKey_pending : (takeStatusKey s).2.pending = s.pending :=
  takeStatusKey_keeps s (P := fun t => t.pending = s.pending) (fun _ h => h) (fun _ _ h => h) rfl

@[simp] theorem takeStatusKey_params : (takeStatusKey s).2.params = s.params :=
  takeStatusKey_keeps s (P := fun t => t.params = s.params) (fun _ h => h) (fun _ _ h => h) rfl

@[simp] theorem memRead_out (a : Word) : (memRead a s).2.console.out = s.console.out :=
  memRead_keeps s (P := fun t => t.console.out = s.console.out) (fun t h => (keyAvailable_out t).trans h)
    (fun t h => (readKey_out t).trans h) (fun _ _ _ _ h => h) a rfl

@[simp] theorem takeStatusKey_out : (takeStatusKey s).2.console.out = s.console.out :=
  takeStatusKey_keeps s (P := fun t => t.console.out = s.console.out) (fun t h => (readKey_out t).trans h)
    (fun _ _ h => h) rfl

theorem memRead_wf (hs : s.mem.wf = true) (a : Word) : (memRead a s).2.mem.wf = true :=
  memRead_keeps s (P := fun t => t.mem.wf = true) (fun _ h => h) (fun _ h => h)
    (fun a v t _ h => State.wf_putWord t h a v) a hs

theorem takeStatusKey_wf (hs : s.mem.wf = true) : (takeStatusKey s).2.mem.wf = true :=
  takeStatusKey_keeps s (P := fun t => t.mem.wf = true) (fun _ h => h) (fun v t h => State.wf_putWord t h _ v) hs

/-- A read changes no word but the two keyboard words (R60, R64). -/
theorem memRead_word (hs : s.mem.wf = true) (a : Word) {b : Word} (h1 : b ≠ Config.kbsr) (h2 : b ≠ Config.kbdr) :
    (memRead a s).2.word b = s.word b :=
  (memRead_keeps s (P := fun t => t.mem.wf = true ∧ t.word b = s.word b) (fun _ h => h) (fun _ h => h)
    (fun a v t ha h => ⟨State.wf_putWord t h.1 a v, by
      rw [State.word_putWord t h.1, if_neg (by rintro rfl; exact ha.elim h1 h2), h.2]⟩) a ⟨hs, rfl⟩).2

/-! ## Flags -/

/-- A key byte, zero-extended, is never negative (R171). -/
theorem condOf_zext8 (k : Byte) : condOf (zext8 k) = if k = 0x00 then .zro else .pos := by
  revert k
  decide

/-- What a write of a destination register with its flags does: DR, `cond` from the value, and nothing else (R28,
R29). -/
theorem State.setRegCc_eq (d : Reg) (v : Word) :
    s.setRegCc d v = { s with regs := s.regs.set d v, cond := condOf v } := by
  simp only [State.setRegCc, State.setcc, State.reg_setReg_same]
  rfl

/-- The flag of the value in the destination register after the write (R28). -/
theorem State.setRegCc_cond (d : Reg) (v : Word) : (s.setRegCc d v).cond = condOf ((s.setRegCc d v).reg d) := rfl

/-- The test of BR on each flag (R140). -/
theorem branchTaken_iff (flags : BitVec 3) (c : Cond) : branchTaken flags c = true ↔ flags &&& c.bits ≠ 0 := by
  unfold branchTaken
  rw [bne_iff_ne]

/-! ## The continuations: what each can answer -/

/-- A property of every way to go on is a property of `finishRead`. -/
theorem finishRead_elim {P : State → Prop} (use : ReadUse) (k : Word → State → State) (r : ReadResult × State)
    (hv : ∀ v, r.1 = .value v → P (k v r.2)) (hw : P (r.2.park (.statusKey use))) (hf : P (r.2.raise .ioFailure)) :
    P (finishRead use k r) := by
  obtain ⟨r, t⟩ := r
  cases r with
  | value v => exact hv v rfl
  | waits => exact hw
  | fails => exact hf

theorem finishKey_elim {P : State → Prop} (p : Pending) (k : Byte → State → State) (r : KeyAnswer × State)
    (hb : ∀ b, r.1 = .byte b → P (k b r.2)) (hw : P (r.2.park p)) (hf : P (r.2.raise .ioFailure)) :
    P (finishKey p k r) := by
  obtain ⟨r, t⟩ := r
  cases r with
  | byte b => exact hb b rfl
  | notYet => exact hw
  | fails => exact hf

theorem finishWrite_elim {P : State → Prop} (k : State → State) (r : WriteAnswer × State)
    (hd : r.1 = .done → P (k r.2)) (hf : P (r.2.raise .ioFailure)) : P (finishWrite k r) := by
  obtain ⟨r, t⟩ := r
  cases r with
  | done => exact hd rfl
  | fails => exact hf

/-! ## The string loop -/

/-- One turn of the loop keeps what a read, a write, a wait, a failure and the rest of the loop keep. -/
theorem stringTurn_keeps {P : State → Prop} (service : StringService) (a : Word) (rest : Word → State → State)
    (r : ReadResult × State) (hwrite : ∀ b t, P t → P (writeByte b t).2) (hpark : ∀ p t, P t → P (t.park p))
    (hraise : ∀ t, P t → P (t.raise .ioFailure)) (hrest : ∀ b t, P t → P (rest b t)) (hr : P r.2) :
    P (stringTurn service a rest r) := by
  refine finishRead_elim _ _ _ (fun w _ => ?_) (hpark _ _ hr) (hraise _ hr)
  show P (if w = 0x0000 then _ else _)
  split
  · exact hr
  · have hb := writeBytes_keeps r.2 hwrite (service.bytes w) hr
    exact finishWrite_elim _ _ (fun _ => hrest _ _ hb) (hraise _ hb)

/-- The loop keeps what a read, a write, a wait and a failure keep. -/
theorem stringLoop_keeps {P : State → Prop} (service : StringService) (n : Nat) (a : Word) (r : ReadResult × State)
    (hread : ∀ b t, P t → P (memRead b t).2) (hwrite : ∀ b t, P t → P (writeByte b t).2)
    (hpark : ∀ p t, P t → P (t.park p)) (hraise : ∀ t, P t → P (t.raise .ioFailure)) (hr : P r.2) :
    P (stringLoop service n a r) := by
  induction n generalizing a r with
  | zero => exact stringTurn_keeps service a _ r hwrite hpark hraise (fun _ t h => hpark _ t h) hr
  | succ n ih =>
    exact stringTurn_keeps service a _ r hwrite hpark hraise (fun b t h => ih b _ (hread b t h)) hr

/-- The loop at a terminator is done (R173, R175). -/
theorem stringLoop_zero_word (service : StringService) (n : Nat) (a : Word) (t : State) :
    stringLoop service n a (.value 0x0000, t) = t := by
  cases n <;> rfl

/-- The loop at a word that is not the terminator writes its bytes and goes on at the next address (R173, R175). -/
theorem stringLoop_succ_word (service : StringService) (n : Nat) (a : Word) {w : Word} (hw : w ≠ 0x0000) (t : State) :
    stringLoop service (n + 1) a (.value w, t) =
      finishWrite (fun u => stringLoop service n (a + 1) (memRead (a + 1) u)) (writeBytes (service.bytes w) t) := by
  show (if w = 0x0000 then t else _) = _
  rw [if_neg hw]

end Sys2Proof.Machine
end

