-- ==== Sys2Proof/Laws/Exec.lean ====
section
/-! SUPPORT. What one instruction and one step can do, said once: a property that the named operations keep is kept by
`exec` and by `step`; two states that the named operations keep related are kept related by them. -/

namespace Sys2Proof.Machine

open Sys2Proof.Statements

/-! ## Writing several bytes -/

/-- A failing write ends the text after the bytes before it. -/
theorem writeBytes_fails (bs : List Byte) (s : State) (n : Nat) (rest : List WriteAnswer)
    (h : s.console.writes = List.replicate n .done ++ .fails :: rest) (hn : n < bs.length) :
    writeBytes bs s =
      (.fails, s.setConsole { s.console with writes := rest, out := s.console.out ++ bs.take n }) := by
  induction bs generalizing s n with
  | nil => simp at hn
  | cons b bs ih =>
    cases n with
    | zero =>
      simp only [List.replicate, List.nil_append] at h
      simp [writeBytes, writeByte, Console.writeByte, h]
    | succ n =>
      simp only [List.replicate_succ, List.cons_append] at h
      simp only [writeBytes, writeByte, Console.writeByte, h]
      rw [ih _ n rfl (by simpa using hn)]
      simp [State.setConsole]

/-- As many accepted writes as there are bytes. -/
theorem writeBytes_exact (bs : List Byte) (s : State) (rest : List WriteAnswer)
    (h : s.console.writes = List.replicate bs.length .done ++ rest) :
    writeBytes bs s = (.done, s.setConsole { s.console with writes := rest, out := s.console.out ++ bs }) := by
  induction bs generalizing s with
  | nil => simp at h; simp [writeBytes, State.setConsole, ← h]
  | cons b bs ih =>
    simp only [List.length_cons, List.replicate_succ, List.cons_append] at h
    simp only [writeBytes, writeByte, Console.writeByte, h]
    rw [ih _ rfl]
    simp [State.setConsole]

/-! ## The loader's effect -/

/-- Loading an image keeps the canonical form of memory. -/
theorem loadImage_wf (origin : Word) (words : List Word) (s : State) (hs : s.mem.wf = true) :
    (loadImage origin words s).mem.wf = true := by
  induction words generalizing origin s with
  | nil => exact hs
  | cons w ws ih => exact ih _ _ (State.wf_putWord s hs _ _)

/-! ## One instruction -/

/-- What an instruction keeps: any property that each operation it may use keeps.  The premises name the operation and, where it
matters, the instructions that use it. -/
theorem exec_keeps {P : State → Prop} (i : Instr) (s t : State) (h : exec i s = .next t) (hs : P s)
    (hread : ∀ b t, P t → P (memRead b t).2) (hkey : ∀ t, P t → P (readKey t).2)
    (hwrite : ∀ b t, P t → P (writeByte b t).2) (hpark : ∀ p t, P t → P (t.park p))
    (hraise : ∀ t, P t → P (t.raise .ioFailure))
    (hfatal : ∀ c t, raisesAlways i = true → P t → P (t.raise c))
    (hcc : ∀ d v t, flagRegister i = some d → P t → P (t.setRegCc d v))
    (hlink : P s → (isTrap i = true ∨ (∃ o, i = .jsr o) ∨ ∃ b, i = .jsrr b) → P s.link)
    (hpc : ∀ v t, P t → ¬ isTrap i = true → flagRegister i = none → t.mem = s.mem → P (t.setPc v))
    (hst : ∀ a v t, storeAddress i s = some a → P t → P (memWrite a v t))
    (hhalt : ∀ t, i = .trapHalt → P t → P (t.setRun .halted)) : P t := by
  have hwb : ∀ bs t, P t → P (writeBytes bs t).2 := fun bs t h => writeBytes_keeps t hwrite bs h
  have hld : ∀ d r, flagRegister i = some d → P r.2 → P (loadFrom d r) := fun d r hd h =>
    finishRead_elim _ _ _ (fun v _ => hcc _ _ _ hd h) (hpark _ _ h) (hraise _ h)
  have hsl : ∀ sv n a r, P r.2 → P (stringLoop sv n a r) := fun sv n a r hr =>
    stringLoop_keeps sv n a r hread hwrite hpark hraise hr
  cases i <;> simp only [exec, Host.Outcome.next.injEq, execBr, execAddReg, execAddImm, execLd, execSt, execJsr, execJsrr, execAndReg, execAndImm,
    execLdr, execStr, execRti, execNot, execLdi, execSti, execJmp, execRes, execLea, execTrapGetc, execTrapOut, execTrapPuts,
    execTrapIn, execTrapPutsp, execTrapHalt, execTrapUnknown] at h <;> subst h
  case br f o =>
    cases branchTaken f s.cond
    · exact hs
    · exact hpc _ _ hs (by simp [isTrap]) rfl rfl
  case addReg => exact hcc _ _ _ rfl hs
  case addImm => exact hcc _ _ _ rfl hs
  case andReg => exact hcc _ _ _ rfl hs
  case andImm => exact hcc _ _ _ rfl hs
  case not => exact hcc _ _ _ rfl hs
  case lea => exact hcc _ _ _ rfl hs
  case ld => exact hld _ _ rfl (hread _ _ hs)
  case ldr => exact hld _ _ rfl (hread _ _ hs)
  case ldi =>
    exact finishRead_elim _ _ _ (fun v _ => hld _ _ rfl (hread _ _ (hread _ _ hs))) (hpark _ _ (hread _ _ hs))
        (hraise _ (hread _ _ hs))
  case st => exact hst _ _ _ rfl hs
  case str => exact hst _ _ _ rfl hs
  case sti sr o =>
    refine finishRead_elim _ _ _ (fun v hv => hst _ _ _ ?_ (hread _ _ hs)) (hpark _ _ (hread _ _ hs)) (hraise _
        (hread _ _ hs))
    simp only [storeAddress, hv]
  case jsr o => exact hpc _ _ (hlink hs (.inr (.inl ⟨_, rfl⟩))) (by simp [isTrap]) rfl rfl
  case jsrr o => exact hpc _ _ (hlink hs (.inr (.inr ⟨_, rfl⟩))) (by simp [isTrap]) rfl rfl
  case jmp o => exact hpc _ _ hs (by simp [isTrap]) rfl rfl
  case rti => exact hfatal _ _ rfl hs
  case res => exact hfatal _ _ rfl hs
  all_goals have hl := hlink hs (.inl rfl)
  case trapGetc =>
    exact finishKey_elim _ _ _ (fun b _ => hcc _ _ _ rfl (hkey _ hl)) (hpark _ _ (hkey _ hl)) (hraise _ (hkey _ hl))
  case trapOut => exact finishWrite_elim _ _ (fun _ => hwrite _ _ hl) (hraise _ (hwrite _ _ hl))
  case trapPuts => exact hsl _ _ _ _ (hread _ _ hl)
  case trapPutsp => exact hsl _ _ _ _ (hread _ _ hl)
  case trapIn =>
    have h1 := hwb promptBytes _ hl
    refine finishWrite_elim _ _ (fun _ => ?_) (hraise _ h1)
    have h2 := hkey _ h1
    exact finishKey_elim _ _ _ (fun b _ => finishWrite_elim _ _ (fun _ => hcc _ _ _ rfl (hwrite _ _ h2)) (hraise _
        (hwrite _ _ h2))) (hpark _ _ h2) (hraise _ h2)
  case trapHalt => exact finishWrite_elim _ _ (fun _ => hhalt _ rfl (hwb _ _ hl)) (hraise _ (hwb _ _ hl))
  case trapUnknown => exact hfatal _ _ rfl hl

/-- Every instruction answers a next state, in every state. -/
theorem exec_answers_next (i : Instr) (s : State) : ∃ t, exec i s = .next t := by
  cases i <;> exact ⟨_, rfl⟩

/-- No instruction changes a parameter of the machine (R12). -/
theorem exec_params (i : Instr) (s t : State) (h : exec i s = .next t) : t.params = s.params :=
  exec_keeps (P := fun t => t.params = s.params) i s t h rfl (fun b t h => (memRead_params t b).trans h) (fun _ h => h)
    (fun _ _ h => h) (fun _ _ h => h) (fun _ h => h) (fun _ _ _ h => h) (fun _ _ _ _ h => h) (fun h _ => h)
    (fun _ _ h _ _ _ => h) (fun _ _ _ _ h => h) (fun _ _ h => h)

/-! ## One step -/

/-- A step while Running with nothing in progress is a fetch and what follows it (R201). -/
theorem step_fetches (s : State) (hr : s.run = .running) (hp : s.pending = none) : step s = afterFetch exec (fetch s) := by
  unfold step
  rw [hr, hp]

/-- A step while Running with an instruction in progress goes on with it (R83). -/
theorem step_resumes (s : State) {p : Pending} (hr : s.run = .running) (hp : s.pending = some p) :
    step s = resume exec p (s.setPending none) := by
  unfold step
  rw [hr, hp]

/-- After the fetch there is a next state. -/
theorem afterFetch_answers_next (r : ReadResult × State) : ∃ t, afterFetch exec r = .next t := by
  obtain ⟨a, s⟩ := r
  cases a
  · exact exec_answers_next _ _
  · exact ⟨_, rfl⟩
  · exact ⟨_, rfl⟩

/-- A step while Running answers a next state. -/
theorem step_answers_next (s : State) (hr : s.run = .running) : ∃ t, step s = .next t := by
  simp only [step, hr]
  cases s.pending with
  | none => exact afterFetch_answers_next _
  | some p =>
    simp only [resume]
    rcases p with _ | _ | (_ | _ | _ | _ | ⟨sv, a⟩) | ⟨sv, a⟩ <;> first | exact ⟨_, rfl⟩ |
        exact afterFetch_answers_next _

/-- What a whole step keeps. -/
theorem step_keeps {P : State → Prop} (s t : State) (hr : s.run = .running) (h : step s = .next t)
  (hs : P s)
  (hread : ∀ b t, P t → P (memRead b t).2) (hkey : ∀ t, P t → P (readKey t).2)
      (hstat : ∀ t, P t → P (takeStatusKey t).2) (hwrite : ∀ b t, P t → P (writeByte b t).2)
  (hpark : ∀ p t, P t → P (t.setPending p)) (hraise : ∀ c t, P t → P (t.raise c))
  (hcc : ∀ d v t, P t → P (t.setRegCc d v))
  (hlink : ∀ s, P s → P s.link)
  (hpc : ∀ v t, P t → P (t.setPc v))
  (hst : ∀ a v t, P t → P (memWrite a v t))
  (hhalt : ∀ t, P t → P (t.setRun .halted)) : P t := by
  have hld : ∀ d r, P r.2 → P (loadFrom d r) := fun d r h =>
    finishRead_elim _ _ _ (fun v _ => hcc _ _ _ h) (hpark _ _ h) (hraise _ _ h)
  have hsl : ∀ sv n a r, P r.2 → P (stringLoop sv n a r) := fun sv n a r hr =>
    stringLoop_keeps sv n a r hread hwrite (fun p => hpark _) (hraise _) hr
  have haft : ∀ r : ReadResult × State, P r.2 → afterFetch exec r = .next t → P t := by
    rintro ⟨a, u⟩ hu hh
    cases a
    · exact exec_keeps _ _ _ hh (hpc _ _ hu) hread hkey hwrite (fun p => hpark _) (hraise _)
          (fun c t _ h => hraise c t h) (fun d v t _ h => hcc _ _ _ h) (fun h _ => hlink _ h)
          (fun v t h _ _ _ => hpc _ _ h) (fun a v t _ h => hst _ _ _ h) (fun t _ h => hhalt _ h)
    · simp [afterFetch] at hh; subst hh; exact hpark _ _ hu
    · simp [afterFetch] at hh; subst hh; exact hraise _ _ hu
  simp only [step, hr] at h
  cases hp : s.pending with
  | none => rw [hp] at h; exact haft _ (hread _ _ hs) h
  | some p =>
    rw [hp] at h
    have h0 := hpark none _ hs
    simp only [resume] at h
    rcases p with _ | _ | (_ | _ | _ | _ | ⟨sv, a⟩) | ⟨sv, a⟩ <;> simp only [Host.Outcome.next.injEq] at h
    · subst h
      exact finishKey_elim _ _ _ (fun b _ => hcc _ _ _ (hkey _ h0)) (hpark _ _ (hkey _ h0)) (hraise _ _ (hkey _ h0))
    · subst h
      exact finishKey_elim _ _ _ (fun b _ => finishWrite_elim _ _ (fun _ => hcc _ _ _ (hwrite _ _ (hkey _ h0)))
          (hraise _ _ (hwrite _ _ (hkey _ h0)))) (hpark _ _ (hkey _ h0)) (hraise _ _ (hkey _ h0))
    · exact haft _ (hstat _ h0) h
    · subst h; exact hld _ _ (hstat _ h0)
    · subst h
      exact finishRead_elim _ _ _ (fun v _ => hld _ _ (hread _ _ (hstat _ h0))) (hpark _ _ (hstat _ h0))
          (hraise _ _ (hstat _ h0))
    · subst h
      exact finishRead_elim _ _ _ (fun v _ => hst _ _ _ (hstat _ h0)) (hpark _ _ (hstat _ h0)) (hraise _ _
          (hstat _ h0))
    · subst h; exact hsl _ _ _ _ (hstat _ h0)
    · subst h; exact hsl _ _ _ _ (hread _ _ h0)

/-! ## Two states kept related -/

/-- Two reads with one answer go on alike. -/
theorem finishRead_rel {R : State → State → Prop} (use k k' r r') (h1 :
    (r : ReadResult × State).1 = (r' : ReadResult × State).1) (hr : R r.2 r'.2)
  (hk : ∀ v, r.1 = .value v → R (k v r.2) (k' v r'.2)) (hp : ∀ p s t, R s t → R (s.park p) (t.park p))
      (hf : ∀ c s t, R s t → R (s.raise c) (t.raise c)) :
  R (finishRead use k r) (finishRead use k' r') := by
  obtain ⟨a, s⟩ := r; obtain ⟨a', s'⟩ := r'; simp only at h1 hr; subst h1
  cases a with
  | value v => exact hk v rfl
  | waits => exact hp _ _ _ hr
  | fails => exact hf _ _ _ hr

/-- Two key calls with one answer go on alike. -/
theorem finishKey_rel {R : State → State → Prop} (p k k' r r') (h1 :
    (r : KeyAnswer × State).1 = (r' : KeyAnswer × State).1) (hr : R r.2 r'.2)
  (hk : ∀ v, r.1 = .byte v → R (k v r.2) (k' v r'.2)) (hp : ∀ p s t, R s t → R (s.park p) (t.park p))
      (hf : ∀ c s t, R s t → R (s.raise c) (t.raise c)) :
  R (finishKey p k r) (finishKey p k' r') := by
  obtain ⟨a, s⟩ := r; obtain ⟨a', s'⟩ := r'; simp only at h1 hr; subst h1
  cases a with
  | byte v => exact hk v rfl
  | notYet => exact hp _ _ _ hr
  | fails => exact hf _ _ _ hr

/-- Two writes with one answer go on alike. -/
theorem finishWrite_rel {R : State → State → Prop} (k k' r r') (h1 :
    (r : WriteAnswer × State).1 = (r' : WriteAnswer × State).1) (hr : R r.2 r'.2)
  (hk : r.1 = .done → R (k r.2) (k' r'.2)) (hf : ∀ c s t, R s t → R (s.raise c) (t.raise c)) :
  R (finishWrite k r) (finishWrite k' r') := by
  obtain ⟨a, s⟩ := r; obtain ⟨a', s'⟩ := r'; simp only at h1 hr; subst h1
  cases a with
  | done => exact hk rfl
  | fails => exact hf _ _ _ hr

/-- Two states that the named operations keep related, and that have the same registers, pc and parameters. -/
structure Simulation (R : State → State → Prop) : Prop where
  read : ∀ a s t, R s t → (memRead a s).1 = (memRead a t).1 ∧ R (memRead a s).2 (memRead a t).2
  key : ∀ s t, R s t → (readKey s).1 = (readKey t).1 ∧ R (readKey s).2 (readKey t).2
  status : ∀ s t, R s t → (takeStatusKey s).1 = (takeStatusKey t).1 ∧ R (takeStatusKey s).2 (takeStatusKey t).2
  write : ∀ b s t, R s t → (writeByte b s).1 = (writeByte b t).1 ∧ R (writeByte b s).2 (writeByte b t).2
  park : ∀ p s t, R s t → R (s.park p) (t.park p)
  raise : ∀ c s t, R s t → R (s.raise c) (t.raise c)
  pend : ∀ c s t, R s t → R (s.setPending c) (t.setPending c)
  run : ∀ c s t, R s t → R (s.setRun c) (t.setRun c)
  cc : ∀ d v s t, R s t → R (s.setRegCc d v) (t.setRegCc d v)
  rg : ∀ d v s t, R s t → R (s.setReg d v) (t.setReg d v)
  pc : ∀ v s t, R s t → R (s.setPc v) (t.setPc v)
  st : ∀ a v s t, R s t → R (s.putWord a v) (t.putWord a v)
  eqs : ∀ s t, R s t → s.regs = t.regs ∧ s.pc = t.pc ∧ s.params = t.params

variable {R : State → State → Prop} (H : Simulation R)
include H

/-- Writing the same bytes gives the same answer and keeps the relation. -/
theorem sim_writeBytes (bs : List Byte) : ∀ s t, R s t → (writeBytes bs s).1 = (writeBytes bs t).1 ∧
    R (writeBytes bs s).2 (writeBytes bs t).2 := by
  induction bs with
  | nil => intro s t h; exact ⟨rfl, h⟩
  | cons b bs ih =>
    intro s t h
    obtain ⟨h1, h2⟩ := H.write b s t h
    simp only [writeBytes]
    revert h1 h2
    rcases writeByte b s with ⟨_|_, s'⟩ <;> rcases writeByte b t with ⟨_|_, t'⟩ <;> intro h1 h2 <;> simp at h1
    · exact ih _ _ h2
    · exact ⟨rfl, h2⟩

/-- The end of a load keeps the relation. -/
theorem sim_loadFrom (d) (r r') (h : (r : ReadResult × State).1 = (r' : ReadResult × State).1 ∧ R r.2 r'.2) :
    R (loadFrom d r) (loadFrom d r') :=
  finishRead_rel _ _ _ _ _ h.1 h.2 (fun _ _ => H.cc _ _ _ _ h.2) H.park H.raise

/-- LDI from its pointer on keeps the relation. -/
theorem sim_loadThrough (d) (r r') (h : (r : ReadResult × State).1 = (r' : ReadResult × State).1 ∧ R r.2 r'.2) :
    R (loadThrough d r) (loadThrough d r') :=
  finishRead_rel _ _ _ _ _ h.1 h.2 (fun _ _ => sim_loadFrom H _ _ _ (H.read _ _ _ h.2)) H.park H.raise

/-- STI from its pointer on keeps the relation. -/
theorem sim_storeThrough (d) (r r') (h : (r : ReadResult × State).1 = (r' : ReadResult × State).1 ∧ R r.2 r'.2) :
    R (storeThrough d r) (storeThrough d r') :=
  finishRead_rel _ _ _ _ _ h.1 h.2 (fun _ _ => by
    have := H.st ‹_› (r.2.reg d) _ _ h.2
    simp only [memWrite]; rwa [show r'.2.reg d = r.2.reg d by simp [State.reg, (H.eqs _ _ h.2).1]]) H.park H.raise

/-- GETC from its key on keeps the relation. -/
theorem sim_getcFrom (r r') (h : (r : KeyAnswer × State).1 = (r' : KeyAnswer × State).1 ∧ R r.2 r'.2) :
    R (getcFrom r) (getcFrom r') :=
  finishKey_rel _ _ _ _ _ h.1 h.2 (fun _ _ => H.cc _ _ _ _ h.2) H.park H.raise

/-- IN from its key on keeps the relation. -/
theorem sim_inFrom (r r') (h : (r : KeyAnswer × State).1 = (r' : KeyAnswer × State).1 ∧ R r.2 r'.2) :
    R (inFrom r) (inFrom r') :=
  finishKey_rel _ _ _ _ _ h.1 h.2 (fun k _ => by
    have := H.write k _ _ h.2
    exact finishWrite_rel _ _ _ _ this.1 this.2 (fun _ => H.cc _ _ _ _ this.2) H.raise) H.park H.raise

/-- One turn of the string loop keeps the relation. -/
theorem sim_stringTurn (sv a) (k k' : Word → State → State) (r r') (h :
    (r : ReadResult × State).1 = (r' : ReadResult × State).1 ∧ R r.2 r'.2)
  (hk : ∀ b s t, R s t → R (k b s) (k' b t)) : R (stringTurn sv a k r) (stringTurn sv a k' r') :=
  finishRead_rel _ _ _ _ _ h.1 h.2 (fun w _ => by
    split
    · exact h.2
    · have := sim_writeBytes H (sv.bytes w) _ _ h.2
      exact finishWrite_rel _ _ _ _ this.1 this.2 (fun _ => hk _ _ _ this.2) H.raise) H.park H.raise

/-- The string loop keeps the relation. -/
theorem sim_stringLoop (sv) (n) : ∀ a r r', (h : (r : ReadResult × State).1 = (r' : ReadResult × State).1
    ∧ R r.2 r'.2) → R (stringLoop sv n a r) (stringLoop sv n a r') := by
  induction n with
  | zero => intro a r r' h; exact sim_stringTurn H _ _ _ _ _ _ h (fun b s t h => H.park _ _ _ h)
  | succ n ih => intro a r r' h; exact sim_stringTurn H _ _ _ _ _ _ h (fun b s t h => ih _ _ _ (H.read _ _ _ h))

/-- The link keeps the relation. -/
theorem sim_link (s t) (h : R s t) : R s.link t.link := by
  simp only [State.link]; rw [← (H.eqs _ _ h).2.1]; exact H.rg _ _ _ _ h

/-- Related states have the same registers. -/
theorem sim_reg (s t) (h : R s t) (d) : t.reg d = s.reg d := by simp [State.reg, (H.eqs _ _ h).1]

/-- An instruction keeps the relation; only BR needs the flags equal (R30). -/
theorem sim_exec (i : Instr) (s s' t : State) (hs : R s s') (hbr : ∀ f o, i = .br f o → s.cond = s'.cond)
    (h : exec i s = .next t) :
   ∃ t', exec i s' = .next t' ∧ R t t' := by
  have hreg := sim_reg H _ _ hs
  have hpc := (H.eqs _ _ hs).2.1
  have hpar := (H.eqs _ _ hs).2.2
  have hl := sim_link H _ _ hs
  cases i <;> simp only [exec, Host.Outcome.next.injEq, execBr, execAddReg, execAddImm, execLd, execSt, execJsr, execJsrr, execAndReg, execAndImm,
    execLdr, execStr, execRti, execNot, execLdi, execSti, execJmp, execRes, execLea, execTrapGetc, execTrapOut, execTrapPuts,
    execTrapIn, execTrapPutsp, execTrapHalt, execTrapUnknown, State.pcRelative,
    State.basePlus] at h ⊢ <;> subst h <;> refine ⟨_, rfl, ?_⟩ <;> try simp only [← hpc, ← hpar, hreg]
  case br f o =>
    rw [← hbr f o rfl]
    cases branchTaken f s.cond
    · exact hs
    · exact H.pc _ _ _ hs
  case ld => exact sim_loadFrom H _ _ _ (H.read _ _ _ hs)
  case ldr => exact sim_loadFrom H _ _ _ (H.read _ _ _ hs)
  case ldi => exact sim_loadThrough H _ _ _ (H.read _ _ _ hs)
  case sti => exact sim_storeThrough H _ _ _ (H.read _ _ _ hs)
  case st => exact H.st _ _ _ _ hs
  case str => exact H.st _ _ _ _ hs
  case jmp => exact H.pc _ _ _ hs
  case jsr => exact H.pc _ _ _ hl
  case jsrr => rw [sim_reg H _ _ hl]; exact H.pc _ _ _ hl
  case rti => exact H.raise _ _ _ hs
  case res => exact H.raise _ _ _ hs
  case trapUnknown => exact H.raise _ _ _ hl
  case trapGetc => exact sim_getcFrom H _ _ (H.key _ _ hl)
  case trapOut =>
    rw [sim_reg H _ _ hl]
    have := H.write (lowByte (s.link.reg .r0)) _ _ hl
    exact finishWrite_rel _ _ _ _ this.1 this.2 (fun _ => this.2) H.raise
  case trapPuts => rw [sim_reg H _ _ hl]; exact sim_stringLoop H _ _ _ _ _ (H.read _ _ _ hl)
  case trapPutsp => rw [sim_reg H _ _ hl]; exact sim_stringLoop H _ _ _ _ _ (H.read _ _ _ hl)
  case trapIn =>
    have := sim_writeBytes H promptBytes _ _ hl
    exact finishWrite_rel _ _ _ _ this.1 this.2 (fun _ => sim_inFrom H _ _ (H.key _ _ this.2)) H.raise
  case trapHalt =>
    have := sim_writeBytes H haltBytes _ _ hl
    exact finishWrite_rel _ _ _ _ this.1 this.2 (fun _ => H.run _ _ _ this.2) H.raise
  all_goals exact H.cc _ _ _ _ hs

/-- A step keeps a relation between states with one run state, one instruction in progress and one `cond`. -/
theorem sim_step (hrc : ∀ s t, R s t → s.run = t.run ∧ s.pending = t.pending ∧ s.cond = t.cond) (s s' t : State)
    (hs : R s s') (h : step s = .next t) : ∃ t', step s' = .next t' ∧ R t t' := by
  obtain ⟨e1, e2, e3⟩ := hrc _ _ hs
  have aft : ∀ r r' : ReadResult × State, r.1 = r'.1 → R r.2 r'.2 → afterFetch exec r = .next t →
      ∃ t', afterFetch exec r' = .next t' ∧ R t t' := by
    rintro ⟨a, u⟩ ⟨a', u'⟩ h1 hr hh
    simp only at h1 hr; subst h1
    cases a with
    | value ir =>
      simp only [afterFetch] at hh ⊢
      rw [State.decodes, ← (H.eqs _ _ hr).2.1, ← (H.eqs _ _ hr).2.2]
      exact sim_exec H _ _ _ _ (H.pc _ _ _ hr) (fun _ _ _ => (hrc _ _ (H.pc (u.pc+1) _ _ hr)).2.2) hh
    | waits => simp only [afterFetch, Host.Outcome.next.injEq] at hh; subst hh; exact ⟨_, rfl, H.park _ _ _ hr⟩
    | fails => simp only [afterFetch, Host.Outcome.next.injEq] at hh; subst hh; exact ⟨_, rfl, H.raise _ _ _ hr⟩
  unfold step at h ⊢
  rw [← e1, ← e2]
  cases hrun : s.run <;> simp only [hrun] at h ⊢
  · simp at h; subst h; exact ⟨_, rfl, H.run _ _ _ hs⟩
  · cases hp : s.pending <;> simp only [hp] at h ⊢
    · have := H.read s.pc _ _ hs
      unfold fetch at h ⊢; rw [← (H.eqs _ _ hs).2.1]
      exact aft _ _ this.1 this.2 h
    · rename_i p
      have h0 := H.pend none _ _ hs
      unfold resume at h ⊢
      rcases p with _ | _ | (_ | _ | _ | _ | ⟨sv, a⟩) | ⟨sv, a⟩ <;> simp only [Host.Outcome.next.injEq] at h ⊢
      · subst h; exact ⟨_, rfl, sim_getcFrom H _ _ (H.key _ _ h0)⟩
      · subst h; exact ⟨_, rfl, sim_inFrom H _ _ (H.key _ _ h0)⟩
      · have := H.status _ _ h0; exact aft _ _ this.1 this.2 h
      · subst h; exact ⟨_, rfl, sim_loadFrom H _ _ _ (H.status _ _ h0)⟩
      · subst h; exact ⟨_, rfl, sim_loadThrough H _ _ _ (H.status _ _ h0)⟩
      · subst h; exact ⟨_, rfl, sim_storeThrough H _ _ _ (H.status _ _ h0)⟩
      · subst h; exact ⟨_, rfl, sim_stringLoop H _ _ _ _ _ (H.status _ _ h0)⟩
      · subst h; exact ⟨_, rfl, sim_stringLoop H _ _ _ _ _ (H.read _ _ _ h0)⟩
  · simp at h
  · simp at h

omit H

end Sys2Proof.Machine
end

