-- ==== Sys2Proof/Laws/PerInstr.lean ====
section
/-! SUPPORT. Laws stated per instruction, one lemma for each constructor of `Instr`. -/

/-- The word that the encoder writes for a well-formed instruction matches the row of spec/opcode_table.json that the
instruction stands for. -/
def Sys2Proof.Laws.EncodesInRow.Statement (i : Sys2Proof.Instr) : Prop :=
  i.wellFormed = true → i.row.matchesWord (Sys2Proof.encode i) = true

namespace Sys2Proof.Laws.EncodesInRow

/-- A row's test of an instruction word, bit by bit. -/
theorem matches_of_bits (r : OpcodeRow) (w : Word)
    (h : ∀ i, i < 16 → (w.getLsbD i && r.mask.getLsbD i) = r.pattern.getLsbD i) : r.matchesWord w = true := by
  unfold OpcodeRow.matchesWord
  rw [beq_iff_eq]
  apply BitVec.eq_of_getLsbD_eq
  intro i hi
  rw [BitVec.getLsbD_and, h i hi]

theorem br (flags : BitVec 3) (offset9 : BitVec 9) : Statement (.br flags offset9) := by
  intro _
  refine matches_of_bits _ _ fun i hi => ?_
  unfold encode encodeWith Instr.row
  interval_cases i <;> simp [-BitVec.getLsbD_eq_getElem]

theorem addReg (dr sr1 sr2 : Reg) : Statement (.addReg dr sr1 sr2) := by
  intro _
  refine matches_of_bits _ _ fun i hi => ?_
  unfold encode encodeWith Instr.row
  interval_cases i <;> simp [-BitVec.getLsbD_eq_getElem]

theorem addImm (dr sr1 : Reg) (imm5 : BitVec 5) : Statement (.addImm dr sr1 imm5) := by
  intro _
  refine matches_of_bits _ _ fun i hi => ?_
  unfold encode encodeWith Instr.row
  interval_cases i <;> simp [-BitVec.getLsbD_eq_getElem]

theorem ld (dr : Reg) (offset9 : BitVec 9) : Statement (.ld dr offset9) := by
  intro _
  refine matches_of_bits _ _ fun i hi => ?_
  unfold encode encodeWith Instr.row
  interval_cases i <;> simp [-BitVec.getLsbD_eq_getElem]

theorem st (sr : Reg) (offset9 : BitVec 9) : Statement (.st sr offset9) := by
  intro _
  refine matches_of_bits _ _ fun i hi => ?_
  unfold encode encodeWith Instr.row
  interval_cases i <;> simp [-BitVec.getLsbD_eq_getElem]

theorem jsr (offset11 : BitVec 11) : Statement (.jsr offset11) := by
  intro _
  refine matches_of_bits _ _ fun i hi => ?_
  unfold encode encodeWith Instr.row
  interval_cases i <;> simp [-BitVec.getLsbD_eq_getElem]

theorem jsrr (baseR : Reg) : Statement (.jsrr baseR) := by
  intro _
  refine matches_of_bits _ _ fun i hi => ?_
  unfold encode encodeWith Instr.row
  interval_cases i <;> simp [-BitVec.getLsbD_eq_getElem]

theorem andReg (dr sr1 sr2 : Reg) : Statement (.andReg dr sr1 sr2) := by
  intro _
  refine matches_of_bits _ _ fun i hi => ?_
  unfold encode encodeWith Instr.row
  interval_cases i <;> simp [-BitVec.getLsbD_eq_getElem]

theorem andImm (dr sr1 : Reg) (imm5 : BitVec 5) : Statement (.andImm dr sr1 imm5) := by
  intro _
  refine matches_of_bits _ _ fun i hi => ?_
  unfold encode encodeWith Instr.row
  interval_cases i <;> simp [-BitVec.getLsbD_eq_getElem]

theorem ldr (dr baseR : Reg) (offset6 : BitVec 6) : Statement (.ldr dr baseR offset6) := by
  intro _
  refine matches_of_bits _ _ fun i hi => ?_
  unfold encode encodeWith Instr.row
  interval_cases i <;> simp [-BitVec.getLsbD_eq_getElem]

theorem str (sr baseR : Reg) (offset6 : BitVec 6) : Statement (.str sr baseR offset6) := by
  intro _
  refine matches_of_bits _ _ fun i hi => ?_
  unfold encode encodeWith Instr.row
  interval_cases i <;> simp [-BitVec.getLsbD_eq_getElem]

theorem rti : Statement (.rti) := by
  intro _
  refine matches_of_bits _ _ fun i hi => ?_
  unfold encode encodeWith Instr.row
  interval_cases i <;> simp [-BitVec.getLsbD_eq_getElem]

theorem not (dr sr : Reg) : Statement (.not dr sr) := by
  intro _
  refine matches_of_bits _ _ fun i hi => ?_
  unfold encode encodeWith Instr.row
  interval_cases i <;> simp [-BitVec.getLsbD_eq_getElem]

theorem ldi (dr : Reg) (offset9 : BitVec 9) : Statement (.ldi dr offset9) := by
  intro _
  refine matches_of_bits _ _ fun i hi => ?_
  unfold encode encodeWith Instr.row
  interval_cases i <;> simp [-BitVec.getLsbD_eq_getElem]

theorem sti (sr : Reg) (offset9 : BitVec 9) : Statement (.sti sr offset9) := by
  intro _
  refine matches_of_bits _ _ fun i hi => ?_
  unfold encode encodeWith Instr.row
  interval_cases i <;> simp [-BitVec.getLsbD_eq_getElem]

theorem jmp (baseR : Reg) : Statement (.jmp baseR) := by
  intro _
  refine matches_of_bits _ _ fun i hi => ?_
  unfold encode encodeWith Instr.row
  interval_cases i <;> simp [-BitVec.getLsbD_eq_getElem]

theorem res : Statement (.res) := by
  intro _
  refine matches_of_bits _ _ fun i hi => ?_
  unfold encode encodeWith Instr.row
  interval_cases i <;> simp [-BitVec.getLsbD_eq_getElem]

theorem lea (dr : Reg) (offset9 : BitVec 9) : Statement (.lea dr offset9) := by
  intro _
  refine matches_of_bits _ _ fun i hi => ?_
  unfold encode encodeWith Instr.row
  interval_cases i <;> simp [-BitVec.getLsbD_eq_getElem]

theorem trapGetc : Statement (.trapGetc) := by
  intro _
  refine matches_of_bits _ _ fun i hi => ?_
  unfold encode encodeWith Instr.row
  interval_cases i <;> simp [-BitVec.getLsbD_eq_getElem]

theorem trapOut : Statement (.trapOut) := by
  intro _
  refine matches_of_bits _ _ fun i hi => ?_
  unfold encode encodeWith Instr.row
  interval_cases i <;> simp [-BitVec.getLsbD_eq_getElem]

theorem trapPuts : Statement (.trapPuts) := by
  intro _
  refine matches_of_bits _ _ fun i hi => ?_
  unfold encode encodeWith Instr.row
  interval_cases i <;> simp [-BitVec.getLsbD_eq_getElem]

theorem trapIn : Statement (.trapIn) := by
  intro _
  refine matches_of_bits _ _ fun i hi => ?_
  unfold encode encodeWith Instr.row
  interval_cases i <;> simp [-BitVec.getLsbD_eq_getElem]

theorem trapPutsp : Statement (.trapPutsp) := by
  intro _
  refine matches_of_bits _ _ fun i hi => ?_
  unfold encode encodeWith Instr.row
  interval_cases i <;> simp [-BitVec.getLsbD_eq_getElem]

theorem trapHalt : Statement (.trapHalt) := by
  intro _
  refine matches_of_bits _ _ fun i hi => ?_
  unfold encode encodeWith Instr.row
  interval_cases i <;> simp [-BitVec.getLsbD_eq_getElem]

theorem trapUnknown (vector8 : BitVec 8) : Statement (.trapUnknown vector8) := by
  intro _
  refine matches_of_bits _ _ fun i hi => ?_
  unfold encode encodeWith Instr.row
  interval_cases i <;> simp [-BitVec.getLsbD_eq_getElem]

end Sys2Proof.Laws.EncodesInRow
end

