-- ==== Sys2Proof/Tests/Slice0.lean ====
section
/-! SUPPORT. Small tests.  The expected values of the one-step tests are those of spec/95_test_vectors.md (its Parts V and P; the
vector's name is in each docstring); the words of the decode tests are written out from the formats R101 to R111 and the
numbers of R115.  The witnesses show, for each statement with hypotheses, concrete inputs that meet all of them together. -/

namespace Sys2Proof.Tests

open Sys2Proof Sys2Proof.Machine Sys2Proof.Safety Sys2Proof.Statements

/-! ## Helpers -/

/-- The start state of the vectors (95_test_vectors.md, Conventions): Running at `pc`, the given cells, all else as reset. -/
def start (pc : Word) (cells : Memory) : State := { State.reset with run := .running, pc := pc, mem := cells }

/-- A start state with register values. -/
def startRegs (pc : Word) (cells : Memory) (regs : List (Reg × Word)) : State :=
  regs.foldl (fun s r => s.setReg r.1 r.2) (start pc cells)

/-- The same state with answers of the console to come. -/
def withConsole (s : State) (polls : List PollAnswer) (keys : List KeyAnswer) (writes : List WriteAnswer) : State :=
  { s with console := ⟨polls, keys, writes, []⟩ }

/-- Whether one step leads to a next state with a property. -/
def after (s : State) (p : State → Bool) : Bool :=
  match step s with
  | .next t => p t
  | _ => false

/-- The next state of an outcome. -/
def nextOf : Host.Outcome State Fault Refusal → State
  | .next t => t
  | _ => State.reset

/-! ## WellFormed refuses ill-formed terms -/

theorem test_wellFormed_refuses_vector_20 : Instr.wellFormed (.trapUnknown 0x20) = false := by decide
theorem test_wellFormed_refuses_vector_21 : Instr.wellFormed (.trapUnknown 0x21) = false := by decide
theorem test_wellFormed_refuses_vector_22 : Instr.wellFormed (.trapUnknown 0x22) = false := by decide
theorem test_wellFormed_refuses_vector_23 : Instr.wellFormed (.trapUnknown 0x23) = false := by decide
theorem test_wellFormed_refuses_vector_24 : Instr.wellFormed (.trapUnknown 0x24) = false := by decide
theorem test_wellFormed_refuses_vector_25 : Instr.wellFormed (.trapUnknown 0x25) = false := by decide
theorem test_wellFormed_accepts_vectors_beside :
    Instr.wellFormed (.trapUnknown 0x1F) = true ∧ Instr.wellFormed (.trapUnknown 0x26) = true := by decide

/-- One instruction of each row is well-formed once the unknown-vector row has a vector without a service. -/
theorem test_wellFormed_accepts_every_row : tableInstrs.all Instr.wellFormed = true := by decide

/-! ## Decoding, one word for each constructor -/

/-- 0000 010 011111111 (V-B10). -/
theorem test_decode_br : decode 0b0000010011111111 = .br 0b010 255 := by decide

/-- 0001 000 001 0 00 010 (V-O1). -/
theorem test_decode_addReg : decode 0b0001000001000010 = .addReg .r0 .r1 .r2 := by decide

/-- 0001 100 101 1 10000 (V-O6). -/
theorem test_decode_addImm : decode 0b0001100101110000 = .addImm .r4 .r5 0b10000 := by decide

/-- 0010 011 111111110 (V-L2). -/
theorem test_decode_ld : decode 0b0010011111111110 = .ld .r3 0b111111110 := by decide

/-- 0011 111 111111101 (V-S2). -/
theorem test_decode_st : decode 0b0011111111111101 = .st .r7 0b111111101 := by decide

/-- 0100 1 01111111111 (V-J6). -/
theorem test_decode_jsr : decode 0b0100101111111111 = .jsr 1023 := by decide

/-- 0100 0 00 010 000000 (V-J8). -/
theorem test_decode_jsrr : decode 0b0100000010000000 = .jsrr .r2 := by decide

/-- 0101 010 011 0 00 100 (V-O10). -/
theorem test_decode_andReg : decode 0b0101010011000100 = .andReg .r2 .r3 .r4 := by decide

/-- 0101 110 111 1 01111 (V-O14). -/
theorem test_decode_andImm : decode 0b0101110111101111 = .andImm .r6 .r7 15 := by decide

/-- 0110 001 010 111111 (V-L10). -/
theorem test_decode_ldr : decode 0b0110001010111111 = .ldr .r1 .r2 0b111111 := by decide

/-- 0111 011 100 100000 (V-S8). -/
theorem test_decode_str : decode 0b0111011100100000 = .str .r3 .r4 0b100000 := by decide

/-- 1000 000000000000 (V-U1). -/
theorem test_decode_rti : decode 0b1000000000000000 = .rti := by decide

/-- 1001 001 010 111111 (V-O16). -/
theorem test_decode_not : decode 0b1001001010111111 = .not .r1 .r2 := by decide

/-- 1010 100 000010000 (V-L7). -/
theorem test_decode_ldi : decode 0b1010100000010000 = .ldi .r4 16 := by decide

/-- 1011 001 000000110 (V-S4). -/
theorem test_decode_sti : decode 0b1011001000000110 = .sti .r1 6 := by decide

/-- 1100 000 011 000000 (V-J1). -/
theorem test_decode_jmp : decode 0b1100000011000000 = .jmp .r3 := by decide

/-- 1101 101010111100 (V-U4). -/
theorem test_decode_res : decode 0b1101101010111100 = .res := by decide

/-- 1110 101 100000000 (V-L16). -/
theorem test_decode_lea : decode 0b1110101100000000 = .lea .r5 0b100000000 := by decide

/-- 1111 0000 00100000 (V-T1). -/
theorem test_decode_trapGetc : decode 0b1111000000100000 = .trapGetc := by decide

/-- 1111 0000 00100001 (V-T4). -/
theorem test_decode_trapOut : decode 0b1111000000100001 = .trapOut := by decide

/-- 1111 0000 00100010 (V-T6). -/
theorem test_decode_trapPuts : decode 0b1111000000100010 = .trapPuts := by decide

/-- 1111 0000 00100011 (V-T10). -/
theorem test_decode_trapIn : decode 0b1111000000100011 = .trapIn := by decide

/-- 1111 0000 00100100 (V-T11). -/
theorem test_decode_trapPutsp : decode 0b1111000000100100 = .trapPutsp := by decide

/-- 1111 1111 00100101 (V-T14). -/
theorem test_decode_trapHalt : decode 0b1111111100100101 = .trapHalt := by decide

/-- 1111 0000 00011111 (V-T18). -/
theorem test_decode_trapUnknown : decode 0b1111000000011111 = .trapUnknown 0x1F := by decide

/-- Bits that no layout names are ignored (R114; V-O8, V-O17, V-J2, V-J10). -/
theorem test_decode_ignores_unnamed_bits :
    decode 0x105A = decode 0x1042 ∧ decode 0x9280 = decode 0x92BF ∧ decode 0xCEFF = decode 0xC0C0 ∧
    decode 0x46BF = decode 0x4080 := by decide

/-- The encoder writes the words of the vectors. -/
theorem test_encode_words :
    encode (.addReg .r0 .r1 .r2) = 0x1042 ∧ encode (.not .r1 .r2) = 0x92BF ∧ encode (.jsr 0b10000000000) = 0x4C00 ∧
    encode (.str .r3 .r4 0b100000) = 0x7720 ∧ encode .trapHalt = 0xF025 := by decide

/-- The host's reading of a table word (numbered from the least significant bit). -/
theorem test_decodeTableWord : decodeTableWord 16 0x1020 = some (.addImm .r0 .r0 0) ∧ decodeTableWord 16 0xF022 = some .trapPuts := by
  decide

/-! ## One step of each instruction -/

/-- V-O1. -/
theorem test_addReg_wraps :
    after (startRegs 0x3000 [(0x3000, 0x1042)] [(.r1, 0x7FFF), (.r2, 0x0001)])
      (fun t => t.reg .r0 == 0x8000 && t.cond == .neg && t.pc == 0x3001) = true := by
  decide

/-- V-O4. -/
theorem test_addReg_source_is_destination :
    after (startRegs 0x3000 [(0x3000, 0x16C3)] [(.r3, 0x4001)])
      (fun t => t.reg .r3 == 0x8002 && t.cond == .neg && t.pc == 0x3001) = true := by
  decide

/-- V-O6. -/
theorem test_addImm_negative :
    after (startRegs 0x3000 [(0x3000, 0x1970)] [(.r5, 0x1234)])
      (fun t => t.reg .r4 == 0x1224 && t.cond == .pos && t.pc == 0x3001) = true := by
  decide

/-- V-O7. -/
theorem test_addImm_minus_one :
    after (startRegs 0x3000 [(0x3000, 0x127F)] [(.r1, 0x8000)])
      (fun t => t.reg .r1 == 0x7FFF && t.cond == .pos && t.pc == 0x3001) = true := by
  decide

/-- V-O10. -/
theorem test_andReg :
    after (startRegs 0x3000 [(0x3000, 0x54C4)] [(.r3, 0xF0F0), (.r4, 0x0FF0)])
      (fun t => t.reg .r2 == 0x00F0 && t.cond == .pos && t.pc == 0x3001) = true := by
  decide

/-- V-O13. -/
theorem test_andImm_sign_extends :
    after (startRegs 0x3000 [(0x3000, 0x52B0)] [(.r2, 0xABCD)])
      (fun t => t.reg .r1 == 0xABC0 && t.cond == .neg && t.pc == 0x3001) = true := by
  decide

/-- V-O11. -/
theorem test_andImm_zero :
    after ({ startRegs 0x3000 [(0x3000, 0x5020)] [(.r0, 0xBEEF)] with cond := .neg })
      (fun t => t.reg .r0 == 0x0000 && t.cond == .zro && t.pc == 0x3001) = true := by
  decide

/-- V-O16. -/
theorem test_not :
    after (startRegs 0x3000 [(0x3000, 0x92BF)] [(.r2, 0x00FF)])
      (fun t => t.reg .r1 == 0xFF00 && t.cond == .neg && t.pc == 0x3001) = true := by
  decide

/-- V-O19. -/
theorem test_not_to_zero :
    after (startRegs 0x3000 [(0x3000, 0x903F)] [(.r0, 0xFFFF)])
      (fun t => t.reg .r0 == 0x0000 && t.cond == .zro && t.pc == 0x3001) = true := by
  decide

/-- V-B12. -/
theorem test_br_taken_wraps :
    after ({ startRegs 0x0000 [(0x0000, 0x0FFE)] [] with cond := .pos })
      (fun t => t.pc == 0xFFFF && t.cond == .pos) = true := by
  decide

/-- V-B15. -/
theorem test_br_not_taken :
    after (startRegs 0x3004 [(0x3004, 0x03FD)] [])
      (fun t => t.pc == 0x3005 && t.cond == .zro) = true := by
  decide

/-- V-J3. -/
theorem test_jmp :
    after (startRegs 0x3007 [(0x3007, 0xC1C0)] [(.r7, 0x3002)])
      (fun t => t.pc == 0x3002 && t.reg .r7 == 0x3002) = true := by
  decide

/-- V-J11. -/
theorem test_jsr_backward :
    after ({ startRegs 0x3000 [(0x3000, 0x4FFF)] [] with cond := .neg })
      (fun t => t.reg .r7 == 0x3001 && t.pc == 0x3000 && t.cond == .neg) = true := by
  decide

/-- V-J8. -/
theorem test_jsrr :
    after (startRegs 0x3010 [(0x3010, 0x4080)] [(.r2, 0x5000)])
      (fun t => t.reg .r7 == 0x3011 && t.pc == 0x5000) = true := by
  decide

/-- V-J9. -/
theorem test_jsrr_r7_falls_through :
    after (startRegs 0x3000 [(0x3000, 0x41C0)] [(.r7, 0x5000)])
      (fun t => t.reg .r7 == 0x3001 && t.pc == 0x3001) = true := by
  decide

/-- V-L2. -/
theorem test_ld_backward :
    after (startRegs 0x3005 [(0x3004, 0x8123), (0x3005, 0x27FE)] [])
      (fun t => t.reg .r3 == 0x8123 && t.cond == .neg && t.pc == 0x3006) = true := by
  decide

/-- V-L5. -/
theorem test_ld_wraps :
    after (startRegs 0xFFFF [(0x0000, 0x1234), (0xFFFF, 0x2000)] [])
      (fun t => t.reg .r0 == 0x1234 && t.cond == .pos && t.pc == 0x0000) = true := by
  decide

/-- V-L6. -/
theorem test_ldi :
    after (startRegs 0x3000 [(0x3000, 0xA207), (0x3008, 0x300A), (0x300A, 0x0007)] [])
      (fun t => t.reg .r1 == 0x0007 && t.cond == .pos && t.pc == 0x3001) = true := by
  decide

/-- V-L7. -/
theorem test_ldi_status_word :
    after (withConsole (startRegs 0x3000 [(0x3000, 0xA810), (0x3011, 0xFE00)] []) [] [.byte 0x41] [])
      (fun t => t.reg .r4 == 0x8000 && t.cond == .neg && t.word 0xFE00 == 0x8000 && t.word 0xFE02 == 0x0041 && t.console.keys == []) = true := by
  decide

/-- V-L10. -/
theorem test_ldr_negative :
    after (startRegs 0x3000 [(0x3000, 0x62BF), (0x3FFF, 0x8001)] [(.r2, 0x4000)])
      (fun t => t.reg .r1 == 0x8001 && t.cond == .neg && t.pc == 0x3001) = true := by
  decide

/-- V-L11. -/
theorem test_ldr_wraps :
    after (startRegs 0x3000 [(0x000F, 0x0042), (0x3000, 0x629F)] [(.r2, 0xFFF0)])
      (fun t => t.reg .r1 == 0x0042 && t.cond == .pos && t.pc == 0x3001) = true := by
  decide

/-- V-L18. -/
theorem test_lea_sets_flags :
    after (startRegs 0x9000 [(0x9000, 0xEFFF)] [])
      (fun t => t.reg .r7 == 0x9000 && t.cond == .neg && t.pc == 0x9001) = true := by
  decide

/-- V-L17. -/
theorem test_lea_zero :
    after (startRegs 0xFFFF [(0xFFFF, 0xE000)] [])
      (fun t => t.reg .r0 == 0x0000 && t.cond == .zro && t.pc == 0x0000) = true := by
  decide

/-- V-S2. -/
theorem test_st_sign_extends :
    after (startRegs 0x3010 [(0x3010, 0x3FFD)] [(.r7, 0xCAFE)])
      (fun t => t.word 0x300E == 0xCAFE && t.word 0x320E == 0x0000 && t.pc == 0x3011) = true := by
  decide

/-- V-S5. -/
theorem test_sti_overwrites_pointer :
    after (startRegs 0x3000 [(0x3000, 0xB200), (0x3001, 0x3001)] [(.r1, 0x1111)])
      (fun t => t.word 0x3001 == 0x1111 && t.pc == 0x3001) = true := by
  decide

/-- V-S6. -/
theorem test_sti_to_status_word_is_plain_storage :
    after (withConsole (startRegs 0x3000 [(0x3000, 0xB200), (0x3001, 0xFE00)] [(.r1, 0x00FF)]) [] [.byte 0x41] [])
      (fun t => t.word 0xFE00 == 0x00FF && t.word 0xFE02 == 0x0000 && t.console.keys == [.byte 0x41]) = true := by
  decide

/-- V-S8. -/
theorem test_str_negative :
    after (startRegs 0x3000 [(0x3000, 0x7720)] [(.r3, 0xBEEF), (.r4, 0x0000)])
      (fun t => t.word 0xFFE0 == 0xBEEF && t.pc == 0x3001) = true := by
  decide

/-- V-S9. -/
theorem test_str_wraps :
    after (startRegs 0x3000 [(0x3000, 0x7701)] [(.r3, 0xBEEF), (.r4, 0xFFFF)])
      (fun t => t.word 0x0000 == 0xBEEF && t.pc == 0x3001) = true := by
  decide

/-- V-T3. -/
theorem test_getc_zero_extends :
    after (withConsole (startRegs 0x3000 [(0x3000, 0xF020)] []) [] [.byte 0xE9] [])
      (fun t => t.reg .r7 == 0x3001 && t.reg .r0 == 0x00E9 && t.cond == .pos && t.pc == 0x3001) = true := by
  decide

/-- V-T21. -/
theorem test_getc_waits :
    after (startRegs 0x3000 [(0x3000, 0xF020)] [])
      (fun t => t.reg .r7 == 0x3001 && t.reg .r0 == 0x0000 && t.cond == .zro && t.pc == 0x3001 && t.run == .running && t.pending == some .getcKey) = true := by
  decide

/-- V-T4. -/
theorem test_out_low_byte :
    after (startRegs 0x3000 [(0x3000, 0xF021)] [(.r0, 0x1241)])
      (fun t => t.reg .r7 == 0x3001 && t.console.out == [0x41] && t.reg .r0 == 0x1241 && t.cond == .zro) = true := by
  decide

/-- V-T23. -/
theorem test_out_fails :
    after (withConsole (startRegs 0x3000 [(0x3000, 0xF021)] [(.r0, 0x0041)]) [] [] [.fails])
      (fun t => t.reg .r7 == 0x3001 && t.pc == 0x3001 && t.run == .faulted .ioFailure && t.console.out == []) = true := by
  decide

/-- V-T9. -/
theorem test_puts_wraps :
    after (startRegs 0x3000 [(0x0000, 0x0042), (0x3000, 0xF022), (0xFFFF, 0x0041)] [(.r0, 0xFFFF)])
      (fun t => t.reg .r7 == 0x3001 && t.console.out == [0x41, 0x42] && t.pc == 0x3001 && t.reg .r0 == 0xFFFF) = true := by
  decide

/-- V-T19. -/
theorem test_puts_across_status_word :
    after (withConsole (startRegs 0x3000 [(0x3000, 0xF022), (0xFDFF, 0x0041)] [(.r0, 0xFDFF)]) [] [.byte 0x42] [])
      (fun t => t.console.out == [0x41, 0x00] && t.word 0xFE00 == 0x8000 && t.word 0xFE02 == 0x0042) = true := by
  decide

/-- V-T10. -/
theorem test_in :
    after (withConsole ({ startRegs 0x3000 [(0x3000, 0xF023)] [] with cond := .neg }) [] [.byte 0x7A] [])
      (fun t => t.reg .r7 == 0x3001 && t.reg .r0 == 0x007A && t.cond == .pos && t.console.out == [0x45, 0x6E, 0x74, 0x65, 0x72, 0x20, 0x61, 0x20, 0x63, 0x68, 0x61, 0x72, 0x61, 0x63, 0x74, 0x65, 0x72, 0x3A, 0x20, 0x7A]) = true := by
  decide

/-- V-T24. -/
theorem test_in_key_fails :
    after (withConsole (startRegs 0x3000 [(0x3000, 0xF023)] [(.r0, 0x5555)]) [] [.fails] [])
      (fun t => t.reg .r7 == 0x3001 && t.reg .r0 == 0x5555 && t.cond == .zro && t.run == .faulted .ioFailure && t.console.out == [0x45, 0x6E, 0x74, 0x65, 0x72, 0x20, 0x61, 0x20, 0x63, 0x68, 0x61, 0x72, 0x61, 0x63, 0x74, 0x65, 0x72, 0x3A, 0x20]) = true := by
  decide

/-- V-T11. -/
theorem test_putsp :
    after (startRegs 0x3000 [(0x3000, 0xF024), (0x4000, 0x6948), (0x4001, 0x0021)] [(.r0, 0x4000)])
      (fun t => t.reg .r7 == 0x3001 && t.console.out == [0x48, 0x69, 0x21]) = true := by
  decide

/-- V-T12. -/
theorem test_putsp_zero_low_byte :
    after (startRegs 0x3000 [(0x3000, 0xF024), (0x4000, 0x4100), (0x4001, 0x0041)] [(.r0, 0x4000)])
      (fun t => t.reg .r7 == 0x3001 && t.console.out == [0x00, 0x41, 0x41]) = true := by
  decide

/-- V-T13. -/
theorem test_halt :
    after (startRegs 0x3005 [(0x3005, 0xF025)] [(.r7, 0x1111)])
      (fun t => t.reg .r7 == 0x3006 && t.pc == 0x3006 && t.console.out == [0x48, 0x41, 0x4C, 0x54, 0x0A] && t.run == .halted) = true := by
  decide

/-- V-T25. -/
theorem test_halt_fails :
    after (withConsole (startRegs 0x3000 [(0x3000, 0xF025)] []) [] [] [.done, .fails])
      (fun t => t.reg .r7 == 0x3001 && t.pc == 0x3001 && t.run == .faulted .ioFailure && t.console.out == [0x48]) = true := by
  decide

/-- V-T17. -/
theorem test_trapUnknown :
    after (startRegs 0x3000 [(0x3000, 0xF0FF)] [])
      (fun t => t.reg .r7 == 0x3001 && t.pc == 0x3001 && t.run == .faulted (.unknownTrap 0xFF) && t.console.out == []) = true := by
  decide

/-- V-U2. -/
theorem test_rti :
    after ({ startRegs 0x3000 [(0x3000, 0x8FFF)] [(.r7, 0x1234)] with cond := .neg })
      (fun t => t.pc == 0x3001 && t.reg .r7 == 0x1234 && t.cond == .neg && t.run == .faulted (.unsupportedOpcode 0x8)) = true := by
  decide

/-- V-U4. -/
theorem test_res :
    after (startRegs 0x3000 [(0x3000, 0xDABC)] [])
      (fun t => t.pc == 0x3001 && t.run == .faulted (.unsupportedOpcode 0xD)) = true := by
  decide

/-! ## Fetch, memory and run state -/

/-- V-M2. -/
theorem test_status_read_keeps_low_bits :
    after (withConsole (startRegs 0x3000 [(0x3000, 0x6040), (0xFE00, 0x0005)] [(.r1, 0xFE00)]) [] [.byte 0x41] [])
      (fun t => t.reg .r0 == 0x8005 && t.cond == .neg && t.word 0xFE00 == 0x8005 && t.word 0xFE02 == 0x0041) = true := by
  decide

/-- V-M2: the value that the vector gives for the setting assign. -/
theorem test_status_read_assign_setting :
    after ({ withConsole (startRegs 0x3000 [(0x3000, 0x6040), (0xFE00, 0x0005)] [(.r1, 0xFE00)]) [] [.byte 0x41] [] with params := ⟨opcodeMap, .assign⟩ })
      (fun t => t.reg .r0 == 0x8000 && t.cond == .neg && t.word 0xFE00 == 0x8000 && t.word 0xFE02 == 0x0041) = true := by
  decide

/-- V-O1 with the numbers of ADD and LEA exchanged by a reversed map. -/
theorem test_other_opcode_map :
    after ({ startRegs 0x3000 [(0x3000, 0xE042)] [(.r1, 0x7FFF), (.r2, 0x0001)] with params := ⟨opcodeMap.reverse, .or⟩ })
      (fun t => t.reg .r0 == 0x8000 && t.cond == .neg && t.pc == 0x3001) = true := by
  decide

/-- V-M3. -/
theorem test_fetch_from_status_word :
    after (withConsole (startRegs 0xFE00 [] []) [] [.byte 0x41] [])
      (fun t => t.pc == 0xFE01 && t.word 0xFE00 == 0x8000 && t.word 0xFE02 == 0x0041 && t.run == .faulted (.unsupportedOpcode 0x8)) = true := by
  decide

/-- V-M6 (c). -/
theorem test_fetch_fails_before_increment :
    after (withConsole (startRegs 0xFE00 [] []) [.fails] [] [])
      (fun t => t.pc == 0xFE00 && t.run == .faulted .ioFailure) = true := by
  decide

/-- V-M4. -/
theorem test_pc_wraps :
    after (startRegs 0xFFFF [] [])
      (fun t => t.pc == 0x0000 && t.run == .running) = true := by
  decide

/-- V-R: the first step from reset starts the run and changes nothing else. -/
theorem test_reset_starts :
    after State.reset (fun t => t == { State.reset with run := .running }) = true := by decide

/-- V-R: the first instruction of an empty image is a no-op. -/
theorem test_reset_first_instruction :
    after (nextOf (step State.reset)) (fun t => t == { State.reset with run := .running, pc := 0x3001 }) = true := by decide

/-- The host's placing of a word: it runs in the very next step (V-O1 with other registers). -/
theorem test_withFetchWord :
    after (State.reset.withFetchWord 16 0x103F) (fun t => t.reg .r0 == 0xFFFF && t.cond == .neg && t.pc == 0x3001) = true := by
  decide

/-- The host's placing of a PUTS: the loop evaluates and ends at a word 0x0000. -/
theorem test_withFetchWord_puts :
    after (State.reset.withFetchWord 16 0xF022) (fun t => t.reg .r7 == 0x3001 && t.console.out == []) = true := by decide

/-- Writing 0x0000 takes the cell away, and writing keeps the addresses rising. -/
theorem test_memory_write_canonical :
    Memory.write [(1, 5), (3, 7)] 3 0 = [(1, 5)] ∧ Memory.write [(1, 5), (3, 7)] 2 9 = [(1, 5), (2, 9), (3, 7)] := by decide

/-! ## Witnesses of the hypotheses of the statements -/

/-- A state at 0x3000 with nothing in memory. -/
def plain : State := start 0x3000 []

/-- `plain` with answers of the console to come. -/
def plainWith (polls : List PollAnswer) (keys : List KeyAnswer) (writes : List WriteAnswer) : State :=
  withConsole plain polls keys writes

/-- The default of OPCODE_MAP and another legal value; and the ill-formed vectors' neighbours. -/
theorem witness_DecodeOfEncodeIsIdentity :
    opcodeMap.wf = true ∧ OpcodeMap.wf opcodeMap.reverse = true ∧
    Instr.wellFormed (.trapUnknown 0x1F) = true ∧ Instr.wellFormed (.trapUnknown 0x26) = true ∧
    Instr.wellFormed (.jsr 0b10000000000) = true := by decide

theorem witness_DecodeIgnoresUnnamedBits :
    (0x105A : Word) &&& ~~~ ignoredBits 0x1042 = 0x1042 &&& ~~~ ignoredBits 0x1042 ∧
    (0x9280 : Word) &&& ~~~ ignoredBits 0x92BF = 0x92BF &&& ~~~ ignoredBits 0x92BF ∧
    (0xCEFF : Word) &&& ~~~ ignoredBits 0xC0C0 = 0xC0C0 &&& ~~~ ignoredBits 0xC0C0 ∧
    (0x46BF : Word) &&& ~~~ ignoredBits 0x4080 = 0x4080 &&& ~~~ ignoredBits 0x4080 ∧
    (0xFF25 : Word) &&& ~~~ ignoredBits 0xF025 = 0xF025 &&& ~~~ ignoredBits 0xF025 ∧
    (0x8FFF : Word) &&& ~~~ ignoredBits 0x8000 = 0x8000 &&& ~~~ ignoredBits 0x8000 := by decide

/-- A word that matches a second row of lower priority. -/
theorem witness_DecodeFollowsTheTable :
    Instr.row (.trapUnknown 0) ∈ opcodeTable ∧ (Instr.row (.trapUnknown 0)).matchesWord 0xF025 = true ∧
    Instr.row (.trapUnknown 0) ≠ (decode 0xF025).row := by decide

theorem witness_AddMeaning :
    (0x1042 : Word).extractLsb' 12 4 = 0x1 ∧ (0x1042 : Word).getLsbD 5 = false ∧
    (0x1020 : Word).extractLsb' 12 4 = 0x1 ∧ (0x1020 : Word).getLsbD 5 = true := by decide

theorem witness_AndMeaning :
    (0x54C4 : Word).extractLsb' 12 4 = 0x5 ∧ (0x54C4 : Word).getLsbD 5 = false ∧
    (0x5020 : Word).extractLsb' 12 4 = 0x5 ∧ (0x5020 : Word).getLsbD 5 = true := by decide

theorem witness_NotMeaning : (0x92BF : Word).extractLsb' 12 4 = 0x9 := by decide

/-- The branch taken, and not taken. -/
theorem witness_BrMeaning :
    (0x0405 : Word).extractLsb' 12 4 = 0x0 ∧ (0b010 : BitVec 3) &&& plain.cond.bits ≠ 0 ∧
    (0b101 : BitVec 3) &&& plain.cond.bits = 0 := by decide

theorem witness_JmpMeaning : (0xC1C0 : Word).extractLsb' 12 4 = 0xC := by decide

theorem witness_JsrMeaning : (0x4800 : Word).extractLsb' 12 4 = 0x4 ∧ (0x4800 : Word).getLsbD 11 = true := by decide

theorem witness_JsrrMeaning :
    (0x4080 : Word).extractLsb' 12 4 = 0x4 ∧ (0x4080 : Word).getLsbD 11 = false ∧ Reg.r6 ≠ Reg.r7 := by decide

theorem witness_LdMeaning : (0x2205 : Word).extractLsb' 12 4 = 0x2 := by decide

theorem witness_LdiMeaning : (0xA207 : Word).extractLsb' 12 4 = 0xA := by decide

theorem witness_LdrMeaning : (0x62BF : Word).extractLsb' 12 4 = 0x6 := by decide

theorem witness_LeaMeaning : (0xE020 : Word).extractLsb' 12 4 = 0xE := by decide

theorem witness_StMeaning : (0x3401 : Word).extractLsb' 12 4 = 0x3 ∧ plain.mem.wf = true := by decide

theorem witness_StiMeaning : (0xB206 : Word).extractLsb' 12 4 = 0xB := by decide

theorem witness_StrMeaning : (0x7705 : Word).extractLsb' 12 4 = 0x7 ∧ plain.mem.wf = true := by decide

/-- The addresses on both sides of the keyboard status word, and a pointer beside it. -/
theorem witness_LoadsAwayFromStatusWord :
    (start 0xFDFF [(0xFDFF, 0xFE01)]).pc + sext9 0 ≠ Config.kbsr ∧
    (start 0xFDFF [(0xFDFF, 0xFE01)]).word ((start 0xFDFF [(0xFDFF, 0xFE01)]).pc + sext9 0) ≠ Config.kbsr ∧
    (start 0xFDFF [(0xFDFF, 0xFE01)]).mem.wf = true ∧
    (startRegs 0x3000 [] [(.r1, 0xFE02)]).reg .r1 + sext6 0b111111 ≠ Config.kbsr := by decide

/-- The three answers of `ReadKey()`, the byte 0x00 among them. -/
theorem witness_GetcMeaning :
    (0xFF20 : Word) &&& 0xF0FF = 0xF020 ∧
    (plainWith [] [.byte 0x00] []).console.takeKey = (.byte 0x00, ⟨[], [], [], []⟩) ∧
    (plainWith [] [.notYet] []).console.takeKey = (.notYet, ⟨[], [], [], []⟩) ∧
    (plainWith [] [.fails] []).console.takeKey = (.fails, ⟨[], [], [], []⟩) := by decide

theorem witness_OutMeaning :
    (0xF021 : Word) &&& 0xF0FF = 0xF021 ∧
    plain.console.writeByte ((plain.reg .r0).extractLsb' 0 8) = (.done, ⟨[], [], [], [0x00]⟩) ∧
    (plainWith [] [] [.fails]).console.writeByte ((plain.reg .r0).extractLsb' 0 8) = (.fails, ⟨[], [], [], []⟩) := by decide

/-- Writes that are accepted `n` times and then fail. -/
def failsAfter (n : Nat) : List WriteAnswer := List.replicate n WriteAnswer.done ++ [WriteAnswer.fails]

/-- The writes it makes are accepted and the next one fails, with each answer of `ReadKey()`. -/
theorem witness_InMeaning :
    (0xF023 : Word) &&& 0xF0FF = 0xF023 ∧
    (∀ w ∈ (plainWith [] [.byte 0x7A] (failsAfter 20)).console.writes.take 19, w = .done) ∧
    (∀ w ∈ (plainWith [] [.byte 0x7A] (failsAfter 20)).console.writes.take 20, w = .done) ∧
    (plainWith [] [.byte 0x7A] (failsAfter 20)).console.takeKey = (.byte 0x7A, ⟨[], [], failsAfter 20, []⟩) ∧
    (∀ w ∈ (plainWith [] [.notYet] (failsAfter 19)).console.writes.take 19, w = .done) ∧
    (plainWith [] [.notYet] []).console.takeKey = (.notYet, ⟨[], [], [], []⟩) ∧
    (plainWith [] [.fails] []).console.takeKey = (.fails, ⟨[], [], [], []⟩) := by decide

theorem witness_HaltMeaning :
    (0xFF25 : Word) &&& 0xF0FF = 0xF025 ∧ ∀ w ∈ (plainWith [] [] (failsAfter 5)).console.writes.take 5, w = .done := by decide

/-- A state with the string 0x4100, 0x0041 at 0xFFFF, over the end of memory. -/
def stringState : State := startRegs 0x3000 [(0, 0x0041), (0xFFFF, 0x4100)] [(.r0, 0xFFFF)]

/-- The empty string, and a string over the end of memory. -/
theorem witness_PutsMeaning :
    (0xF022 : Word) &&& 0xF0FF = 0xF022 ∧ StringAt plain (plain.reg .r0) [] ∧
    StringAt stringState (stringState.reg .r0) [0x4100, 0x0041] ∧ [0x4100, (0x0041 : Word)].length < 65536 ∧
    ∀ a ∈ (withConsole stringState [] [] (failsAfter 2)).console.writes.take 2, a = .done :=
  ⟨by decide, ⟨by decide, by decide⟩,
    ⟨by decide, by decide, by decide, by decide, by decide, by decide, by decide, by decide⟩, by decide, by decide⟩

theorem witness_PutspMeaning :
    (0xF024 : Word) &&& 0xF0FF = 0xF024 ∧ StringAt stringState (stringState.reg .r0) [0x4100, 0x0041] ∧
    [0x4100, (0x0041 : Word)].length < 65536 ∧ (∀ a ∈ (withConsole stringState [] [] (failsAfter 3)).console.writes.take 3, a = .done) ∧
    ([0x00, 0x41, 0x41] : List Byte) = [0x4100, (0x0041 : Word)].flatMap (fun w =>
      if w.extractLsb' 8 8 = 0x00 then [w.extractLsb' 0 8] else [w.extractLsb' 0 8, w.extractLsb' 8 8]) :=
  ⟨by decide, ⟨by decide, by decide, by decide, by decide, by decide, by decide, by decide, by decide⟩, by decide,
    by decide, by decide⟩

/-- `stringState` as a string service meets it, with R7 written. -/
def linked (s : State) : State := { s with regs := s.regs.set .r7 s.pc }

/-- A run that ends after two words; one that waits; one whose read fails; one whose write fails. -/
theorem witness_StringServicesFollowPseudocode_short :
    (∃ t, StringRun .puts 2 (stringState.reg .r0) (linked stringState) t) ∧
    (∃ t, StringRun .putsp 2 (stringState.reg .r0) (linked stringState) t) ∧
    (∃ t, StringRun .puts 0 0xFE00 (linked (withConsole stringState [.yes] [.notYet] [])) t) ∧
    (∃ t, StringRun .puts 0 0xFE00 (linked (withConsole stringState [.fails] [] [])) t) ∧
    (∃ t, StringRun .putsp 0 0xFFFF (linked (withConsole stringState [] [] [.done, .fails])) t) ∧ 2 < 65536 :=
  ⟨⟨_, .word rfl (by decide) rfl (.word rfl (by decide) rfl (.terminator rfl))⟩,
    ⟨_, .word rfl (by decide) rfl (.word rfl (by decide) rfl (.terminator rfl))⟩,
    ⟨_, .readWaits rfl⟩, ⟨_, .readFails rfl⟩, ⟨_, .writeFails rfl (by decide) rfl⟩, by decide⟩

/-- A string word whose read waited: its key fails; the word is the terminator; the word is written, or its write fails. -/
theorem witness_StringServicesFollowPseudocode_waited :
    (let s := { plainWith [] [.fails] [] with pending := some (.statusKey (.stringWord .puts 0xFE00)) }
     s.run = .running ∧ takeStatusKey { s with pending := none } = (.fails, (takeStatusKey { s with pending := none }).2)) ∧
    (let s := { plainWith [] [.byte 0x41] [] with pending := some (.statusKey (.stringWord .puts 0xFE00)) }
     takeStatusKey { s with pending := none } = (.value 0x0000, (takeStatusKey { s with pending := none }).2)) ∧
    (let s := { withConsole (start 0x3000 [(0xFE00, 0x8000)]) [] [.byte 0x41] [.fails] with
        pending := some (.statusKey (.stringWord .puts 0xFE00)) }
     takeStatusKey { s with pending := none } = (.value 0x8000, (takeStatusKey { s with pending := none }).2) ∧
     (writeBytes (StringService.puts.bytes 0x8000) (takeStatusKey { s with pending := none }).2).1 = .fails) := by decide

/-- Memory with 0x0001 at the first `n` addresses. -/
def filled : Nat → State → State
  | 0, s => s
  | n + 1, s => (filled n s).putWord (BitVec.ofNat 16 n) 0x0001

/-- What a string service of `n` words from below address `m` needs: no word there is 0x0000, there is a key for each
read, and no write fails. -/
structure LongString (m n : Nat) (s : State) : Prop where
  mem : s.mem.wf = true
  words : ∀ a : Word, a.toNat < m → s.word a ≠ 0x0000
  polls : s.console.polls = []
  keys : ∃ k, n ≤ k ∧ s.console.keys = List.replicate k (.byte 0x01)
  writes : s.console.writes = []

theorem LongString.fewer {m n k : Nat} {s : State} (h : LongString m n s) (hk : k ≤ n) : LongString m k s :=
  ⟨h.mem, h.words, h.polls, let ⟨j, hj, e⟩ := h.keys; ⟨j, by omega, e⟩, h.writes⟩

theorem filled_frame (n : Nat) (s : State) : (filled n s).console = s.console ∧ (filled n s).run = s.run ∧
    (filled n s).pending = s.pending ∧ (filled n s).regs = s.regs := by
  induction n with
  | zero => exact ⟨rfl, rfl, rfl, rfl⟩
  | succ n ih => exact ih

theorem filled_wf (n : Nat) (s : State) (hs : s.mem.wf = true) : (filled n s).mem.wf = true := by
  induction n with
  | zero => exact hs
  | succ n ih => exact State.wf_putWord _ ih _ _

theorem filled_word (n : Nat) (s : State) (hs : s.mem.wf = true) (hn : n ≤ 65536) (a : Word) :
    (filled n s).word a = if a.toNat < n then 0x0001 else s.word a := by
  induction n with
  | zero => rfl
  | succ n ih =>
    rw [filled, State.word_putWord _ (filled_wf n s hs), ih (by omega)]
    have h : a = BitVec.ofNat 16 n ↔ a.toNat = n := by
      rw [← BitVec.toNat_inj, BitVec.toNat_ofNat, Nat.mod_eq_of_lt (by omega)]
    by_cases h1 : a.toNat = n
    · rw [if_pos (h.2 h1), if_pos (by omega)]
    · rw [if_neg (mt h.1 h1)]
      by_cases h2 : a.toNat < n
      · rw [if_pos h2, if_pos (by omega)]
      · rw [if_neg h2, if_neg (by omega)]

/-- The writes of a word leave a long string. -/
theorem LongString.afterWrites {m n : Nat} {t : State} (sv : StringService) (w : Word) (h : LongString m n t) :
    ∃ u, writeBytes (sv.bytes w) t = (.done, u) ∧ LongString m n u ∧ u.word 0xFFFF = t.word 0xFFFF :=
  ⟨_, writeBytes_done t (sv.bytes w) (by rw [h.writes]; simp),
    ⟨h.mem, h.words, h.polls, h.keys, by simp [h.writes]⟩, rfl⟩

/-- The key of a read of the keyboard status word leaves a long string; the word is the one that was there. -/
theorem LongString.afterKey {m n : Nat} {s : State} (h : LongString m (n + 1) s) :
    ∃ t, takeStatusKey s = (.value (s.word Config.kbsr), t) ∧ LongString m n t ∧ t.word 0xFFFF = s.word 0xFFFF := by
  obtain ⟨k, hn, hkeys⟩ := h.keys
  obtain ⟨j, rfl⟩ : ∃ j, k = j + 1 := ⟨k - 1, by omega⟩
  have hput := State.word_putWord s h.mem Config.kbdr (zext8 0x01)
  have hread : readKey s = (.byte 0x01, s.setConsole { s.console with keys := List.replicate j (.byte 0x01) }) := by
    unfold readKey Console.takeKey
    rw [hkeys, List.replicate_succ]
  refine ⟨(s.putWord Config.kbdr (zext8 0x01)).setConsole { s.console with keys := List.replicate j (.byte 0x01) }, ?_,
    ⟨State.wf_putWord s h.mem _ _, fun a ha => ?_, h.polls, ⟨j, by omega, rfl⟩, h.writes⟩, ?_⟩
  · unfold takeStatusKey
    rw [hread]
    exact Prod.ext (congrArg ReadResult.value ((hput Config.kbsr).trans (if_neg (by decide)))) rfl
  · refine (hput a).trans_ne ?_
    split
    · decide
    · exact h.words a ha
  · exact (hput 0xFFFF).trans (if_neg (by decide))

/-- One read of a long string, and the writes of its word. -/
theorem LongString.word {m n : Nat} {s : State} (sv : StringService) (h : LongString m (n + 1) s) (a : Word)
    (ha : a.toNat < m) : ∃ w t u, memRead a s = (.value w, t) ∧ w ≠ 0x0000 ∧ writeBytes (sv.bytes w) t = (.done, u) ∧
      LongString m n u ∧ u.word 0xFFFF = s.word 0xFFFF := by
  by_cases hk : a = Config.kbsr
  · obtain ⟨v, hv, hready⟩ : ∃ v, v = s.params.readyWrite.apply (s.word Config.kbsr) ∧ v ≠ 0x0000 := by
      refine ⟨_, rfl, fun hv => ?_⟩
      have hbit := congrArg (fun x : Word => x.getLsbD 15) hv
      cases hs : s.params.readyWrite <;> simp [hs, ReadyWrite.apply] at hbit
    have hput := State.word_putWord s h.mem Config.kbsr v
    have hv' : LongString m (n + 1) (s.putWord Config.kbsr v) :=
      ⟨State.wf_putWord s h.mem _ _, fun b hb => by
        refine (hput b).trans_ne ?_
        split
        · exact hready
        · exact h.words b hb, h.polls, h.keys, h.writes⟩
    have hvalue : (s.putWord Config.kbsr v).word Config.kbsr = v := (hput _).trans (if_pos rfl)
    obtain ⟨t, h1, h2, h3⟩ := hv'.afterKey
    obtain ⟨u, h4, h5, h6⟩ := h2.afterWrites sv v
    have hpoll : s.console.poll = (.yes, s.console) := by
      obtain ⟨k, hn, hkeys⟩ := h.keys
      obtain ⟨j, rfl⟩ : ∃ j, k = j + 1 := ⟨k - 1, by omega⟩
      unfold Console.poll Console.simulatedPoll
      rw [h.polls, hkeys, List.replicate_succ]
    refine ⟨v, t, u, ?_, hready, h4, h5, h6.trans (h3.trans ((hput 0xFFFF).trans (if_neg (by decide))))⟩
    rw [hk, memRead_status, readStatus, keyAvailable, hpoll]
    refine Eq.trans ?_ (h1.trans (by rw [hvalue]))
    rw [hv]
    rfl
  · obtain ⟨u, hu, hl, hlast⟩ := (h.fewer (Nat.le_succ n)).afterWrites sv (s.word a)
    exact ⟨s.word a, s, u, memRead_plain s hk, h.words a ha, hu, hl, hlast⟩

/-- A long string from address `a` on is written whole. -/
theorem LongString.allWords {m : Nat} (sv : StringService) (hm : m ≤ 65536) (n : Nat) : ∀ (a : Nat) (s : State), a + n ≤ m →
    LongString m n s → ∃ t, StringWords sv n (BitVec.ofNat 16 a) s (BitVec.ofNat 16 (a + n)) t ∧
      t.word 0xFFFF = s.word 0xFFFF := by
  induction n with
  | zero => exact fun a s _ _ => ⟨s, .none, rfl⟩
  | succ n ih =>
    intro a s ha h
    obtain ⟨w, t, u, h1, h2, h3, h4, h5⟩ := h.word sv (BitVec.ofNat 16 a)
      (by rw [BitVec.toNat_ofNat, Nat.mod_eq_of_lt (by omega)]; omega)
    obtain ⟨v, h6, h7⟩ := ih (a + 1) u (by omega) h4
    refine ⟨v, .word h1 h2 h3 ?_, h7.trans h5⟩
    rw [show BitVec.ofNat 16 a + 1 = BitVec.ofNat 16 (a + 1) from (BitVec.ofNat_add a 1).symm, Nat.add_comm n 1, ← Nat.add_assoc]
    exact h6

/-- A running state whose first `m` addresses hold a string, with `k` keys. -/
theorem LongString.exists (m k : Nat) (hm : m ≤ 65536) : ∃ s : State, LongString m k s ∧ s.run = .running ∧
    s.pending = none ∧ s.reg .r0 = BitVec.ofNat 16 0 ∧ (m = 65535 → s.word 0xFFFF = 0x0000) := by
  obtain ⟨hc, hr, hp, hg⟩ := filled_frame m (plainWith [] (List.replicate k (.byte 0x01)) [])
  refine ⟨filled m (plainWith [] (List.replicate k (.byte 0x01)) []),
    ⟨filled_wf m _ rfl, fun a ha => ?_, congrArg Console.polls hc, ⟨k, Nat.le_refl _, congrArg Console.keys hc⟩,
      congrArg Console.writes hc⟩, hr, hp, congrArg (fun x : Regs => x.get .r0) hg, fun h => ?_⟩
  · rw [filled_word m _ rfl hm, if_pos ha]
    decide
  · subst h
    exact filled_word 65535 _ rfl hm 0xFFFF

/-- The link leaves a long string. -/
theorem LongString.linked {m n : Nat} {s : State} (h : LongString m n s) : LongString m n (linked s) :=
  ⟨h.mem, h.words, h.polls, h.keys, h.writes⟩

/-- Words that are all written, and then the rest of the run. -/
theorem StringRun.of_words {sv : StringService} {n : Nat} {a b : Word} {s t u : State} (h : StringWords sv n a s b t)
    (hu : StringRun sv 0 b t u) : StringRun sv n a s u := by
  induction h with
  | none => exact hu
  | word h1 h2 h3 _ ih => exact .word h1 h2 h3 (ih hu)

/-- A terminator at 0xFFFF ends a run. -/
theorem StringRun.last (sv : StringService) (t : State) (h : t.word 0xFFFF = 0x0000) : StringRun sv 0 0xFFFF t t :=
  .terminator ((memRead_plain t (by decide)).trans (by rw [h]))

/-- The longest string of one step, 65,535 words; and 65,536 words, after which the next step goes on. -/
theorem witness_StringServicesFollowPseudocode_long (sv : StringService) :
    (∃ s t : State, StringRun sv 65535 (s.reg .r0) (linked s) t) ∧
    (∃ (s : State) (b : Word) (t : State), StringWords sv 65536 (s.reg .r0) (linked s) b t) ∧
    (∃ (s : State) (b : Word) (t : State), s.run = .running ∧ s.pending = some (.stringAt sv 0x0000) ∧
      StringWords sv 65536 0x0000 { s with pending := none } b t) := by
  obtain ⟨s, h1, _, _, h2, h3⟩ := LongString.exists 65535 65535 (by omega)
  obtain ⟨t, h4, h5⟩ := LongString.allWords sv (by omega) 65535 0 _ (by omega) h1.linked
  obtain ⟨s', g1, g2, g3, g4, _⟩ := LongString.exists 65536 65536 (by omega)
  obtain ⟨t', g5, _⟩ := LongString.allWords sv (by omega) 65536 0 _ (by omega) g1.linked
  obtain ⟨u', g6, _⟩ := LongString.allWords sv (by omega) 65536 0 _ (by omega) g1
  exact ⟨⟨s, t, h2.symm ▸ StringRun.of_words h4 (StringRun.last sv t (h5.trans (h3 rfl)))⟩, ⟨s', _, t', g4.symm ▸ g5⟩,
    ⟨{ s' with pending := some (.stringAt sv 0x0000) }, BitVec.ofNat 16 (0 + 65536), u', g2, rfl, g3 ▸ g6⟩⟩

/-- A string word whose read had waited, and after it the longest string of one step, 65,534 words more; and 65,535 words
more, after which the next step goes on. -/
theorem witness_StringServicesFollowPseudocode_waited_long (sv : StringService) :
    (∃ (s : State) (w : Word) (u x v : State), s.run = .running ∧ s.pending = some (.statusKey (.stringWord sv 0x0000)) ∧
      takeStatusKey { s with pending := none } = (.value w, u) ∧ w ≠ 0x0000 ∧ writeBytes (sv.bytes w) u = (.done, x) ∧
      StringRun sv 65534 (0x0000 + 1) x v) ∧
    (∃ (s : State) (w : Word) (u x : State) (b : Word) (v : State), s.run = .running ∧
      s.pending = some (.statusKey (.stringWord sv 0x0000)) ∧
      takeStatusKey { s with pending := none } = (.value w, u) ∧ w ≠ 0x0000 ∧ writeBytes (sv.bytes w) u = (.done, x) ∧
      StringWords sv 65535 (0x0000 + 1) x b v) := by
  have key : ∀ m n, m ≤ 65536 → Config.kbsr.toNat < m → ∃ (s : State) (w : Word) (u x : State), s.run = .running ∧
      s.pending = some (.statusKey (.stringWord sv 0x0000)) ∧ takeStatusKey { s with pending := none } = (.value w, u) ∧
      w ≠ 0x0000 ∧ writeBytes (sv.bytes w) u = (.done, x) ∧ LongString m n x ∧ (m = 65535 → x.word 0xFFFF = 0x0000) := by
    intro m n hm hk
    obtain ⟨s, h, hr, hp, _, hz⟩ := LongString.exists m (n + 1) hm
    obtain ⟨u, h1, h2, h3⟩ := h.afterKey
    obtain ⟨x, h4, h5, h6⟩ := h2.afterWrites sv (s.word Config.kbsr)
    exact ⟨{ s with pending := some (.statusKey (.stringWord sv 0x0000)) }, _, u, x, hr, rfl, hp ▸ h1, h.words _ hk, h4, h5,
      fun e => h6.trans (h3.trans (hz e))⟩
  obtain ⟨s, w, u, x, h1, h2, h3, h4, h5, h6, h7⟩ := key 65535 65534 (by omega) (by decide)
  obtain ⟨v, h8, h9⟩ := LongString.allWords sv (by omega) 65534 1 x (by omega) h6
  obtain ⟨s', w', u', x', g1, g2, g3, g4, g5, g6, _⟩ := key 65536 65535 (by omega) (by decide)
  obtain ⟨v', g8, _⟩ := LongString.allWords sv (by omega) 65535 1 x' (by omega) g6
  exact ⟨⟨s, w, u, x, v, h1, h2, h3, h4, h5,
      StringRun.of_words h8 (StringRun.last sv v (h9.trans (h7 rfl)))⟩,
    ⟨s', w', u', x', _, v', g1, g2, g3, g4, g5, g8⟩⟩

/-- The vectors next to the service vectors. -/
theorem witness_UnknownTrapMeaning :
    (0xF01F : Word).extractLsb' 12 4 = 0xF ∧
    ¬ (0x20 ≤ ((0xF01F : Word).extractLsb' 0 8).toNat ∧ ((0xF01F : Word).extractLsb' 0 8).toNat ≤ 0x25) ∧
    (0xF026 : Word).extractLsb' 12 4 = 0xF ∧
    ¬ (0x20 ≤ ((0xF026 : Word).extractLsb' 0 8).toNat ∧ ((0xF026 : Word).extractLsb' 0 8).toNat ≤ 0x25) := by decide

theorem witness_UnsupportedOpcodeMeaning :
    (0x8FFF : Word).extractLsb' 12 4 = 0x8 ∧ (0xDABC : Word).extractLsb' 12 4 = 0xD ∧ plain.params.opcodeMap = opcodeMap ∧
    plain.params.opcodeMap.wf = true ∧ decodeWith plain.params.opcodeMap 0x8FFF = .rti ∧
    decodeWith plain.params.opcodeMap 0xDABC = .res ∧ OpcodeMap.wf opcodeMap.reverse = true ∧
    decodeWith opcodeMap.reverse 0x7FFF = .rti ∧ decodeWith opcodeMap.reverse 0x2ABC = .res := by decide

/-- A service that completes, one that waits and one that fails; and a register that is neither R0 nor R7. -/
theorem witness_TrapLinksAndKeepsPc :
    (isTrap .trapOut = true ∧ exec .trapOut plain = .next (nextOf (exec .trapOut plain))) ∧
    (isTrap .trapGetc = true ∧ exec .trapGetc plain = .next (nextOf (exec .trapGetc plain))) ∧
    (isTrap (.trapUnknown 0x26) = true ∧
      exec (.trapUnknown 0x26) plain = .next (nextOf (exec (.trapUnknown 0x26) plain))) ∧
    Reg.r1 ≠ Reg.r0 ∧ Reg.r1 ≠ Reg.r7 := ⟨⟨rfl, rfl⟩, ⟨rfl, rfl⟩, ⟨rfl, rfl⟩, by decide, by decide⟩

/-- The first and the last write of each service that can fail. -/
theorem witness_FailedWriteRaises (n : Nat) :
    (plainWith [] [.byte 0x41] (failsAfter n)).console.writes = List.replicate n .done ++ .fails :: [] ∧
    (plainWith [] [.byte 0x41] (failsAfter n)).console.keys = .byte 0x41 :: [] ∧ 0 < 5 ∧ 4 < 5 ∧ 0 < 19 ∧ 18 < 19 := by
  simp [plainWith, withConsole, failsAfter]

/-- Each answer of the two console calls of a read of the status word. -/
theorem witness_MemReadMeaning :
    plain.mem.wf = true ∧ (0xFE01 : Word) ≠ 0xFE00 ∧ (0xFDFF : Word) ≠ 0xFE00 ∧
    (plainWith [.fails] [] []).console.poll = (.fails, ⟨[], [], [], []⟩) ∧
    plain.console.poll = (.no, ⟨[], [], [], []⟩) ∧
    (plainWith [] [.byte 0x41] []).console.poll = (.yes, ⟨[], [.byte 0x41], [], []⟩) ∧
    Console.takeKey ⟨[], [.byte 0x41], [], []⟩ = (.byte 0x41, ⟨[], [], [], []⟩) ∧
    (plainWith [.yes] [.notYet] []).console.poll = (.yes, ⟨[], [.notYet], [], []⟩) ∧
    Console.takeKey ⟨[], [.notYet], [], []⟩ = (.notYet, ⟨[], [], [], []⟩) ∧
    (plainWith [.yes] [.fails] []).console.poll = (.yes, ⟨[], [.fails], [], []⟩) ∧
    Console.takeKey ⟨[], [.fails], [], []⟩ = (.fails, ⟨[], [], [], []⟩) := by decide

/-- A read of the status word after a store there, with a key and without. -/
theorem witness_MemWriteMeaning :
    plain.mem.wf = true ∧ (memRead 0xFE00 (memWrite 0xFE00 0x0005 plain)).1 = .value 0x0000 ∧
    (memRead 0xFE00 (memWrite 0xFE00 0x0005 (plainWith [] [.byte 0x41] []))).1 = .value 0x8005 := by decide

theorem witness_ReadAfterWrite :
    plain.mem.wf = true ∧ (0xFE02 : Word) ≠ 0xFE00 ∧ (0xFFFF : Word) ≠ 0xFE00 ∧ plain.console.poll.1 = .no ∧
    (0x0001 : Word) ≠ 0x0000 := by decide

/-- A read that finds a key; the second read finds none, or finds another. -/
theorem witness_StatusReadConsumesKey :
    (let s := plainWith [] [.byte 0x41] []
     s.mem.wf = true ∧ s.console.poll = (.yes, ⟨[], [.byte 0x41], [], []⟩) ∧
     Console.takeKey ⟨[], [.byte 0x41], [], []⟩ = (.byte 0x41, ⟨[], [], [], []⟩) ∧
     (0x0041 : Word) = (0x41 : Byte).zeroExtend 16 ∧ memRead 0xFE00 s = (.value 0x8000, (memRead 0xFE00 s).2) ∧
     s.word 0xFE00 &&& 0x7FFF = 0x0000 ∧ Console.poll ⟨[], [], [], []⟩ = (.no, ⟨[], [], [], []⟩)) ∧
    (let s := plainWith [] [.byte 0x41, .byte 0x42] []
     s.mem.wf = true ∧ s.console.poll = (.yes, ⟨[], [.byte 0x41, .byte 0x42], [], []⟩) ∧
     Console.takeKey ⟨[], [.byte 0x41, .byte 0x42], [], []⟩ = (.byte 0x41, ⟨[], [.byte 0x42], [], []⟩) ∧
     memRead 0xFE00 s = (.value 0x8000, (memRead 0xFE00 s).2) ∧
     Console.poll ⟨[], [.byte 0x42], [], []⟩ = (.yes, ⟨[], [.byte 0x42], [], []⟩) ∧
     Console.takeKey ⟨[], [.byte 0x42], [], []⟩ = (.byte 0x42, ⟨[], [], [], []⟩)) := by decide

theorem witness_ReadyBitUnderBothSettings :
    (0x8000 : Word) &&& 0x7FFF = 0x0000 ∧ (0x0000 : Word) &&& 0x7FFF = 0x0000 ∧ 14 < 15 := by decide

/-- A state at 0x3000 with a pointer to 0xFE01 at 0x3000, R1 = 0xBEEF and R2 = 0xFE01. -/
def pointerState : State := startRegs 0x3000 [(0x3000, 0xFE01)] [(.r1, 0xBEEF), (.r2, 0xFE01)]

/-- Each store form, at an address beside the keyboard words, followed by each load form. -/
theorem witness_StoreThenLoadRoundTrip :
    pointerState.mem.wf = true ∧ (0xFE01 : Word) ≠ Config.kbsr ∧ (0xFE01 : Word) ≠ Config.kbdr ∧
    storeAddress (.sti .r1 0) pointerState = some 0xFE01 ∧
    exec (.sti .r1 0) pointerState = .next (nextOf (exec (.sti .r1 0) pointerState)) ∧
    storeAddress (.str .r1 .r2 0) pointerState = some 0xFE01 ∧
    exec (.str .r1 .r2 0) pointerState = .next (nextOf (exec (.str .r1 .r2 0) pointerState)) ∧
    storeAddress (.st .r1 1) pointerState = some 0x3001 ∧
    exec (.st .r1 1) pointerState = .next (nextOf (exec (.st .r1 1) pointerState)) ∧
    pointerState.pc + sext9 1 = 0x3001 ∧ pointerState.reg .r2 + sext6 0 = 0xFE01 ∧
    pointerState.pc + sext9 0 ≠ Config.kbsr ∧ pointerState.word (pointerState.pc + sext9 0) = 0xFE01 :=
  ⟨by decide, by decide, by decide, by decide, rfl, by decide, rfl, by decide, rfl, by decide, by decide, by decide, by decide⟩

theorem witness_PcAfterEachInstruction :
    exec (.jsrr .r7) plain = .next (nextOf (exec (.jsrr .r7) plain)) ∧
    exec (.br 0b010 1) plain = .next (nextOf (exec (.br 0b010 1) plain)) := ⟨rfl, rfl⟩

/-- An instruction that sets the flags, one that does not, one that waits and one that fails before it sets them. -/
theorem witness_FlagsWrittenOnlyBy :
    plain.run = .running ∧ plain.pending = none ∧
    flagRegister (.lea .r1 0) = some .r1 ∧ exec (.lea .r1 0) plain = .next (nextOf (exec (.lea .r1 0) plain)) ∧
    (nextOf (exec (.lea .r1 0) plain)).run ≠ .faulted .ioFailure ∧ (nextOf (exec (.lea .r1 0) plain)).pending = none ∧
    flagRegister (.st .r1 0) = none ∧ exec (.st .r1 0) plain = .next (nextOf (exec (.st .r1 0) plain)) ∧
    flagRegister .trapGetc = some .r0 ∧ exec .trapGetc plain = .next (nextOf (exec .trapGetc plain)) ∧
    (nextOf (exec .trapGetc plain)).pending ≠ none ∧
    exec .trapGetc (plainWith [] [.fails] []) = .next (nextOf (exec .trapGetc (plainWith [] [.fails] []))) ∧
    (nextOf (exec .trapGetc (plainWith [] [.fails] []))).run = .faulted .ioFailure :=
  ⟨rfl, rfl, rfl, rfl, by decide, rfl, rfl, rfl, rfl, rfl, by decide, rfl, rfl⟩

theorem witness_OnlyBranchReadsFlags :
    (∀ flags off, Instr.addReg .r0 .r1 .r2 ≠ .br flags off) ∧
    exec (.addReg .r0 .r1 .r2) plain = .next (nextOf (exec (.addReg .r0 .r1 .r2) plain)) :=
  ⟨by simp, rfl⟩

theorem witness_RegistersWrittenOnly :
    exec (.jsrr .r7) plain = .next (nextOf (exec (.jsrr .r7) plain)) ∧ Reg.r6 ∉ regsWritten (.jsrr .r7) := ⟨rfl, by decide⟩

/-- A store with an address outside it, and a read of the status word with an address outside the keyboard words. -/
theorem witness_MemoryFrame :
    plain.mem.wf = true ∧ exec (.st .r1 0) plain = .next (nextOf (exec (.st .r1 0) plain)) ∧
    storeAddress (.st .r1 0) plain ≠ some 0x3001 ∧ mayReadStatus (.st .r1 0) plain = false ∧
    exec (.ldr .r0 .r2 0b111111) pointerState = .next (nextOf (exec (.ldr .r0 .r2 0b111111) pointerState)) ∧
    mayReadStatus (.ldr .r0 .r2 0b111111) pointerState = true ∧ storeAddress (.ldr .r0 .r2 0b111111) pointerState ≠ some 0xFE01 ∧
    (0xFE01 : Word) ≠ Config.kbsr ∧ (0xFE01 : Word) ≠ Config.kbdr :=
  ⟨by decide, rfl, by decide, by decide, rfl, by decide, by decide, by decide, by decide⟩

theorem witness_ConsoleCallersOnly :
    callsConsole (.ld .r0 0) = false ∧ mayReadStatus (.ld .r0 0) plain = false ∧
    exec (.ld .r0 0) plain = .next (nextOf (exec (.ld .r0 0) plain)) ∧ raisesAlways (.ld .r0 0) = false :=
  ⟨by decide, by decide, rfl, by decide⟩

/-- A fetch that answers a word, one that fails, and a word in memory; and a fetch that had waited, with a key and with a
failure. -/
theorem witness_StepRunsDecodedInstruction :
    plain.run = .running ∧ plain.pending = none ∧ memRead plain.pc plain = (.value 0x0000, plain) ∧
    (let s := withConsole (start 0xFE00 []) [.fails] [] []
     s.run = .running ∧ s.pending = none ∧ memRead s.pc s = (.fails, (memRead s.pc s).2)) ∧
    plain.pc ≠ Config.kbsr ∧ Instr.wellFormed (.br 0 0) = true ∧
    decodeWith plain.params.opcodeMap (plain.word plain.pc) = .br 0 0 ∧
    (let s := { withConsole (start 0xFE00 [(0xFE00, 0x8000)]) [] [.byte 0x41] [] with pending := some (.statusKey .fetch) }
     s.run = .running ∧ takeStatusKey (s.setPending none) = (.value 0x8000, (takeStatusKey (s.setPending none)).2)) ∧
    (let s := { withConsole (start 0xFE00 [(0xFE00, 0x8000)]) [] [.fails] [] with pending := some (.statusKey .fetch) }
     s.run = .running ∧ takeStatusKey (s.setPending none) = (.fails, (takeStatusKey (s.setPending none)).2)) := by decide

theorem witness_RunStateTransitions :
    State.reset.run = .notStarted ∧ (plain.setRun .halted).run = .halted ∧
    (plain.setRun (.faulted .ioFailure)).run = .faulted .ioFailure ∧ plain.run = .running := by decide

/-- A HALT, from a fetch at once and from a fetch of the status word that had waited. -/
theorem witness_OnlyHaltHalts :
    (let s := start 0x3000 [(0x3000, 0xF025)]
     s.run = .running ∧ step s = .next (nextOf (step s)) ∧ (nextOf (step s)).run = .halted ∧ Ended (nextOf (step s))) ∧
    (let s := { withConsole (start 0xFE00 [(0xFE00, 0xF025)]) [] [.byte 0x41] [] with pending := some (.statusKey .fetch) }
     s.run = .running ∧ step s = .next (nextOf (step s)) ∧ (nextOf (step s)).run = .halted) :=
  ⟨⟨rfl, rfl, rfl, .inl rfl⟩, ⟨rfl, rfl, rfl⟩⟩

/-- RTI from a fetch at once, RTI from a fetch of the status word that had waited, RES, and an unknown vector. -/
theorem witness_FatalConditionSources :
    (let s := start 0x3000 [(0x3000, 0x8000)]
     s.run = .running ∧ step s = .next (nextOf (step s)) ∧ Executes s 0x8000 s ∧ decodeWith s.params.opcodeMap 0x8000 = .rti ∧
     (nextOf (step s)).run = .faulted (.unsupportedOpcode 0x8)) ∧
    (let s := { withConsole (start 0xFE00 [(0xFE00, 0x8000)]) [] [.byte 0x41] [] with pending := some (.statusKey .fetch) }
     s.run = .running ∧ step s = .next (nextOf (step s)) ∧ Executes s 0x8000 (takeStatusKey (s.setPending none)).2 ∧
     (nextOf (step s)).run = .faulted (.unsupportedOpcode 0x8)) ∧
    (let s := start 0x3000 [(0x3000, 0xDABC)]
     s.run = .running ∧ step s = .next (nextOf (step s)) ∧ Executes s 0xDABC s ∧ decodeWith s.params.opcodeMap 0xDABC = .res) ∧
    (let s := start 0x3000 [(0x3000, 0xF0FF)]
     s.run = .running ∧ step s = .next (nextOf (step s)) ∧ Executes s 0xF0FF s ∧ decodeWith s.params.opcodeMap 0xF0FF = .trapUnknown 0xFF ∧
     (nextOf (step s)).run = .faulted (.unknownTrap 0xFF)) :=
  ⟨⟨rfl, rfl, .inl ⟨rfl, rfl⟩, by decide, rfl⟩, ⟨rfl, rfl, .inr ⟨rfl, rfl⟩, rfl⟩,
    ⟨rfl, rfl, .inl ⟨rfl, rfl⟩, by decide⟩, ⟨rfl, rfl, .inl ⟨rfl, rfl⟩, by decide, rfl⟩⟩

/-- Each kind of waiting instruction, with an answer `notYet` to come and with none; and a fetch that comes to wait. -/
theorem witness_WaitingReadIsAHang :
    (let s := { plainWith [] [.notYet] [] with pending := some .getcKey }
     s.run = .running ∧ s.pending = some .getcKey ∧ s.console.takeKey = (.notYet, ⟨[], [], [], []⟩)) ∧
    (let s := { plain with pending := some .inKey }
     s.run = .running ∧ s.pending = some .inKey ∧ s.console.takeKey = (.notYet, ⟨[], [], [], []⟩) ∧ s.console.keys = []) ∧
    (let s := { plain with pending := some (.statusKey (.load .r1)) }
     s.run = .running ∧ s.pending = some (.statusKey (.load .r1)) ∧ s.console.keys = []) ∧
    (let s := withConsole (start 0xFE00 []) [.yes] [] []
     s.run = .running ∧ s.pending = none ∧ memRead s.pc s = (.waits, (memRead s.pc s).2)) := by decide

/-- A state in which each of the addresses is the keyboard status word, one in which the pointer of LDI is, and states that wait at
each of the three uses of a read. -/
theorem witness_WaitingChangesOnlyTheMoment :
    (let s := withConsole (startRegs 0xFE00 [] [(.r0, 0xFE00)]) [.yes] [.notYet, .byte 0x41] (failsAfter 19)
     s.run = .running ∧ s.pending = none ∧ s.console.keys = .notYet :: .byte 0x41 :: [] ∧
     (∀ w ∈ s.console.writes.take 19, w = .done) ∧ s.pc + sext9 0 = Config.kbsr ∧ s.reg .r0 + sext6 0 = Config.kbsr ∧
     s.reg .r0 = Config.kbsr ∧ s.console.polls = .yes :: []) ∧
    (let s := withConsole (start 0xFE01 [(0xFE01, 0xFE00)]) [.yes] [.notYet, .byte 0x41] []
     s.run = .running ∧ s.pending = none ∧ s.pc + sext9 0 ≠ Config.kbsr ∧ s.word (s.pc + sext9 0) = Config.kbsr) ∧
    (let s := { plainWith [] [.byte 0x41] [] with pending := some (.statusKey (.load .r1)) }
     s.run = .running ∧ s.pending = some (.statusKey (.load .r1))) ∧
    (let s := { plainWith [] [.byte 0x41] [] with pending := some (.statusKey (.loadPointer .r1)) }
     s.run = .running ∧ s.pending = some (.statusKey (.loadPointer .r1))) ∧
    (let s := { plainWith [] [.byte 0x41] [] with pending := some (.statusKey (.storePointer .r1)) }
     s.run = .running ∧ s.pending = some (.statusKey (.storePointer .r1))) := by decide

/-- A step that appends bytes, and one that appends none. -/
theorem witness_OutputLogIsWriteOnly :
    (let s := start 0x3000 [(0x3000, 0xF025)]
     step s = .next (nextOf (step s)) ∧ (nextOf (step s)).console.out = [0x48, 0x41, 0x4C, 0x54, 0x0A]) ∧
    step plain = .next (nextOf (step plain)) := ⟨⟨rfl, rfl⟩, rfl⟩

theorem witness_ResetState : plain.cond = .zro ∧ (0b010 : BitVec 3).getLsbD 1 = true := by decide

/-- An image over the end of memory, and an address outside it. -/
theorem witness_LoaderEffect :
    plain.mem.wf = true ∧ [0x1111, (0x2222 : Word)].length ≤ 65536 ∧ 1 < [0x1111, (0x2222 : Word)].length ∧
    (∀ i, i < [0x1111, (0x2222 : Word)].length → (0x0001 : Word) ≠ 0xFFFF + BitVec.ofNat 16 i) := by decide

/-- A state with nothing in progress, and one that waits; and another legal OPCODE_MAP. -/
theorem witness_StepKeepsInv :
    (Inv plain ∧ step plain = .next (nextOf (step plain))) ∧
    (let s := { plain with pending := some .getcKey, params := ⟨opcodeMap.reverse, .assign⟩ }
     Inv s ∧ step s = .next (nextOf (step s))) :=
  ⟨⟨⟨by decide, by decide, by decide⟩, rfl⟩, ⟨⟨by decide, by decide, by decide⟩, rfl⟩⟩

theorem witness_ConstructedMachineHasInv : OpcodeMap.wf opcodeMap.reverse = true := by decide

/-- Each store form, to the address of the next instruction (V-M7 for ST). -/
theorem witness_StoreIntoNextInstruction :
    (let s := startRegs 0x3001 [(0x3001, 0x3001)] [(.r0, 0xF025), (.r2, 0x3001)]
     s.mem.wf = true ∧ s.run = .running ∧ s.pending = none ∧ s.pc ≠ Config.kbsr ∧
     storeAddress (.st .r0 0) s = some s.pc ∧ exec (.st .r0 0) s = .next (nextOf (exec (.st .r0 0) s)) ∧
     storeAddress (.sti .r0 0) s = some s.pc ∧ exec (.sti .r0 0) s = .next (nextOf (exec (.sti .r0 0) s)) ∧
     storeAddress (.str .r0 .r2 0) s = some s.pc ∧ exec (.str .r0 .r2 0) s = .next (nextOf (exec (.str .r0 .r2 0) s))) :=
  ⟨by decide, rfl, rfl, by decide, by decide, rfl, by decide, rfl, by decide, rfl⟩

/-- The last of the no-operations, at the last address. -/
theorem witness_NoFlagBranchIsNop :
    (let s := start 0xFFFF [(0xFFFF, 0x01FF)]
     s.run = .running ∧ s.pending = none ∧ s.params.opcodeMap = opcodeMap ∧ s.pc ≠ Config.kbsr ∧
     (s.word s.pc).toNat < 0x0200) ∧ (0x01FF : Word).toNat < 0x0200 := by decide

theorem witness_PlacedWordRunsNext : State.reset.mem.wf = true ∧ State.reset.pc ≠ Config.kbsr := by decide

/-- A register written and another. -/
theorem witness_GeneralRegisters : Reg.r0 = Reg.r0 ∧ Reg.r0 ≠ Reg.r7 := by decide


end Sys2Proof.Tests
end

section
/-! Sign extension and zero extension (R15): the sign extension of the library, which the model uses, is the source's formula with
the mask of ones, at every field width. -/

namespace Sys2Proof.Machine

/-- The source's mask of ones, shifted left by the width of the field, fills exactly the bits above the field. -/
theorem signExtend_eq_or_of_msb {n : Nat} {v : BitVec n} (h : v.msb = true) :
    v.signExtend 16 = v.zeroExtend 16 ||| ((0xFFFF : Word) <<< n) := by
  ext i hi
  by_cases hin : i < n
  · simp [BitVec.getElem_signExtend, BitVec.getLsbD_eq_getElem, hin]
  · have hfill : (0xFFFF#16)[i - n] = true := BitVec.getElem_allOnes (i - n) (by omega)
    simp [BitVec.getElem_signExtend, hin, h, hfill]

/-- The formula of R15, for every width of the field. -/
theorem signExtend_eq_ite_or {n : Nat} (v : BitVec n) :
    v.signExtend 16 =
      if v.getLsbD (n - 1) = true then v.zeroExtend 16 ||| ((0xFFFF : Word) <<< n) else v.zeroExtend 16 := by
  rw [← BitVec.msb_eq_getLsbD_last]
  split
  case isTrue h => exact signExtend_eq_or_of_msb h
  case isFalse h => exact BitVec.signExtend_eq_setWidth_of_msb_false (Bool.eq_false_of_not_eq_true h)

/-- A widened console byte keeps its value, so later proofs need not unfold `zext8`. -/
@[simp] theorem toNat_zext8 (k : Byte) : (zext8 k).toNat = k.toNat :=
  BitVec.toNat_setWidth_of_le (by decide)

/-- Settles O6: the four widths are one formula, proved at every width; the two examples are evaluated. -/
theorem signAndZeroExtension : Obligations.SignAndZeroExtension :=
  ⟨signExtend_eq_ite_or, signExtend_eq_ite_or, signExtend_eq_ite_or, signExtend_eq_ite_or, toNat_zext8,
    by decide, by decide⟩

end Sys2Proof.Machine
end

section
/-! The general registers, the flag rule and the machine after reset (R21, R28, R41 to R45): facts about the state itself, read
off the register file's laws and from what the loader leaves alone. -/

namespace Sys2Proof.Machine

open Sys2Proof.Safety

/-! ## The general registers and the flag rule -/

/-- Every assignment of words to the eight registers is a register file (R21). -/
theorem Regs.exists_get_eq (f : Reg → Word) : ∃ x : Regs, ∀ i, x.get i = f i :=
  ⟨⟨f .r0, f .r1, f .r2, f .r3, f .r4, f .r5, f .r6, f .r7⟩, fun i => by cases i <;> rfl⟩

/-- Settles O60: field values and registers name each other, a write is read back and leaves the others, and any eight words fit. -/
theorem generalRegisters : Obligations.GeneralRegisters :=
  ⟨Reg.toBits_ofBits, Reg.ofBits_toBits, Regs.get_set, State.reg_setReg, Regs.exists_get_eq⟩

/-- Settles O7: `setcc` is by definition one write of `cond`, with the flag of the register's current value. -/
theorem flagUpdateRule : Obligations.FlagUpdateRule :=
  ⟨rfl, rfl, rfl, fun _ _ => rfl⟩

/-! ## BR -/

/-- The whole effect of BR, with its test written out (R140). -/
theorem exec_br (flags : BitVec 3) (off : BitVec 9) (s : State) :
    exec (.br flags off) s = .next (if flags &&& s.cond.bits ≠ 0 then { s with pc := s.pc + sext9 off } else s) := by
  rw [← if_congr (branchTaken_iff flags s.cond) rfl rfl]
  show Host.Outcome.next _ = Host.Outcome.next _
  cases branchTaken flags s.cond <;> rfl

/-- The z bit of BR selects ZRO (R27, R140). -/
theorem and_bits_zro_ne_zero {flags : BitVec 3} (hz : flags.getLsbD 1 = true) : flags &&& Cond.bits .zro ≠ 0 := by
  revert flags
  decide

/-! ## What the loader leaves alone -/

/-- What plain stores keep, the loader keeps (R252). -/
theorem loadImage_keeps {P : State → Prop} (hput : ∀ a v t, P t → P (t.putWord a v)) (origin : Word) (words : List Word)
    (s : State) (hs : P s) : P (loadImage origin words s) := by
  induction words generalizing origin s with
  | nil => exact hs
  | cons w ws ih => exact ih _ _ (hput _ _ _ hs)

variable (origin : Word) (words : List Word) (s : State)

@[simp] theorem loadImage_pc : (loadImage origin words s).pc = s.pc :=
  loadImage_keeps (P := fun t => t.pc = s.pc) (fun _ _ _ h => h) origin words s rfl

@[simp] theorem loadImage_cond : (loadImage origin words s).cond = s.cond :=
  loadImage_keeps (P := fun t => t.cond = s.cond) (fun _ _ _ h => h) origin words s rfl

@[simp] theorem loadImage_run : (loadImage origin words s).run = s.run :=
  loadImage_keeps (P := fun t => t.run = s.run) (fun _ _ _ h => h) origin words s rfl

/-- Loading an image keeps the invariant (R252). -/
theorem loadImage_inv (hs : Inv s) : Inv (loadImage origin words s) :=
  loadImage_keeps (fun a v t h => ⟨State.wf_putWord t h.mem a v, h.pending, h.opcodeMap⟩) origin words s hs

/-! ## After reset -/

/-- The machine has the invariant as constructed, when OPCODE_MAP is legal: its memory is empty and nothing is in progress. -/
theorem construct_inv {params : Params} (hm : params.opcodeMap.wf = true) (gpr : Regs) : Inv (State.construct params gpr) :=
  ⟨Memory.wf_nil, fun h => absurd rfl h, hm⟩

/-- Settles O56: construction establishes the invariant and the loader keeps it. -/
theorem constructedMachineHasInv : Obligations.ConstructedMachineHasInv :=
  ⟨construct_inv opcodeMap_wf _, fun _ gpr origin words hm => loadImage_inv origin words _ (construct_inv hm gpr)⟩

/-- Settles O53: the loader leaves `pc`, `cond` and `run` as they were constructed, and the z bit selects the flag ZRO. -/
theorem resetState : Obligations.ResetState := by
  intro params gpr origin words
  refine ⟨loadImage_pc .., loadImage_cond .., loadImage_run .., ?_, rfl⟩
  intro s flags off hcond hz
  rw [exec_br, hcond, if_pos (and_bits_zro_ne_zero hz)]

end Sys2Proof.Machine
end

section
/-! The pc and the general registers over all instructions (R22, R25). -/

namespace Sys2Proof.Machine

open Sys2Proof.Statements

/-! ## The pc -/

/-- An instruction that sets the flags and a TRAP leave the pc at the next instruction, whether they complete, wait or fail. -/
theorem exec_pc_of_flags_or_trap {i : Instr} {s t : State} (h : exec i s = .next t)
    (hi : flagRegister i ≠ none ∨ isTrap i = true) : t.pc = s.pc :=
  exec_keeps (P := fun t => t.pc = s.pc) i s t h rfl
    (hread := fun b t h => (memRead_pc t b).trans h) (hkey := fun _ h => h) (hwrite := fun _ _ h => h)
    (hpark := fun _ _ h => h) (hraise := fun _ h => h) (hfatal := fun _ _ _ h => h) (hcc := fun _ _ _ _ h => h)
    (hlink := fun h _ => h) (hpc := fun _ _ _ htrap hflag _ => (hi.elim (· hflag) htrap).elim)
    (hst := fun _ _ _ _ h => h) (hhalt := fun _ _ h => h)

/-- STI leaves the pc from its pointer read on, whatever the read answers (R161). -/
theorem storeThrough_pc (sr : Reg) (r : ReadResult × State) : (storeThrough sr r).pc = r.2.pc :=
  finishRead_elim (P := fun t => t.pc = r.2.pc) _ _ _ (fun _ _ => rfl) rfl rfl

/-- The link makes R7 the incremented pc, so `JSRR R7` falls through (R144). -/
theorem State.reg_link (s : State) (i : Reg) : s.link.reg i = if i = .r7 then s.pc else s.reg i :=
  State.reg_setReg s .r7 i s.pc

/-- Settles O40: the four jumps write their target, which JSRR reads after the link; the stores and the two unsupported opcodes do not
write the pc, and no other instruction does. -/
theorem pcAfterEachInstruction : Obligations.PcAfterEachInstruction := by
  intro i s t h
  cases i
  case br flags off =>
    rw [exec_br] at h
    cases h
    exact apply_ite State.pc ..
  case jsrr baseR =>
    cases h
    exact State.reg_link s baseR
  case sti sr off =>
    cases h
    exact (storeThrough_pc _ _).trans (memRead_pc s _)
  case jmp | jsr | st | str | rti | res =>
    cases h
    rfl
  case addReg | addImm | andReg | andImm | not | ld | ldi | ldr | lea =>
    exact exec_pc_of_flags_or_trap h (.inl (Option.some_ne_none _))
  case trapGetc | trapOut | trapPuts | trapIn | trapPutsp | trapHalt | trapUnknown =>
    exact exec_pc_of_flags_or_trap h (.inr rfl)

/-! ## The frame of the general registers -/

@[simp] theorem reg_memRead (s : State) (a : Word) (i : Reg) : (memRead a s).2.reg i = s.reg i :=
  congrArg (·.get i) (memRead_regs s a)

@[simp] theorem reg_writeBytes (s : State) (bs : List Byte) (i : Reg) : (writeBytes bs s).2.reg i = s.reg i :=
  congrArg (·.get i) (writeBytes_regs s bs)

/-- A write of a destination register with its flags leaves the other registers. -/
theorem State.reg_setRegCc_of_ne (s : State) {d i : Reg} (hi : i ≠ d) (v : Word) : (s.setRegCc d v).reg i = s.reg i :=
  (State.reg_setReg s d i v).trans (if_neg hi)

/-- The link leaves every register but R7. -/
theorem State.reg_link_of_ne (s : State) {i : Reg} (hi : i ≠ .r7) : s.link.reg i = s.reg i :=
  (State.reg_link s i).trans (if_neg hi)

/-- The register that the flags come from is one that R22 lists. -/
theorem mem_regsWritten_of_flagRegister {i : Instr} {d : Reg} (h : flagRegister i = some d) : d ∈ regsWritten i := by
  cases i <;> cases h <;> simp [regsWritten]

/-- R22 lists R7 for every instruction that links. -/
theorem r7_mem_regsWritten_of_links {i : Instr} (h : isTrap i = true ∨ (∃ o, i = .jsr o) ∨ ∃ b, i = .jsrr b) :
    .r7 ∈ regsWritten i := by
  obtain h | ⟨o, rfl⟩ | ⟨b, rfl⟩ := h
  · cases i <;> cases h <;> simp [regsWritten]
  · simp [regsWritten]
  · simp [regsWritten]

/-- Settles O43: an instruction writes registers only as a destination with its flags and as the link, both in R22's table. -/
theorem registersWrittenOnly : Obligations.RegistersWrittenOnly := by
  intro i s t h r hr
  exact exec_keeps (P := fun t => t.reg r = s.reg r) i s t h rfl
    (hread := fun b t h => (reg_memRead t b r).trans h) (hkey := fun _ h => h) (hwrite := fun _ _ h => h)
    (hpark := fun _ _ h => h) (hraise := fun _ h => h) (hfatal := fun _ _ _ h => h)
    (hcc := fun d v t hd h =>
      (t.reg_setRegCc_of_ne (ne_of_mem_of_not_mem (mem_regsWritten_of_flagRegister hd) hr).symm v).trans h)
    (hlink := fun _ hl => s.reg_link_of_ne (ne_of_mem_of_not_mem (r7_mem_regsWritten_of_links hl) hr).symm)
    (hpc := fun _ _ h _ _ _ => h) (hst := fun _ _ _ _ h => h) (hhalt := fun _ _ h => h)

end Sys2Proof.Machine
end

section
/-! The flags over all instructions (R29, R30): how an instruction that sets the flags can end, and that no instruction but BR
depends on them. -/

namespace Sys2Proof.Machine

open Sys2Proof.Statements

/-! ## How an instruction that sets the flags ends -/

/-- An instruction with the destination register `d`, begun in `s`, has come to `t` and has neither written `d` and the flags nor come
to wait or failed. -/
structure FlagsAhead (d : Reg) (s t : State) : Prop where
  run : t.run = s.run
  pending : t.pending = s.pending
  cond : t.cond = s.cond
  reg : t.reg d = s.reg d

namespace FlagsAhead

variable {d : Reg} {s t : State}

theorem refl (d : Reg) (s : State) : FlagsAhead d s s := ⟨rfl, rfl, rfl, rfl⟩

theorem afterRead (h : FlagsAhead d s t) (a : Word) : FlagsAhead d s (memRead a t).2 :=
  ⟨(memRead_run t a).trans h.run, (memRead_pending t a).trans h.pending, (memRead_cond t a).trans h.cond,
    (reg_memRead t a d).trans h.reg⟩

theorem afterKey (h : FlagsAhead d s t) : FlagsAhead d s (readKey t).2 := ⟨h.run, h.pending, h.cond, h.reg⟩

theorem afterWrite (h : FlagsAhead d s t) (b : Byte) : FlagsAhead d s (writeByte b t).2 :=
  ⟨h.run, h.pending, h.cond, h.reg⟩

theorem afterWrites (h : FlagsAhead d s t) (bs : List Byte) : FlagsAhead d s (writeBytes bs t).2 :=
  ⟨(writeBytes_run t bs).trans h.run, (writeBytes_pending t bs).trans h.pending, (writeBytes_cond t bs).trans h.cond,
    (reg_writeBytes t bs d).trans h.reg⟩

theorem afterLink (hd : d ≠ .r7) (s : State) : FlagsAhead d s s.link := ⟨rfl, rfl, rfl, s.reg_link_of_ne hd⟩

end FlagsAhead

/-- The three ways in which an instruction with the destination register `d`, begun in `s`, ends a step: it writes `d` and the flags
as its last act, or it waits before that, or it has failed before that (R29, R83, R84). -/
inductive FlagsEnd (d : Reg) (s : State) : State → Prop where
  | sets {t : State} (v : Word) : FlagsAhead d s t → FlagsEnd d s (t.setRegCc d v)
  | waits {t : State} (p : Pending) : FlagsAhead d s t → FlagsEnd d s (t.park p)
  | fails {t : State} : FlagsAhead d s t → FlagsEnd d s (t.raise .ioFailure)

theorem loadFrom_flagsEnd {d : Reg} {s : State} {r : ReadResult × State} (h : FlagsAhead d s r.2) :
    FlagsEnd d s (loadFrom d r) :=
  finishRead_elim _ _ _ (fun v _ => .sets v h) (.waits _ h) (.fails h)

theorem loadThrough_flagsEnd {d : Reg} {s : State} {r : ReadResult × State} (h : FlagsAhead d s r.2) :
    FlagsEnd d s (loadThrough d r) :=
  finishRead_elim _ _ _ (fun a _ => loadFrom_flagsEnd (h.afterRead a)) (.waits _ h) (.fails h)

theorem getcFrom_flagsEnd {s : State} {r : KeyAnswer × State} (h : FlagsAhead .r0 s r.2) : FlagsEnd .r0 s (getcFrom r) :=
  finishKey_elim _ _ _ (fun k _ => .sets (zext8 k) h) (.waits _ h) (.fails h)

theorem inFrom_flagsEnd {s : State} {r : KeyAnswer × State} (h : FlagsAhead .r0 s r.2) : FlagsEnd .r0 s (inFrom r) :=
  finishKey_elim _ _ _
    (fun k _ => finishWrite_elim _ _ (fun _ => .sets (zext8 k) (h.afterWrite k)) (.fails (h.afterWrite k)))
    (.waits _ h) (.fails h)

/-- Every instruction that sets the flags ends in one of the three ways (R29). -/
theorem exec_flagsEnd {i : Instr} {d : Reg} {s t : State} (hd : flagRegister i = some d) (h : exec i s = .next t) :
    FlagsEnd d s t := by
  have hlink : FlagsAhead .r0 s s.link := .afterLink (by decide) s
  cases i <;> cases hd <;> cases h
  case addReg | addImm | andReg | andImm | not | lea => exact .sets _ (.refl d s)
  case ld | ldr => exact loadFrom_flagsEnd ((FlagsAhead.refl d s).afterRead _)
  case ldi => exact loadThrough_flagsEnd ((FlagsAhead.refl d s).afterRead _)
  case trapGetc => exact getcFrom_flagsEnd hlink.afterKey
  case trapIn =>
    have hprompt := hlink.afterWrites promptBytes
    exact finishWrite_elim _ _ (fun _ => inFrom_flagsEnd hprompt.afterKey) (.fails hprompt)

/-- An instruction without a flag register leaves `cond` (R29). -/
theorem exec_cond_of_flagRegister_none {i : Instr} {s t : State} (h : exec i s = .next t) (hi : flagRegister i = none) :
    t.cond = s.cond :=
  exec_keeps (P := fun t => t.cond = s.cond) i s t h rfl
    (hread := fun b t h => (memRead_cond t b).trans h) (hkey := fun _ h => h) (hwrite := fun _ _ h => h)
    (hpark := fun _ _ h => h) (hraise := fun _ h => h) (hfatal := fun _ _ _ h => h)
    (hcc := fun d _ _ hd _ => absurd (hi.symm.trans hd) (Option.some_ne_none d).symm)
    (hlink := fun h _ => h) (hpc := fun _ _ h _ _ _ => h) (hst := fun _ _ _ _ h => h) (hhalt := fun _ _ h => h)

/-- Settles O41: an instruction that sets the flags ends in one of three ways, told apart by `run` and `pending`; no other writes
`cond`. -/
theorem flagsWrittenOnlyBy : Obligations.FlagsWrittenOnlyBy := by
  refine ⟨fun i s t h hi => exec_cond_of_flagRegister_none h hi, ?_, fun a s => memRead_cond s a⟩
  intro i d s t hd hrun hpend h
  cases exec_flagsEnd hd h with
  | @sets t v ht =>
    have hrunning : (t.setRegCc d v).run = .running := ht.run.trans hrun
    have hnone : (t.setRegCc d v).pending = none := ht.pending.trans hpend
    exact ⟨fun hstop => by simp [hrunning, hnone] at hstop, fun _ _ => State.setRegCc_cond t d v⟩
  | waits p ht => exact ⟨fun _ => ⟨ht.cond, ht.reg⟩, fun _ hnone => nomatch hnone⟩
  | fails ht => exact ⟨fun _ => ⟨ht.cond, ht.reg⟩, fun hrun => absurd rfl hrun⟩

/-- What `cond` can be after an instruction: as before, or by the flag rule from the flag register (R28, R29). -/
theorem exec_cond_cases {i : Instr} {s t : State} (h : exec i s = .next t) :
    t.cond = s.cond ∨ ∃ d, flagRegister i = some d ∧ t.cond = flagOf (t.reg d) := by
  cases hd : flagRegister i with
  | none => exact .inl (exec_cond_of_flagRegister_none h hd)
  | some d =>
    cases exec_flagsEnd hd h with
    | sets v _ => exact .inr ⟨d, rfl, State.setRegCc_cond _ d v⟩
    | waits _ ht => exact .inl ht.cond
    | fails ht => exact .inl ht.cond

/-! ## Two states that differ in `cond` only -/

/-- The two states differ in `cond` at most. -/
def SameButCond (s t : State) : Prop := ∃ c, t = s.setCond c

/-- The end of a status read answers alike whatever `cond` is, and leaves it. -/
theorem takeStatusKey_setCond (s : State) (c : Cond) :
    takeStatusKey (s.setCond c) = ((takeStatusKey s).1, (takeStatusKey s).2.setCond c) := by
  have hkey : readKey (s.setCond c) = ((readKey s).1, (readKey s).2.setCond c) := rfl
  unfold takeStatusKey
  rw [hkey]
  obtain ⟨_ | _ | _, t⟩ := readKey s <;> rfl

/-- A status read answers alike whatever `cond` is, and leaves it. -/
theorem readStatus_setCond (s : State) (c : Cond) :
    readStatus (s.setCond c) = ((readStatus s).1, (readStatus s).2.setCond c) := by
  have hpoll : keyAvailable (s.setCond c) = ((keyAvailable s).1, (keyAvailable s).2.setCond c) := rfl
  unfold readStatus
  rw [hpoll]
  obtain ⟨_ | _ | _, t⟩ := keyAvailable s
  · exact takeStatusKey_setCond (t.putWord Config.kbsr (t.params.readyWrite.apply (t.word Config.kbsr))) c
  · rfl
  · rfl

/-- A read answers alike whatever `cond` is, and leaves it. -/
theorem memRead_setCond (a : Word) (s : State) (c : Cond) :
    memRead a (s.setCond c) = ((memRead a s).1, (memRead a s).2.setCond c) := by
  unfold memRead
  split
  · exact readStatus_setCond s c
  · rfl

/-- No named operation reads `cond`, so each keeps two states the same but for `cond` (R30). -/
theorem sameButCond_simulation : Simulation SameButCond where
  read := fun a s _ ⟨c, h⟩ => by
    rw [h, memRead_setCond]
    exact ⟨rfl, c, rfl⟩
  status := fun s _ ⟨c, h⟩ => by
    rw [h, takeStatusKey_setCond]
    exact ⟨rfl, c, rfl⟩
  cc := fun d v s _ ⟨_, h⟩ => ⟨(s.setRegCc d v).cond, h ▸ rfl⟩
  key := fun _ _ ⟨c, h⟩ => h ▸ ⟨rfl, c, rfl⟩
  write := fun _ _ _ ⟨c, h⟩ => h ▸ ⟨rfl, c, rfl⟩
  park := fun _ _ _ ⟨c, h⟩ => ⟨c, h ▸ rfl⟩
  raise := fun _ _ _ ⟨c, h⟩ => ⟨c, h ▸ rfl⟩
  pend := fun _ _ _ ⟨c, h⟩ => ⟨c, h ▸ rfl⟩
  run := fun _ _ _ ⟨c, h⟩ => ⟨c, h ▸ rfl⟩
  rg := fun _ _ _ _ ⟨c, h⟩ => ⟨c, h ▸ rfl⟩
  pc := fun _ _ _ ⟨c, h⟩ => ⟨c, h ▸ rfl⟩
  st := fun _ _ _ _ ⟨c, h⟩ => ⟨c, h ▸ rfl⟩
  eqs := fun _ _ ⟨_, h⟩ => h ▸ ⟨rfl, rfl, rfl⟩

/-- Settles O42: two states that differ in `cond` only stay so under every instruction but BR, whose test is written out, and `cond`
changes by the flag rule only. -/
theorem onlyBranchReadsFlags : Obligations.OnlyBranchReadsFlags := by
  refine ⟨?_, exec_br, fun i s t h => exec_cond_cases h⟩
  intro i s t c hbr h
  obtain ⟨_, ht', c', rfl⟩ := sim_exec sameButCond_simulation i s (s.setCond c) t ⟨c, rfl⟩
    (fun flags off hi => absurd hi (hbr flags off)) h
  exact ⟨_, ht', rfl⟩

end Sys2Proof.Machine
end

section
/-! The invariant over every step (R12, R50, R83): no operation changes a parameter or takes memory out of its canonical form, and an
instruction that comes to wait does so while the machine runs. -/

namespace Sys2Proof.Machine

open Sys2Proof.Safety Sys2Proof.Statements

/-! ## An instruction in progress only while Running -/

/-- The machine runs and no instruction is in progress: where an instruction begins, and where it still is between two of its
operations. -/
structure Active (s : State) : Prop where
  run : s.run = .running
  pending : s.pending = none

/-- An instruction is in progress only while the machine runs: where an instruction ends, waits or fails (R83). -/
def PendingOnlyRunning (s : State) : Prop := s.pending ≠ none → s.run = .running

namespace Active

variable {s : State}

theorem completes (h : Active s) : PendingOnlyRunning s := fun _ => h.run

theorem waits (h : Active s) (p : Pending) : PendingOnlyRunning (s.park p) := fun _ => h.run

/-- A failure and a halt leave nothing in progress, because nothing was. -/
theorem setRun (h : Active s) (r : RunState) : PendingOnlyRunning (s.setRun r) := fun hp => absurd h.pending hp

theorem afterLink (h : Active s) : Active s.link := ⟨h.run, h.pending⟩

theorem afterSetPc (h : Active s) (v : Word) : Active (s.setPc v) := ⟨h.run, h.pending⟩

theorem afterRead (h : Active s) (a : Word) : Active (memRead a s).2 :=
  ⟨(memRead_run s a).trans h.run, (memRead_pending s a).trans h.pending⟩

theorem afterStatusKey (h : Active s) : Active (takeStatusKey s).2 :=
  ⟨(takeStatusKey_run s).trans h.run, (takeStatusKey_pending s).trans h.pending⟩

theorem afterKey (h : Active s) : Active (readKey s).2 := ⟨h.run, h.pending⟩

theorem afterWrite (h : Active s) (b : Byte) : Active (writeByte b s).2 := ⟨h.run, h.pending⟩

theorem afterWrites (h : Active s) (bs : List Byte) : Active (writeBytes bs s).2 :=
  ⟨(writeBytes_run s bs).trans h.run, (writeBytes_pending s bs).trans h.pending⟩

end Active

/-- Whichever way an instruction that sets the flags ends, it keeps to the rule (R83, R84). -/
theorem FlagsEnd.pendingOnlyRunning {d : Reg} {s t : State} (h : FlagsEnd d s t) (hs : Active s) : PendingOnlyRunning t := by
  cases h with
  | sets v ht => exact fun _ => ht.run.trans hs.run
  | waits p ht => exact fun _ => ht.run.trans hs.run
  | fails ht => exact fun hp => absurd (ht.pending.trans hs.pending) hp

theorem loadFrom_pendingOnlyRunning (d : Reg) {r : ReadResult × State} (h : Active r.2) : PendingOnlyRunning (loadFrom d r) :=
  (loadFrom_flagsEnd (.refl d r.2)).pendingOnlyRunning h

theorem loadThrough_pendingOnlyRunning (d : Reg) {r : ReadResult × State} (h : Active r.2) :
    PendingOnlyRunning (loadThrough d r) :=
  (loadThrough_flagsEnd (.refl d r.2)).pendingOnlyRunning h

theorem getcFrom_pendingOnlyRunning {r : KeyAnswer × State} (h : Active r.2) : PendingOnlyRunning (getcFrom r) :=
  (getcFrom_flagsEnd (.refl .r0 r.2)).pendingOnlyRunning h

theorem inFrom_pendingOnlyRunning {r : KeyAnswer × State} (h : Active r.2) : PendingOnlyRunning (inFrom r) :=
  (inFrom_flagsEnd (.refl .r0 r.2)).pendingOnlyRunning h

theorem storeThrough_pendingOnlyRunning (sr : Reg) {r : ReadResult × State} (h : Active r.2) :
    PendingOnlyRunning (storeThrough sr r) :=
  finishRead_elim _ _ _ (fun _ _ _ => h.run) (h.waits _) (h.setRun _)

theorem stringTurn_pendingOnlyRunning (service : StringService) (a : Word) {rest : Word → State → State}
    (hrest : ∀ b t, Active t → PendingOnlyRunning (rest b t)) {r : ReadResult × State} (h : Active r.2) :
    PendingOnlyRunning (stringTurn service a rest r) := by
  refine finishRead_elim _ _ _ (fun w _ => ?_) (h.waits _) (h.setRun _)
  show PendingOnlyRunning (if w = 0x0000 then _ else _)
  split
  · exact h.completes
  · have hbytes := h.afterWrites (service.bytes w)
    exact finishWrite_elim _ _ (fun _ => hrest _ _ hbytes) (hbytes.setRun _)

theorem stringLoop_pendingOnlyRunning (service : StringService) (n : Nat) (a : Word) {r : ReadResult × State}
    (h : Active r.2) : PendingOnlyRunning (stringLoop service n a r) := by
  induction n generalizing a r with
  | zero => exact stringTurn_pendingOnlyRunning service a (fun _ _ ht => ht.waits _) h
  | succ n ih => exact stringTurn_pendingOnlyRunning service a (fun b _ ht => ih b (ht.afterRead b)) h

/-- Of the instructions without a flag register only STI, PUTS and PUTSP can come to wait; the others end with nothing in progress. -/
theorem exec_pendingOnlyRunning_of_flagRegister_none {i : Instr} {s t : State} (hs : Active s) (hi : flagRegister i = none)
    (h : exec i s = .next t) : PendingOnlyRunning t := by
  have hlink := hs.afterLink
  cases i <;> cases hi <;> cases h
  case br flags off =>
    cases branchTaken flags s.cond
    · exact hs.completes
    · exact (hs.afterSetPc _).completes
  case jmp | jsr | jsrr | st | str => exact fun _ => hs.run
  case sti sr off => exact storeThrough_pendingOnlyRunning sr (hs.afterRead _)
  case rti | res => exact hs.setRun _
  case trapUnknown => exact hlink.setRun _
  case trapPuts | trapPutsp => exact stringLoop_pendingOnlyRunning _ _ _ (hlink.afterRead _)
  case trapOut =>
    have hbyte := hlink.afterWrite (lowByte (s.link.reg .r0))
    exact finishWrite_elim _ _ (fun _ => hbyte.completes) (hbyte.setRun _)
  case trapHalt =>
    have htext := hlink.afterWrites haltBytes
    exact finishWrite_elim _ _ (fun _ => htext.setRun _) (htext.setRun _)

/-- An instruction that begins while the machine runs and ends with something in progress leaves the machine running (R83, R208). -/
theorem exec_pendingOnlyRunning {i : Instr} {s t : State} (hs : Active s) (h : exec i s = .next t) : PendingOnlyRunning t := by
  cases hflag : flagRegister i with
  | none => exact exec_pendingOnlyRunning_of_flagRegister_none hs hflag h
  | some d => exact (exec_flagsEnd hflag h).pendingOnlyRunning hs

theorem afterFetch_pendingOnlyRunning {r : ReadResult × State} {t : State} (hr : Active r.2)
    (h : afterFetch exec r = .next t) : PendingOnlyRunning t := by
  obtain ⟨answer, s⟩ := r
  cases answer with
  | value ir => exact exec_pendingOnlyRunning (hr.afterSetPc _) h
  | waits =>
    cases h
    exact hr.waits _
  | fails =>
    cases h
    exact hr.setRun _

/-- An instruction that waited and is gone on with keeps to the rule: it ends, fails, or comes to wait while Running (R83). -/
theorem resume_pendingOnlyRunning {p : Pending} {s t : State} (hs : Active s) (h : resume exec p s = .next t) :
    PendingOnlyRunning t := by
  cases p with
  | getcKey =>
    cases h
    exact getcFrom_pendingOnlyRunning hs.afterKey
  | inKey =>
    cases h
    exact inFrom_pendingOnlyRunning hs.afterKey
  | stringAt service a =>
    cases h
    exact stringLoop_pendingOnlyRunning _ _ _ (hs.afterRead a)
  | statusKey use =>
    have hkey := hs.afterStatusKey
    cases use with
    | fetch => exact afterFetch_pendingOnlyRunning hkey h
    | load dr =>
      cases h
      exact loadFrom_pendingOnlyRunning dr hkey
    | loadPointer dr =>
      cases h
      exact loadThrough_pendingOnlyRunning dr hkey
    | storePointer sr =>
      cases h
      exact storeThrough_pendingOnlyRunning sr hkey
    | stringWord service a =>
      cases h
      exact stringLoop_pendingOnlyRunning _ _ _ hkey

/-- A step while Running leaves something in progress only if the machine still runs. -/
theorem step_pendingOnlyRunning {s t : State} (hrun : s.run = .running) (h : step s = .next t) : PendingOnlyRunning t := by
  cases hpend : s.pending with
  | none => exact afterFetch_pendingOnlyRunning (Active.afterRead ⟨hrun, hpend⟩ _) (step_fetches s hrun hpend ▸ h)
  | some p => exact resume_pendingOnlyRunning (s := s.setPending none) ⟨hrun, rfl⟩ (step_resumes s hrun hpend ▸ h)

/-! ## Every step -/

/-- Only the `run()` invocation and a step while Running have a next state (R203, R205, R209). -/
theorem step_next_cases {s t : State} (h : step s = .next t) : (s.run = .notStarted ∧ t = s.start) ∨ s.run = .running := by
  unfold step at h
  cases hrun : s.run <;> rw [hrun] at h
  case notStarted =>
    cases h
    exact .inl ⟨rfl, rfl⟩
  case running => exact .inr rfl
  case halted | faulted => cases h

/-- No step changes a parameter of the machine (R12). -/
theorem step_params {s t : State} (h : step s = .next t) : t.params = s.params := by
  obtain ⟨_, rfl⟩ | hrun := step_next_cases h
  · rfl
  · exact step_keeps (P := fun t => t.params = s.params) s t hrun h rfl
      (hread := fun b t h => (memRead_params t b).trans h) (hkey := fun _ h => h)
      (hstat := fun t h => (takeStatusKey_params t).trans h) (hwrite := fun _ _ h => h) (hpark := fun _ _ h => h)
      (hraise := fun _ _ h => h) (hcc := fun _ _ _ h => h) (hlink := fun _ h => h) (hpc := fun _ _ h => h)
      (hst := fun _ _ _ h => h) (hhalt := fun _ h => h)

/-- Every step keeps the canonical form of memory (R50, R58). -/
theorem step_wf {s t : State} (h : step s = .next t) (hs : s.mem.wf = true) : t.mem.wf = true := by
  obtain ⟨_, rfl⟩ | hrun := step_next_cases h
  · exact hs
  · exact step_keeps (P := fun t => t.mem.wf = true) s t hrun h hs
      (hread := fun b t h => memRead_wf t h b) (hkey := fun _ h => h) (hstat := fun t h => takeStatusKey_wf t h)
      (hwrite := fun _ _ h => h) (hpark := fun _ _ h => h) (hraise := fun _ _ h => h) (hcc := fun _ _ _ h => h)
      (hlink := fun _ h => h) (hpc := fun _ _ h => h) (hst := fun a v t h => State.wf_putWord t h a v)
      (hhalt := fun _ h => h)

/-- Every step keeps the invariant. -/
theorem step_inv {s t : State} (h : step s = .next t) (hs : Inv s) : Inv t where
  mem := step_wf h hs.mem
  pending := by
    obtain ⟨_, rfl⟩ | hrun := step_next_cases h
    · exact fun _ => rfl
    · exact step_pendingOnlyRunning hrun h
  opcodeMap := (step_params h).symm ▸ hs.opcodeMap

/-- Settles O55: parameters and canonical memory are kept operation by operation; an instruction in progress is told from the way each
instruction ends. -/
theorem stepKeepsInv : Obligations.StepKeepsInv :=
  fun _ _ h => ⟨step_params h, step_inv h⟩

end Sys2Proof.Machine
end

section
/-! Memory through the arbiter (R51, R55 to R59): each answer of a read of the keyboard status word, and what the keyboard words
hold afterwards. -/

namespace Sys2Proof.Machine

/-! ## The ready bit -/

theorem getLsbD_readyBit (i : Nat) : (0x8000#16).getLsbD i = decide (i = 15) := by
  rw [show 0x8000#16 = BitVec.twoPow 16 15 from rfl, BitVec.getLsbD_twoPow]
  simp [eq_comm]

/-- The status word once a key was found, bit by bit: bit 15 is set, and a low bit is kept by the OR and cleared by the assignment
(R55). -/
theorem ReadyWrite.getLsbD_apply (setting : ReadyWrite) (old : Word) (i : Nat) :
    (setting.apply old).getLsbD i = (decide (i = 15) || decide (setting = .or) && old.getLsbD i) := by
  cases setting <;> simp [ReadyWrite.apply, getLsbD_readyBit, Bool.or_comm]

theorem and_or_absorb (x y : Word) : x &&& y ||| y = y := by
  ext i hi
  simp

/-- Where the low bits were zero both settings give the ready bit alone (R55). -/
theorem ReadyWrite.apply_eq_of_low_zero (setting : ReadyWrite) {old : Word} (hlow : old &&& 0x7FFF = 0x0000) :
    setting.apply old = 0x8000 := by
  cases setting
  case assign => rfl
  case or =>
    have hhigh : old = old &&& 0x8000 := by
      calc old = old &&& (0x7FFF ||| 0x8000) := BitVec.and_allOnes.symm
        _ = 0x0000 ||| old &&& 0x8000 := by rw [BitVec.and_or_distrib_left, hlow]
        _ = old &&& 0x8000 := BitVec.zero_or
    calc old ||| 0x8000 = old &&& 0x8000 ||| 0x8000 := congrArg (· ||| (0x8000 : Word)) hhigh
      _ = 0x8000 := and_or_absorb old 0x8000

/-- Settles O38: read off the status word bit by bit. -/
theorem readyBitUnderBothSettings : Obligations.ReadyBitUnderBothSettings := by
  intro setting old
  refine ⟨setting.getLsbD_apply old 15, setting.apply_eq_of_low_zero, fun i hi => ?_⟩
  rw [setting.getLsbD_apply, decide_eq_false hi.ne, Bool.false_or]

/-! ## A word after a store -/

variable {s : State}

theorem State.word_putWord_same (hs : s.mem.wf = true) (a v : Word) : (s.putWord a v).word a = v :=
  (s.word_putWord hs a v a).trans (if_pos rfl)

theorem State.word_putWord_of_ne (hs : s.mem.wf = true) {a b : Word} (h : b ≠ a) (v : Word) :
    (s.putWord a v).word b = s.word b :=
  (s.word_putWord hs a v b).trans (if_neg h)

theorem kbsr_ne_kbdr : Config.kbsr ≠ Config.kbdr := by decide

/-! ## The end of a status read -/

section
variable {d : Console}

/-- The key goes to the data word, and the read gives the status word, which the key does not touch (R55). -/
theorem takeStatusKey_of_byte (hs : s.mem.wf = true) {k : Byte} (hk : s.console.takeKey = (.byte k, d)) :
    takeStatusKey s = (.value (s.word Config.kbsr), (s.setConsole d).putWord Config.kbdr (zext8 k)) := by
  have hstatus := State.word_putWord_of_ne (s := s.setConsole d) hs kbsr_ne_kbdr (zext8 k)
  unfold takeStatusKey readKey
  rw [hk]
  exact congrArg (fun v => (ReadResult.value v, _)) hstatus

theorem takeStatusKey_of_notYet (hk : s.console.takeKey = (.notYet, d)) : takeStatusKey s = (.waits, s.setConsole d) := by
  unfold takeStatusKey readKey
  rw [hk]

theorem takeStatusKey_of_fails (hk : s.console.takeKey = (.fails, d)) : takeStatusKey s = (.fails, s.setConsole d) := by
  unfold takeStatusKey readKey
  rw [hk]

end

/-! ## The answers of a read of the status word -/

/-- The state in which a read of the status word that found a key calls `ReadKey()`: the console answered the poll with `yes` and the
ready bit is set (R55). -/
def State.keyFound (s : State) (c : Console) : State :=
  (s.setConsole c).putWord Config.kbsr (s.params.readyWrite.apply (s.word Config.kbsr))

/-- The state after a read of the status word that took the key `k` (R55). -/
def State.keyTaken (s : State) (k : Byte) (d : Console) : State := (s.keyFound d).putWord Config.kbdr (zext8 k)

theorem State.keyFound_wf (hs : s.mem.wf = true) (c : Console) : (s.keyFound c).mem.wf = true :=
  (s.setConsole c).wf_putWord hs _ _

theorem State.keyTaken_wf (hs : s.mem.wf = true) (k : Byte) (d : Console) : (s.keyTaken k d).mem.wf = true :=
  (s.keyFound d).wf_putWord (s.keyFound_wf hs d) _ _

theorem State.keyFound_kbsr (hs : s.mem.wf = true) (c : Console) :
    (s.keyFound c).word Config.kbsr = s.params.readyWrite.apply (s.word Config.kbsr) :=
  State.word_putWord_same (s := s.setConsole c) hs _ _

theorem State.keyTaken_kbsr (hs : s.mem.wf = true) (k : Byte) (d : Console) :
    (s.keyTaken k d).word Config.kbsr = s.params.readyWrite.apply (s.word Config.kbsr) :=
  (State.word_putWord_of_ne (s.keyFound_wf hs d) kbsr_ne_kbdr _).trans (s.keyFound_kbsr hs d)

theorem State.keyTaken_kbdr (hs : s.mem.wf = true) (k : Byte) (d : Console) :
    (s.keyTaken k d).word Config.kbdr = zext8 k :=
  State.word_putWord_same (s.keyFound_wf hs d) _ _

section
variable {c d : Console}

/-- A poll that fails leaves the keyboard words alone (R55, R84). -/
theorem memRead_status_of_pollFails (hp : s.console.poll = (.fails, c)) :
    memRead Config.kbsr s = (.fails, s.setConsole c) := by
  rw [memRead_status]
  unfold readStatus keyAvailable
  rw [hp]

/-- Without a key the status word becomes 0x0000, which the read gives (R55). -/
theorem memRead_status_of_noKey (hs : s.mem.wf = true) (hp : s.console.poll = (.no, c)) :
    memRead Config.kbsr s = (.value 0x0000, (s.setConsole c).putWord Config.kbsr 0x0000) := by
  have hstatus := State.word_putWord_same (s := s.setConsole c) hs Config.kbsr 0x0000
  rw [memRead_status]
  unfold readStatus keyAvailable
  rw [hp]
  exact congrArg (fun v => (ReadResult.value v, _)) hstatus

/-- With a key the ready bit is set before `ReadKey()` is called (R55). -/
theorem memRead_status_of_pollYes (hp : s.console.poll = (.yes, c)) :
    memRead Config.kbsr s = takeStatusKey (s.keyFound c) := by
  rw [memRead_status]
  unfold readStatus keyAvailable
  rw [hp]
  rfl

/-- A key that is there is taken, and the read gives the status word with its ready bit (R55). -/
theorem memRead_status_of_key (hs : s.mem.wf = true) {k : Byte} (hp : s.console.poll = (.yes, c))
    (hk : c.takeKey = (.byte k, d)) :
    memRead Config.kbsr s = (.value (s.params.readyWrite.apply (s.word Config.kbsr)), s.keyTaken k d) := by
  rw [memRead_status_of_pollYes hp, takeStatusKey_of_byte (s.keyFound_wf hs c) hk, s.keyFound_kbsr hs]
  rfl

/-- The ready bit stays when `ReadKey()` waits although the poll said yes (R55, R83). -/
theorem memRead_status_of_keyWaits (hp : s.console.poll = (.yes, c)) (hk : c.takeKey = (.notYet, d)) :
    memRead Config.kbsr s = (.waits, s.keyFound d) :=
  (memRead_status_of_pollYes hp).trans (takeStatusKey_of_notYet hk)

/-- The ready bit stays when `ReadKey()` fails although the poll said yes (R55, R84). -/
theorem memRead_status_of_keyFails (hp : s.console.poll = (.yes, c)) (hk : c.takeKey = (.fails, d)) :
    memRead Config.kbsr s = (.fails, s.keyFound d) :=
  (memRead_status_of_pollYes hp).trans (takeStatusKey_of_fails hk)

end

/-- The values that a read of the status word can give: the word as it was with its ready bit set, or 0x0000 (R55). -/
theorem memRead_status_value {w : Word} (hs : s.mem.wf = true) (h : (memRead Config.kbsr s).1 = .value w) :
    w = s.params.readyWrite.apply (s.word Config.kbsr) ∨ w = 0x0000 := by
  rcases hp : s.console.poll with ⟨poll, c⟩
  cases poll with
  | fails =>
    rw [memRead_status_of_pollFails hp] at h
    cases h
  | no =>
    rw [memRead_status_of_noKey hs hp] at h
    cases h
    exact .inr rfl
  | yes =>
    rcases hk : c.takeKey with ⟨key, d⟩
    cases key with
    | byte k =>
      rw [memRead_status_of_key hs hp hk] at h
      cases h
      exact .inl rfl
    | notYet =>
      rw [memRead_status_of_keyWaits hp hk] at h
      cases h
    | fails =>
      rw [memRead_status_of_keyFails hp hk] at h
      cases h

/-- Settles O34: one lemma for each answer of the console, and the plain read of every other address. -/
theorem memReadMeaning : Obligations.MemReadMeaning := by
  intro s hs
  exact ⟨fun a => memRead_plain s, fun c => memRead_status_of_pollFails, fun c => memRead_status_of_noKey hs,
    fun c d hp => ⟨fun k => memRead_status_of_key hs hp, memRead_status_of_keyWaits hp, memRead_status_of_keyFails hp⟩⟩

/-! ## Read after write -/

/-- Every address but the status word reads back what was stored there (R59). -/
theorem memRead_memWrite (hs : s.mem.wf = true) {a : Word} (ha : a ≠ Config.kbsr) (v : Word) :
    memRead a (memWrite a v s) = (.value v, memWrite a v s) := by
  rw [memRead_plain _ ha]
  exact congrArg (fun w => (ReadResult.value w, _)) (State.word_putWord_same hs a v)

/-- A read of the status word that finds no key leaves what was stored in the data word (R58, R59). -/
theorem memRead_kbdr_after_noKey (hs : s.mem.wf = true) (hp : s.console.poll.1 = .no) (v : Word) :
    (memRead Config.kbdr (memRead Config.kbsr (memWrite Config.kbdr v s)).2).1 = .value v := by
  have hwf := s.wf_putWord hs Config.kbdr v
  rcases hc : s.console.poll with ⟨poll, c⟩
  rw [hc] at hp
  cases hp
  rw [memRead_status_of_noKey (s := memWrite Config.kbdr v s) hwf hc, memRead_plain _ kbsr_ne_kbdr.symm,
    State.word_putWord_of_ne (s := (memWrite Config.kbdr v s).setConsole c) hwf kbsr_ne_kbdr.symm]
  exact congrArg ReadResult.value (State.word_putWord_same hs _ v)

/-- Settles O35: a store is one write of memory; the next reads are those of R55 and R57. -/
theorem memWriteMeaning : Obligations.MemWriteMeaning := by
  intro a v s hs
  refine ⟨rfl, s.word_putWord hs a v, fun w hw => ?_, memRead_memWrite hs kbsr_ne_kbdr.symm v,
    fun hp => memRead_kbdr_after_noKey hs hp v⟩
  have hstored := State.word_putWord_same hs Config.kbsr v
  exact hstored ▸ memRead_status_value (s.wf_putWord hs Config.kbsr v) hw

/-- Settles O36: but for the status word, which a read without a key makes 0x0000 whatever was stored there. -/
theorem readAfterWrite : Obligations.ReadAfterWrite := by
  refine ⟨fun a v s hs ha => memRead_memWrite hs ha v, fun v s hs hp => memRead_kbdr_after_noKey hs hp v, ?_⟩
  intro v s hs hp _
  have hpoll : (memWrite Config.kbsr v s).console.poll = (.no, s.console.poll.2) := Prod.ext hp rfl
  exact congrArg Prod.fst (memRead_status_of_noKey (s.wf_putWord hs Config.kbsr v) hpoll)

/-- Settles O37: the first read leaves the key in the data word and the ready bit in the status word; what the second does to them is
again R55. -/
theorem statusReadConsumesKey : Obligations.StatusReadConsumesKey := by
  intro s t v k c d key hs hp hk hkey hread
  obtain ⟨rfl, rfl⟩ : s.params.readyWrite.apply (s.word Config.kbsr) = v ∧ s.keyTaken key d = t := by
    simpa using (memRead_status_of_key hs hp hk).symm.trans hread
  have hwf := s.keyTaken_wf hs key d
  have hkbdr : (s.keyTaken key d).word Config.kbdr = k := (s.keyTaken_kbdr hs key d).trans hkey.symm
  refine ⟨rfl, rfl, s.params.readyWrite.apply_eq_of_low_zero, s.keyTaken_kbsr hs key d, hkbdr, ?_, ?_⟩
  · intro e hno
    exact ⟨_, memRead_status_of_noKey hwf hno, rfl, State.word_putWord_same hwf _ _,
      (State.word_putWord_of_ne hwf kbsr_ne_kbdr.symm _).trans hkbdr⟩
  · intro e f key2 hyes hbyte
    exact ⟨_, _, memRead_status_of_key hwf hyes hbyte, State.keyTaken_kbdr hwf key2 f⟩

end Sys2Proof.Machine
end

section
/-! Loads, stores and the frame of memory (R51, R57, R64, R67): an instruction whose reads are away from the keyboard status word, and
the one word that a store writes. -/

namespace Sys2Proof.Machine

open Sys2Proof.Statements

variable {s : State}

/-! ## Away from the keyboard status word -/

/-- LD at a plain address gives the stored word and the flags (R57, R150). -/
theorem exec_ld_plain {off : BitVec 9} (h : s.pcRelative off ≠ Config.kbsr) (dr : Reg) :
    exec (.ld dr off) s = .next (s.setRegCc dr (s.word (s.pcRelative off))) := by
  show Host.Outcome.next (loadFrom dr (memRead (s.pcRelative off) s)) = _
  rw [memRead_plain s h]
  rfl

/-- LDR at a plain address gives the stored word and the flags (R57, R152). -/
theorem exec_ldr_plain {baseR : Reg} {off : BitVec 6} (h : s.basePlus baseR off ≠ Config.kbsr) (dr : Reg) :
    exec (.ldr dr baseR off) s = .next (s.setRegCc dr (s.word (s.basePlus baseR off))) := by
  show Host.Outcome.next (loadFrom dr (memRead (s.basePlus baseR off) s)) = _
  rw [memRead_plain s h]
  rfl

/-- LDI with its pointer at a plain address and a plain address for a pointer gives the word at the second (R57, R151). -/
theorem exec_ldi_plain {off : BitVec 9} (h : s.pcRelative off ≠ Config.kbsr) (hptr : s.word (s.pcRelative off) ≠ Config.kbsr)
    (dr : Reg) : exec (.ldi dr off) s = .next (s.setRegCc dr (s.word (s.word (s.pcRelative off)))) := by
  show Host.Outcome.next (loadThrough dr (memRead (s.pcRelative off) s)) = _
  rw [memRead_plain s h]
  show Host.Outcome.next (loadFrom dr (memRead (s.word (s.pcRelative off)) s)) = _
  rw [memRead_plain s hptr]
  rfl

/-- STI with its pointer at a plain address stores at the address that the pointer holds (R57, R161). -/
theorem exec_sti_plain {off : BitVec 9} (h : s.pcRelative off ≠ Config.kbsr) (sr : Reg) :
    exec (.sti sr off) s = .next (s.putWord (s.word (s.pcRelative off)) (s.reg sr)) := by
  show Host.Outcome.next (storeThrough sr (memRead (s.pcRelative off) s)) = _
  rw [memRead_plain s h]
  rfl

/-- Settles O22: each read is plain, so each instruction ends as its pseudocode does. -/
theorem loadsAwayFromStatusWord : Obligations.LoadsAwayFromStatusWord := by
  intro s r baseR off9 off6
  refine ⟨fun h => ⟨?_, fun hptr => ?_, fun hs => ?_⟩, fun h => ?_⟩
  · exact (exec_ld_plain h r).trans (congrArg Host.Outcome.next (s.setRegCc_eq r _))
  · exact (exec_ldi_plain h hptr r).trans (congrArg Host.Outcome.next (s.setRegCc_eq r _))
  · exact ⟨_, exec_sti_plain h r, rfl, s.word_putWord hs _ _⟩
  · exact (exec_ldr_plain h r).trans (congrArg Host.Outcome.next (s.setRegCc_eq r _))

/-! ## A store and the next fetch -/

/-- STI stores at the word that its pointer read gives (R161). -/
theorem memRead_of_storeAddress_sti {sr : Reg} {off : BitVec 9} {a : Word} (ha : storeAddress (.sti sr off) s = some a) :
    (memRead (s.pcRelative off) s).1 = .value a := by
  simp only [storeAddress] at ha
  split at ha
  · next v hv =>
    cases ha
    exact hv
  · cases ha

/-- A store that has an address ends with one write of the source register there, after at most one read: ST and STR read nothing,
which is as good as a plain read (R160 to R162). -/
theorem exec_store {i : Instr} {sr baseR : Reg} {off9 : BitVec 9} {off6 : BitVec 6} {a : Word} {t : State}
    (hi : i = .st sr off9 ∨ i = .sti sr off9 ∨ i = .str sr baseR off6) (ha : storeAddress i s = some a)
    (h : exec i s = .next t) : ∃ b, t = (memRead b s).2.putWord a (s.reg sr) := by
  have hnoRead : ∃ b, s.putWord a (s.reg sr) = (memRead b s).2.putWord a (s.reg sr) :=
    ⟨Config.kbdr, by rw [memRead_plain s kbsr_ne_kbdr.symm]⟩
  obtain rfl | rfl | rfl := hi
  · cases ha
    cases h
    exact hnoRead
  · have hptr := memRead_of_storeAddress_sti ha
    have hreg := reg_memRead s (s.pcRelative off9) sr
    cases h
    refine ⟨s.pcRelative off9, ?_⟩
    rcases hread : memRead (s.pcRelative off9) s with ⟨answer, u⟩
    rw [hread] at hptr hreg
    cases hptr
    exact congrArg (u.putWord a) hreg
  · cases ha
    cases h
    exact hnoRead

/-- A step while Running with nothing in progress executes the word stored at the pc, unless that is the status word (R57, R201). -/
theorem step_executes_stored_word (hrun : s.run = .running) (hpend : s.pending = none) (hpc : s.pc ≠ Config.kbsr) :
    step s = exec (decodeWith s.params.opcodeMap (s.word s.pc)) { s with pc := s.pc + 1 } := by
  rw [step_fetches s hrun hpend, fetch, memRead_plain s hpc]
  rfl

/-- Settles O57: the store leaves the machine Running at the same pc, with the stored word there. -/
theorem storeIntoNextInstruction : Obligations.StoreIntoNextInstruction := by
  intro s t store sr baseR off9 off6 hs hrun hpend hpc hstore ha h
  obtain ⟨b, ht⟩ := exec_store hstore ha h
  have htrun : t.run = s.run := ht ▸ memRead_run s b
  have htpend : t.pending = s.pending := ht ▸ memRead_pending s b
  have htpc : t.pc = s.pc := ht ▸ memRead_pc s b
  have htparams : t.params = s.params := ht ▸ memRead_params s b
  have htword : t.word s.pc = s.reg sr := ht ▸ State.word_putWord_same (memRead_wf s hs b) s.pc (s.reg sr)
  rw [step_executes_stored_word (htrun.trans hrun) (htpend.trans hpend) (htpc.symm ▸ hpc), htpc, htparams, htword]

/-! ## The frame of memory -/

variable {t : State} {i : Instr}

/-- An instruction stores at its address, and a read of the status word writes the two keyboard words; nothing else writes memory
(R51, R55, R64). -/
theorem exec_word_of_ne (hs : s.mem.wf = true) (h : exec i s = .next t) {a : Word} (ha : storeAddress i s ≠ some a)
    (hkbsr : a ≠ Config.kbsr) (hkbdr : a ≠ Config.kbdr) : t.word a = s.word a :=
  (exec_keeps (P := fun t => t.mem.wf = true ∧ t.word a = s.word a) i s t h ⟨hs, rfl⟩
    (hread := fun b t ⟨hw, h⟩ => ⟨memRead_wf t hw b, (memRead_word t hw b hkbsr hkbdr).trans h⟩) (hkey := fun _ h => h)
    (hwrite := fun _ _ h => h) (hpark := fun _ _ h => h) (hraise := fun _ h => h) (hfatal := fun _ _ _ h => h)
    (hcc := fun _ _ _ _ h => h) (hlink := fun h _ => h) (hpc := fun _ _ h _ _ _ => h)
    (hst := fun b v t hb ⟨hw, h⟩ =>
      have hab : a ≠ b := fun hab => ha (hb.trans (congrArg some hab.symm))
      ⟨t.wf_putWord hw b v, (State.word_putWord_of_ne hw hab v).trans h⟩)
    (hhalt := fun _ _ h => h)).2

theorem getcFrom_mem (r : KeyAnswer × State) : (getcFrom r).mem = r.2.mem :=
  finishKey_elim (P := fun t => t.mem = r.2.mem) _ _ _ (fun _ _ => rfl) rfl rfl

theorem inFrom_mem (r : KeyAnswer × State) : (inFrom r).mem = r.2.mem :=
  finishKey_elim (P := fun t => t.mem = r.2.mem) _ _ _
    (fun _ _ => finishWrite_elim (P := fun t => t.mem = r.2.mem) _ _ (fun _ => rfl) rfl) rfl rfl

/-- An instruction that stores nothing and reads no status word leaves memory as it was (R51). -/
theorem exec_mem_of_no_access (hstore : storeAddress i s = none) (hread : mayReadStatus i s = false)
    (h : exec i s = .next t) : t.mem = s.mem := by
  cases i
  case st | str => cases hstore
  case sti sr off =>
    have hptr : s.pcRelative off ≠ Config.kbsr := beq_eq_false_iff_ne.1 hread
    simp [storeAddress, memRead_plain s hptr] at hstore
  case trapPuts | trapPutsp => cases hread
  case ld dr off =>
    rw [exec_ld_plain (beq_eq_false_iff_ne.1 hread)] at h
    cases h
    rfl
  case ldr dr baseR off =>
    rw [exec_ldr_plain (beq_eq_false_iff_ne.1 hread)] at h
    cases h
    rfl
  case ldi dr off =>
    obtain ⟨hptr, hword⟩ := Bool.or_eq_false_iff.1 hread
    rw [exec_ldi_plain (beq_eq_false_iff_ne.1 hptr) (beq_eq_false_iff_ne.1 hword)] at h
    cases h
    rfl
  case br flags off =>
    cases h
    cases branchTaken flags s.cond <;> rfl
  case addReg | addImm | andReg | andImm | not | lea | jmp | jsr | jsrr | rti | res | trapUnknown =>
    cases h
    rfl
  case trapGetc =>
    cases h
    exact getcFrom_mem _
  case trapOut =>
    cases h
    exact finishWrite_elim (P := fun t => t.mem = s.mem) _ _ (fun _ => rfl) rfl
  case trapIn =>
    cases h
    have hprompt : (writeBytes promptBytes s.link).2.mem = s.mem := writeBytes_mem _ _
    exact finishWrite_elim (P := fun t => t.mem = s.mem) _ _ (fun _ => (inFrom_mem _).trans hprompt) hprompt
  case trapHalt =>
    cases h
    have htext : (writeBytes haltBytes s.link).2.mem = s.mem := writeBytes_mem _ _
    exact finishWrite_elim (P := fun t => t.mem = s.mem) _ _ (fun _ => htext) htext

/-- An instruction that stores and reads no status word does nothing but its store (R51, R160 to R162). -/
theorem exec_eq_putWord {a : Word} (hstore : storeAddress i s = some a) (hread : mayReadStatus i s = false)
    (h : exec i s = .next t) : ∃ v, t = s.putWord a v := by
  cases i
  case st | str =>
    cases hstore
    cases h
    exact ⟨_, rfl⟩
  case sti sr off =>
    have hplain : s.pcRelative off ≠ Config.kbsr := beq_eq_false_iff_ne.1 hread
    have hptr := memRead_of_storeAddress_sti hstore
    rw [memRead_plain s hplain] at hptr
    cases hptr
    rw [exec_sti_plain hplain] at h
    cases h
    exact ⟨_, rfl⟩
  all_goals cases hstore

/-- Without a read of the status word the two keyboard words are as plain as every other (R51, R58). -/
theorem exec_word_of_not_mayReadStatus (hs : s.mem.wf = true) (hread : mayReadStatus i s = false) (h : exec i s = .next t)
    {a : Word} (ha : storeAddress i s ≠ some a) : t.word a = s.word a := by
  cases hstore : storeAddress i s with
  | none => exact congrArg (Memory.read · a.toNat) (exec_mem_of_no_access hstore hread h)
  | some b =>
    obtain ⟨v, rfl⟩ := exec_eq_putWord hstore hread h
    exact State.word_putWord_of_ne hs (fun hab => ha (hstore.trans (congrArg some hab.symm))) v

/-- Settles O44: what an instruction's operations write, with the status reads and without. -/
theorem memoryFrame : Obligations.MemoryFrame :=
  fun _ _ _ hs h => ⟨fun _ ha hkbsr hkbdr => exec_word_of_ne hs h ha hkbsr hkbdr,
    fun hread _ ha => exec_word_of_not_mayReadStatus hs hread h ha⟩

end Sys2Proof.Machine
end

section
/-! The output log (R86): no operation reads it, and what a step appends to it does not depend on what it held. -/

namespace Sys2Proof.Machine

open Sys2Proof.Statements

/-! ## The calls under another log -/

/-- The console's key does not depend on the log (R81, R86). -/
theorem Console.takeKey_with_out (c : Console) (out : List Byte) :
    { c with out := out }.takeKey = (c.takeKey.1, { c.takeKey.2 with out := out }) := by
  obtain ⟨polls, _ | ⟨k, ks⟩, writes, old⟩ := c <;> rfl

/-- The console's poll does not depend on the log (R80, R86). -/
theorem Console.poll_with_out (c : Console) (out : List Byte) :
    { c with out := out }.poll = (c.poll.1, { c.poll.2 with out := out }) := by
  obtain ⟨_ | ⟨p, ps⟩, keys, writes, old⟩ := c <;> rfl

theorem readKey_withOut (s : State) (out : List Byte) :
    readKey (withOut s out) = ((readKey s).1, withOut (readKey s).2 out) :=
  congrArg (fun r => (r.1, s.setConsole r.2)) (s.console.takeKey_with_out out)

theorem keyAvailable_withOut (s : State) (out : List Byte) :
    keyAvailable (withOut s out) = ((keyAvailable s).1, withOut (keyAvailable s).2 out) :=
  congrArg (fun r => (r.1, s.setConsole r.2)) (s.console.poll_with_out out)

/-- `WriteByte(b)` answers alike and appends alike whatever the log holds: the byte when it is accepted, nothing when it fails (R82,
R84, R86). -/
theorem writeByte_withOut (b : Byte) (s : State) :
    ∃ bytes, (writeByte b s).2.console.out = s.console.out ++ bytes ∧
      ∀ out, writeByte b (withOut s out) = ((writeByte b s).1, withOut (writeByte b s).2 (out ++ bytes)) := by
  simp only [writeByte, Console.writeByte, withOut]
  rcases s.console.writes with _ | ⟨_ | _, ws⟩
  · exact ⟨[b], rfl, fun _ => rfl⟩
  · exact ⟨[b], rfl, fun _ => rfl⟩
  · exact ⟨[], (List.append_nil _).symm, fun out => by rw [List.append_nil]; rfl⟩

/-- The end of a status read answers alike whatever the log holds, and leaves it. -/
theorem takeStatusKey_withOut (s : State) (out : List Byte) :
    takeStatusKey (withOut s out) = ((takeStatusKey s).1, withOut (takeStatusKey s).2 out) := by
  unfold takeStatusKey
  rw [readKey_withOut]
  obtain ⟨_ | _ | _, t⟩ := readKey s <;> rfl

/-- A status read answers alike whatever the log holds, and leaves it. -/
theorem readStatus_withOut (s : State) (out : List Byte) :
    readStatus (withOut s out) = ((readStatus s).1, withOut (readStatus s).2 out) := by
  unfold readStatus
  rw [keyAvailable_withOut]
  obtain ⟨_ | _ | _, t⟩ := keyAvailable s
  · exact takeStatusKey_withOut (t.putWord Config.kbsr (t.params.readyWrite.apply (t.word Config.kbsr))) out
  · rfl
  · rfl

/-- A read answers alike whatever the log holds, and leaves it. -/
theorem memRead_withOut (a : Word) (s : State) (out : List Byte) :
    memRead a (withOut s out) = ((memRead a s).1, withOut (memRead a s).2 out) := by
  unfold memRead
  split
  · exact readStatus_withOut s out
  · rfl

/-! ## Two runs that began with different logs -/

/-- The two states differ in their logs at most, and these are `before` and `before'` with the same bytes appended. -/
def SameAppended (before before' : List Byte) (s t : State) : Prop :=
  ∃ bytes, s.console.out = before ++ bytes ∧ t = withOut s (before' ++ bytes)

theorem sameAppended_withOut (s : State) (out : List Byte) : SameAppended s.console.out out s (withOut s out) :=
  ⟨[], (List.append_nil _).symm, by rw [List.append_nil]⟩

/-- No named operation reads the log, and a write appends to both logs or to neither (R86). -/
theorem sameAppended_simulation (before before' : List Byte) : Simulation (SameAppended before before') where
  read := fun a s _ ⟨bytes, hout, h⟩ => by
    rw [h, memRead_withOut]
    exact ⟨rfl, bytes, (memRead_out s a).trans hout, rfl⟩
  key := fun s _ ⟨bytes, hout, h⟩ => by
    rw [h, readKey_withOut]
    exact ⟨rfl, bytes, (readKey_out s).trans hout, rfl⟩
  status := fun s _ ⟨bytes, hout, h⟩ => by
    rw [h, takeStatusKey_withOut]
    exact ⟨rfl, bytes, (takeStatusKey_out s).trans hout, rfl⟩
  write := fun b s _ ⟨bytes, hout, h⟩ => by
    obtain ⟨more, hmore, hwrite⟩ := writeByte_withOut b s
    rw [h, hwrite, List.append_assoc]
    exact ⟨rfl, bytes ++ more, by rw [hmore, hout, List.append_assoc], rfl⟩
  park := fun _ _ _ ⟨bytes, hout, h⟩ => ⟨bytes, hout, h ▸ rfl⟩
  raise := fun _ _ _ ⟨bytes, hout, h⟩ => ⟨bytes, hout, h ▸ rfl⟩
  pend := fun _ _ _ ⟨bytes, hout, h⟩ => ⟨bytes, hout, h ▸ rfl⟩
  run := fun _ _ _ ⟨bytes, hout, h⟩ => ⟨bytes, hout, h ▸ rfl⟩
  cc := fun _ _ _ _ ⟨bytes, hout, h⟩ => ⟨bytes, hout, h ▸ rfl⟩
  rg := fun _ _ _ _ ⟨bytes, hout, h⟩ => ⟨bytes, hout, h ▸ rfl⟩
  pc := fun _ _ _ ⟨bytes, hout, h⟩ => ⟨bytes, hout, h ▸ rfl⟩
  st := fun _ _ _ _ ⟨bytes, hout, h⟩ => ⟨bytes, hout, h ▸ rfl⟩
  eqs := fun _ _ ⟨_, _, h⟩ => h ▸ ⟨rfl, rfl, rfl⟩

/-- A step from a state with another log appends the same bytes and differs in nothing else. -/
theorem step_withOut {s t : State} (h : step s = .next t) (out : List Byte) :
    ∃ bytes, t.console.out = s.console.out ++ bytes ∧ step (withOut s out) = .next (withOut t (out ++ bytes)) := by
  obtain ⟨_, hstep, bytes, hout, rfl⟩ := sim_step (sameAppended_simulation s.console.out out)
    (fun _ _ ⟨_, _, h⟩ => h ▸ ⟨rfl, rfl, rfl⟩) s (withOut s out) t (sameAppended_withOut s out) h
  exact ⟨bytes, hout, hstep⟩

/-- Settles O52: the bytes are what the step appends to the log of `s`, and with any other log it appends the same. -/
theorem outputLogIsWriteOnly : Obligations.OutputLogIsWriteOnly := by
  intro s t h
  obtain ⟨bytes, hbytes, _⟩ := step_withOut h s.console.out
  refine ⟨bytes, hbytes, fun out => ?_⟩
  obtain ⟨bytes', hbytes', hstep⟩ := step_withOut h out
  have hsame : bytes' = bytes := List.append_cancel_left (hbytes'.symm.trans hbytes)
  exact hsame ▸ hstep

end Sys2Proof.Machine
end

section
/-! Who reaches the console (R80 to R82, R222, R227), and how a write that fails ends a service (R84). -/

namespace Sys2Proof.Machine

open Sys2Proof.Statements

/-! ## A write that fails -/

section
variable {s : State} {bytes : List Byte} {n : Nat} {rest : List WriteAnswer}

/-- A service whose text fails after `n` bytes has written those and raises IoFailure; what was to follow does not happen (R84). -/
theorem finishWrite_writeBytes_fails (k : State → State)
    (h : s.console.writes = List.replicate n .done ++ .fails :: rest) (hn : n < bytes.length) :
    finishWrite k (writeBytes bytes s) = { s with
      run := .faulted .ioFailure, console := { s.console with writes := rest, out := s.console.out ++ bytes.take n } } := by
  rw [writeBytes_fails bytes s n rest h hn]
  rfl

/-- A service whose text is accepted goes on with the answers that are left (R82). -/
theorem finishWrite_writeBytes_exact (k : State → State)
    (h : s.console.writes = List.replicate bytes.length .done ++ rest) :
    finishWrite k (writeBytes bytes s) =
      k (s.setConsole { s.console with writes := rest, out := s.console.out ++ bytes }) := by
  rw [writeBytes_exact bytes s rest h]
  rfl

theorem writeByte_fails (b : Byte) (h : s.console.writes = .fails :: rest) :
    writeByte b s = (.fails, s.setConsole { s.console with writes := rest }) := by
  simp only [writeByte, Console.writeByte, h]

theorem readKey_of_keys {k : KeyAnswer} {ks : List KeyAnswer} (h : s.console.keys = k :: ks) :
    readKey s = (k, s.setConsole { s.console with keys := ks }) := by
  simp only [readKey, Console.takeKey, h]

/-- IN whose echo fails has taken the key and writes neither R0 nor the flags (R174). -/
theorem inFrom_echo_fails {k : Byte} {ks : List KeyAnswer} (hkeys : s.console.keys = .byte k :: ks)
    (hwrites : s.console.writes = .fails :: rest) :
    inFrom (readKey s) =
      { s with run := .faulted .ioFailure, console := { s.console with keys := ks, writes := rest } } := by
  rw [readKey_of_keys hkeys]
  show finishWrite _ (writeByte k (s.setConsole { s.console with keys := ks })) = _
  rw [writeByte_fails (s := s.setConsole { s.console with keys := ks }) k hwrites]
  rfl

end

/-- Settles O33: each service goes on from its write through `finishWrite`, which raises and does nothing else. -/
theorem failedWriteRaises : Obligations.FailedWriteRaises := by
  intro s n rest h
  refine ⟨?out, fun hn => ?halt, fun hn => ?prompt, ?echo⟩
  case out =>
    rintro rfl
    show Host.Outcome.next (finishWrite id (writeByte (lowByte (s.link.reg .r0)) s.link)) = _
    rw [writeByte_fails (s := s.link) _ h]
    rfl
  case halt => exact congrArg Host.Outcome.next (finishWrite_writeBytes_fails (s := s.link) _ h hn)
  case prompt => exact congrArg Host.Outcome.next (finishWrite_writeBytes_fails (s := s.link) _ h hn)
  case echo =>
    rintro rfl k ks hkeys
    have hprompt := finishWrite_writeBytes_exact (s := s.link) (bytes := promptBytes) (fun t => inFrom (readKey t)) h
    exact congrArg Host.Outcome.next (hprompt.trans (inFrom_echo_fails hkeys rfl))

/-! ## An instruction that does not reach the console -/

/-- An instruction that calls no console service and reads no status word does the same behind any console, begins no wait and, unless
it raises always, leaves the run state (R222, R227). -/
theorem exec_of_not_reaches_console {i : Instr} {s t : State} (hcall : callsConsole i = false)
    (hread : mayReadStatus i s = false) (h : exec i s = .next t) :
    t.pending = s.pending ∧ (raisesAlways i = false → t.run = s.run) ∧
      ∀ c, exec i (s.setConsole c) = .next (t.setConsole c) := by
  cases i
  case trapGetc | trapOut | trapPuts | trapIn | trapPutsp | trapHalt => cases hcall
  case addReg | addImm | andReg | andImm | not | lea | jmp | jsr | jsrr | st | str =>
    cases h
    exact ⟨rfl, fun _ => rfl, fun _ => rfl⟩
  case rti | res | trapUnknown =>
    cases h
    exact ⟨rfl, fun hraise => (nomatch hraise), fun _ => rfl⟩
  case br flags off =>
    rw [exec_br] at h
    have hbr : ∀ c, exec (.br flags off) (s.setConsole c) = _ := fun c => exec_br flags off (s.setConsole c)
    by_cases htaken : flags &&& s.cond.bits ≠ 0
    · rw [if_pos htaken] at h
      cases h
      exact ⟨rfl, fun _ => rfl, fun c => (hbr c).trans (congrArg Host.Outcome.next (if_pos htaken))⟩
    · rw [if_neg htaken] at h
      cases h
      exact ⟨rfl, fun _ => rfl, fun c => (hbr c).trans (congrArg Host.Outcome.next (if_neg htaken))⟩
  case ld dr off =>
    have hplain : s.pcRelative off ≠ Config.kbsr := beq_eq_false_iff_ne.1 hread
    rw [exec_ld_plain hplain] at h
    cases h
    exact ⟨rfl, fun _ => rfl, fun c => exec_ld_plain (s := s.setConsole c) hplain dr⟩
  case ldr dr baseR off =>
    have hplain : s.basePlus baseR off ≠ Config.kbsr := beq_eq_false_iff_ne.1 hread
    rw [exec_ldr_plain hplain] at h
    cases h
    exact ⟨rfl, fun _ => rfl, fun c => exec_ldr_plain (s := s.setConsole c) hplain dr⟩
  case ldi dr off =>
    obtain ⟨hptr, hword⟩ := Bool.or_eq_false_iff.1 hread
    have hplain : s.pcRelative off ≠ Config.kbsr := beq_eq_false_iff_ne.1 hptr
    have hthrough : s.word (s.pcRelative off) ≠ Config.kbsr := beq_eq_false_iff_ne.1 hword
    rw [exec_ldi_plain hplain hthrough] at h
    cases h
    exact ⟨rfl, fun _ => rfl, fun c => exec_ldi_plain (s := s.setConsole c) hplain hthrough dr⟩
  case sti sr off =>
    have hplain : s.pcRelative off ≠ Config.kbsr := beq_eq_false_iff_ne.1 hread
    rw [exec_sti_plain hplain] at h
    cases h
    exact ⟨rfl, fun _ => rfl, fun c => exec_sti_plain (s := s.setConsole c) hplain sr⟩

/-- Settles O45: that the console is left alone is the last conjunct at the console that the state has. -/
theorem consoleCallersOnly : Obligations.ConsoleCallersOnly := by
  intro i s t hcall hread h
  obtain ⟨hpend, hrun, hany⟩ := exec_of_not_reaches_console hcall hread h
  have hsame : t = t.setConsole s.console := Host.Outcome.next.inj (h.symm.trans (hany s.console))
  have hconsole : t.console = s.console := by rw [hsame, State.setConsole_console]
  exact ⟨hconsole, hpend, hrun, hany⟩

end Sys2Proof.Machine
end

section
/-! Waiting in `ReadKey()` (R83, R207, R208): a step that waits again changes nothing but the console's answer, and a step that goes on
does what the instruction does when its key is there at once. -/

namespace Sys2Proof.Machine

open Sys2Proof.Statements

variable {s : State}

/-! ## A step that waits again -/

/-- An instruction that waits where it waited before. -/
theorem State.park_of_pending {p : Pending} (hp : s.pending = some p) (t : State) : t.park p = { t with pending := s.pending } :=
  congrArg (fun q => { t with pending := q }) hp.symm

theorem stringLoop_waits (service : StringService) (n : Nat) (a : Word) (t : State) :
    stringLoop service n a (.waits, t) = t.park (.statusKey (.stringWord service a)) := by
  cases n <;> rfl

/-- A status read that waits again leaves the instruction in progress at the same use of its word (R83). -/
theorem resume_statusKey_waits {c : Console} (use : ReadUse) (hk : s.console.takeKey = (.notYet, c)) :
    resume exec (.statusKey use) s = .next ((s.setConsole c).park (.statusKey use)) := by
  have hwaits := takeStatusKey_of_notYet hk
  cases use with
  | stringWord service a =>
    show Host.Outcome.next (stringLoop service stringTurns a (takeStatusKey s)) = _
    rw [hwaits, stringLoop_waits]
  | fetch | load dr | loadPointer dr | storePointer sr =>
    simp only [resume, hwaits]
    rfl

/-- `ReadKey()` with no byte there is called again and waits again (R83). -/
theorem resume_waits {c : Console} {p : Pending} (hp : p = .getcKey ∨ p = .inKey ∨ ∃ use, p = .statusKey use)
    (hk : s.console.takeKey = (.notYet, c)) : resume exec p s = .next ((s.setConsole c).park p) := by
  have hkey : readKey s = (.notYet, s.setConsole c) := by
    unfold readKey
    rw [hk]
  obtain rfl | rfl | ⟨use, rfl⟩ := hp
  · show Host.Outcome.next (getcFrom (readKey s)) = _
    rw [hkey]
    rfl
  · show Host.Outcome.next (inFrom (readKey s)) = _
    rw [hkey]
    rfl
  · exact resume_statusKey_waits use hk

/-- An empty list of answers is a console that waits for ever (R85, R208). -/
theorem Console.takeKey_of_no_keys {c : Console} (h : c.keys = []) : c.takeKey = (.notYet, c) := by
  unfold Console.takeKey
  rw [h]

/-- Settles O50: the call is made again and waits again; a fetch that comes to wait has only read. -/
theorem waitingReadIsAHang : Obligations.WaitingReadIsAHang := by
  refine ⟨fun s p hrun hpend hp => ?_, fun s t hrun hpend hread => ⟨?_, ?_⟩⟩
  · have hwait : ∀ c, s.console.takeKey = (.notYet, c) → step s = .next { s with console := c } := by
      intro c hk
      rw [step_resumes s hrun hpend, resume_waits (s := s.setPending none) hp hk]
      exact congrArg Host.Outcome.next (State.park_of_pending hpend _)
    exact ⟨hwait, fun hkeys => hwait s.console (Console.takeKey_of_no_keys hkeys)⟩
  · rw [step_fetches s hrun hpend, fetch, hread]
    rfl
  · have hpc := memRead_pc s s.pc
    rwa [hread] at hpc

/-! ## An instruction that waits once -/

/-- From `s` the instruction comes to wait at `p`, and the step that goes on with it ends as the instruction does from `s'`. -/
def WaitsThenEndsAs (i : Instr) (p : Pending) (s s' : State) : Prop :=
  ∃ t, exec i s = .next t ∧ t.pending = some p ∧ step t = exec i s'

/-- An instruction that has come to wait goes on, in the next step, from the state in which it waited (R83). -/
theorem step_park (hs : Active s) (p : Pending) : step (s.park p) = resume exec p s := by
  have hback : (s.park p).setPending none = s := congrArg (fun q => { s with pending := q }) hs.pending.symm
  rw [step_resumes (s.park p) hs.run rfl, hback]

theorem waitsThenEndsAs_of_park {i : Instr} {p : Pending} {s s' u : State} (hu : Active u)
    (hexec : exec i s = .next (u.park p)) (hresume : resume exec p u = exec i s') : WaitsThenEndsAs i p s s' :=
  ⟨_, hexec, rfl, (step_park hu p).trans hresume⟩

section
variable {k : Byte} {ks : List KeyAnswer} {ps : List PollAnswer}

/-- The part of a status read that follows a wait is the part that follows the poll: the poll has been made and the ready bit set
before the wait, and only the call of `ReadKey()` is made again (R55, R83). -/
theorem memRead_status_waits_once (hs : Active s) (hkeys : s.console.keys = .notYet :: .byte k :: ks)
    (hpolls : s.console.polls = .yes :: ps) :
    ∃ t, Active t ∧ memRead Config.kbsr s = (.waits, t) ∧
      memRead Config.kbsr (withKeys s (.byte k :: ks)) = takeStatusKey t := by
  have hpoll : s.console.poll = (.yes, { s.console with polls := ps }) := by
    simp only [Console.poll, hpolls]
  have hpoll' : (withKeys s (.byte k :: ks)).console.poll =
      (.yes, { s.console with polls := ps, keys := .byte k :: ks }) := by
    simp only [withKeys, Console.poll, hpolls]
  have htake : { s.console with polls := ps }.takeKey =
      (.notYet, { s.console with polls := ps, keys := .byte k :: ks }) := by
    simp only [Console.takeKey, hkeys]
  exact ⟨s.keyFound { s.console with polls := ps, keys := .byte k :: ks }, ⟨hs.run, hs.pending⟩,
    memRead_status_of_keyWaits hpoll htake, memRead_status_of_pollYes hpoll'⟩

/-- An instruction that goes on through `finish` with the answer of a status read made in `u`. -/
theorem waitsThenEndsAs_of_status_read {i : Instr} {use : ReadUse} {s s' u : State} (finish : ReadResult × State → State)
    (hu : Active u) (hkeys : u.console.keys = .notYet :: .byte k :: ks) (hpolls : u.console.polls = .yes :: ps)
    (hwaits : ∀ t, finish (.waits, t) = t.park (.statusKey use))
    (hresume : ∀ t, resume exec (.statusKey use) t = .next (finish (takeStatusKey t)))
    (hexec : exec i s = .next (finish (memRead Config.kbsr u)))
    (hexec' : exec i s' = .next (finish (memRead Config.kbsr (withKeys u (.byte k :: ks))))) :
    WaitsThenEndsAs i (.statusKey use) s s' := by
  obtain ⟨t, ht, hwait, honce⟩ := memRead_status_waits_once hu hkeys hpolls
  rw [hwait, hwaits] at hexec
  rw [honce] at hexec'
  exact waitsThenEndsAs_of_park ht hexec ((hresume t).trans hexec'.symm)

end

/-! ## The instructions that read the status word -/

theorem exec_ld_status {off : BitVec 9} (h : s.pc + sext9 off = Config.kbsr) (dr : Reg) :
    exec (.ld dr off) s = .next (loadFrom dr (memRead Config.kbsr s)) := by
  rw [← h]
  rfl

theorem exec_ldr_status {baseR : Reg} {off : BitVec 6} (h : s.reg baseR + sext6 off = Config.kbsr) (dr : Reg) :
    exec (.ldr dr baseR off) s = .next (loadFrom dr (memRead Config.kbsr s)) := by
  rw [← h]
  rfl

theorem exec_ldi_status {off : BitVec 9} (h : s.pc + sext9 off = Config.kbsr) (dr : Reg) :
    exec (.ldi dr off) s = .next (loadThrough dr (memRead Config.kbsr s)) := by
  rw [← h]
  rfl

theorem exec_sti_status {off : BitVec 9} (h : s.pc + sext9 off = Config.kbsr) (sr : Reg) :
    exec (.sti sr off) s = .next (storeThrough sr (memRead Config.kbsr s)) := by
  rw [← h]
  rfl

/-- LDI whose pointer is a plain word that holds the address of the status word (R57, R151). -/
theorem exec_ldi_operand_status {off : BitVec 9} (h : s.pc + sext9 off ≠ Config.kbsr)
    (hptr : s.word (s.pc + sext9 off) = Config.kbsr) (dr : Reg) :
    exec (.ldi dr off) s = .next (loadFrom dr (memRead Config.kbsr s)) := by
  show Host.Outcome.next (loadThrough dr (memRead (s.pc + sext9 off) s)) = _
  rw [memRead_plain s h, ← hptr]
  rfl

theorem exec_trapPuts_status (h : s.reg .r0 = Config.kbsr) :
    exec .trapPuts s = .next (stringLoop .puts stringTurns Config.kbsr (memRead Config.kbsr s.link)) := by
  rw [← h]
  rfl

theorem exec_trapPutsp_status (h : s.reg .r0 = Config.kbsr) :
    exec .trapPutsp s = .next (stringLoop .putsp stringTurns Config.kbsr (memRead Config.kbsr s.link)) := by
  rw [← h]
  rfl

/-! ## GETC and IN -/

section
variable {k : Byte} {ks : List KeyAnswer}

theorem trapGetc_waitsThenEndsAs (hs : Active s) (hkeys : s.console.keys = .notYet :: .byte k :: ks) :
    WaitsThenEndsAs .trapGetc .getcKey s (withKeys s (.byte k :: ks)) := by
  refine waitsThenEndsAs_of_park (u := withKeys s.link (.byte k :: ks)) ⟨hs.run, hs.pending⟩ ?_ rfl
  show Host.Outcome.next (getcFrom (readKey s.link)) = _
  rw [readKey_of_keys (s := s.link) hkeys]
  rfl

/-- The state in which IN reads its key, when the 19 writes of its prompt are accepted (R174). -/
def State.prompted (s : State) : State :=
  s.link.setConsole { s.console with writes := s.console.writes.drop 19, out := s.console.out ++ promptBytes }

theorem exec_trapIn_of_prompt_done (h : ∀ w ∈ s.console.writes.take 19, w = .done) :
    exec .trapIn s = .next (inFrom (readKey s.prompted)) := by
  show Host.Outcome.next (finishWrite _ (writeBytes promptBytes s.link)) = _
  rw [writeBytes_done s.link promptBytes h]
  rfl

theorem trapIn_waitsThenEndsAs (hs : Active s) (hkeys : s.console.keys = .notYet :: .byte k :: ks)
    (hwrites : ∀ w ∈ s.console.writes.take 19, w = .done) :
    WaitsThenEndsAs .trapIn .inKey s (withKeys s (.byte k :: ks)) := by
  refine waitsThenEndsAs_of_park (u := withKeys s.prompted (.byte k :: ks)) ⟨hs.run, hs.pending⟩ ?_
    (exec_trapIn_of_prompt_done (s := withKeys s (.byte k :: ks)) hwrites).symm
  rw [exec_trapIn_of_prompt_done hwrites, readKey_of_keys (s := s.prompted) hkeys]
  rfl

end

/-! ## What the step does with the word of the read -/

/-- The end of a load, from a state with the registers of `s`. -/
theorem State.setRegCc_of_regs {t : State} (h : t.regs = s.regs) (dr : Reg) (v : Word) :
    t.setRegCc dr v = { t with regs := s.regs.set dr v, cond := flagOf v } :=
  h ▸ t.setRegCc_eq dr v

/-- Settles O51: the step that goes on makes the call of `ReadKey()` again and nothing before it, and then goes on as the instruction
does. -/
theorem waitingChangesOnlyTheMoment : Obligations.WaitingChangesOnlyTheMoment := by
  refine ⟨?once, ?word⟩
  case once =>
    intro s k ks hrun hpend hkeys
    have hs : Active s := ⟨hrun, hpend⟩
    refine ⟨trapGetc_waitsThenEndsAs hs hkeys, trapIn_waitsThenEndsAs hs hkeys, ?_⟩
    intro r baseR off9 off6 ps hpolls
    refine ⟨fun h => ⟨?ld, ?ldi, ?sti⟩, fun h hptr => ?operand, fun h => ?ldr, fun h => ⟨?puts, ?putsp⟩⟩
    case ld =>
      exact waitsThenEndsAs_of_status_read (loadFrom r) hs hkeys hpolls (fun _ => rfl) (fun _ => rfl)
        (exec_ld_status h r) (exec_ld_status (s := withKeys s (.byte k :: ks)) h r)
    case ldi =>
      exact waitsThenEndsAs_of_status_read (loadThrough r) hs hkeys hpolls (fun _ => rfl) (fun _ => rfl)
        (exec_ldi_status h r) (exec_ldi_status (s := withKeys s (.byte k :: ks)) h r)
    case sti =>
      exact waitsThenEndsAs_of_status_read (storeThrough r) hs hkeys hpolls (fun _ => rfl) (fun _ => rfl)
        (exec_sti_status h r) (exec_sti_status (s := withKeys s (.byte k :: ks)) h r)
    case operand =>
      exact waitsThenEndsAs_of_status_read (loadFrom r) hs hkeys hpolls (fun _ => rfl) (fun _ => rfl)
        (exec_ldi_operand_status h hptr r) (exec_ldi_operand_status (s := withKeys s (.byte k :: ks)) h hptr r)
    case ldr =>
      exact waitsThenEndsAs_of_status_read (loadFrom r) hs hkeys hpolls (fun _ => rfl) (fun _ => rfl)
        (exec_ldr_status h r) (exec_ldr_status (s := withKeys s (.byte k :: ks)) h r)
    case puts =>
      exact waitsThenEndsAs_of_status_read (stringLoop .puts stringTurns Config.kbsr) hs.afterLink hkeys hpolls
        (stringLoop_waits _ _ _) (fun _ => rfl) (exec_trapPuts_status h) (exec_trapPuts_status h)
    case putsp =>
      exact waitsThenEndsAs_of_status_read (stringLoop .putsp stringTurns Config.kbsr) hs.afterLink hkeys hpolls
        (stringLoop_waits _ _ _) (fun _ => rfl) (exec_trapPutsp_status h) (exec_trapPutsp_status h)
  case word =>
    intro s r hrun
    have hregs : (takeStatusKey { s with pending := none }).2.regs = s.regs := takeStatusKey_regs _
    refine ⟨fun hp => ?load, fun hp => ?loadPointer, fun hp => ?storePointer⟩
    all_goals
      rw [step_resumes s hrun hp]
      simp only [resume, State.setPending]
      generalize takeStatusKey { s with pending := none } = read at hregs ⊢
    case load =>
      obtain ⟨v | _ | _, t⟩ := read
      · exact congrArg Host.Outcome.next (State.setRegCc_of_regs hregs r v)
      · exact congrArg Host.Outcome.next (State.park_of_pending hp t)
      · rfl
    case loadPointer =>
      obtain ⟨a | _ | _, t⟩ := read
      · have hregs' : (memRead a t).2.regs = s.regs := (memRead_regs t a).trans hregs
        show Host.Outcome.next (loadFrom r (memRead a t)) = _
        dsimp only
        generalize memRead a t = operand at hregs' ⊢
        obtain ⟨v | _ | _, u⟩ := operand
        · exact congrArg Host.Outcome.next (State.setRegCc_of_regs hregs' r v)
        · rfl
        · rfl
      · exact congrArg Host.Outcome.next (State.park_of_pending hp t)
      · rfl
    case storePointer =>
      obtain ⟨a | _ | _, t⟩ := read
      · exact congrArg (fun x : Regs => Host.Outcome.next { t with mem := t.mem.write a.toNat (x.get r) }) hregs
      · exact congrArg Host.Outcome.next (State.park_of_pending hp t)
      · rfl

end Sys2Proof.Machine
end

section
/-! The fields of instruction words (R100 to R113): each field of a layout is read back from the word that the layout was written to,
and the decoder's mode and long bits are fields of length 1. -/

namespace Sys2Proof

/-! ## Reading a layout back -/

section
variable (m : OpcodeMap) (op : Opcode)

@[simp] theorem extract_15to12_opcodeWord (layout : BitVec 12) :
    (opcodeWord m op layout).extractLsb' 12 4 = opcodeNumber m op :=
  opcodeField_opcodeWord m op layout

/-- Below the opcode field, an instruction word is its layout bits (R100). -/
theorem extract_opcodeWord (layout : BitVec 12) {start len : Nat} (h : start + len ≤ 12) :
    (opcodeWord m op layout).extractLsb' start len = layout.extractLsb' start len :=
  BitVec.extractLsb'_append_eq_of_add_le h

variable (a b : BitVec 3)

@[simp] theorem extract_11to9_layout3and9 (c : BitVec 9) : (opcodeWord m op (layout3and9 a c)).extractLsb' 9 3 = a :=
  (extract_opcodeWord m op _ (by decide)).trans BitVec.extractLsb'_append_eq_left

@[simp] theorem extract_8to0_layout3and9 (c : BitVec 9) : (opcodeWord m op (layout3and9 a c)).extractLsb' 0 9 = c :=
  (extract_opcodeWord m op _ (by decide)).trans BitVec.extractLsb'_append_eq_right

/-- Bits [11:6] of a layout of three fields hold the first two of them (R101 to R103, R105, R107, R109). -/
theorem extract_11to6_layout3and3and6 (c : BitVec 6) {start len : Nat} (h : 6 ≤ start) (h' : start + len ≤ 12) :
    (opcodeWord m op (layout3and3and6 a b c)).extractLsb' start len = (a ++ b).extractLsb' (start - 6) len :=
  (extract_opcodeWord m op _ h').trans (BitVec.extractLsb'_append_eq_of_le h)

@[simp] theorem extract_11to9_layout3and3and6 (c : BitVec 6) :
    (opcodeWord m op (layout3and3and6 a b c)).extractLsb' 9 3 = a :=
  (extract_11to6_layout3and3and6 m op a b c (by decide) (by decide)).trans BitVec.extractLsb'_append_eq_left

@[simp] theorem extract_8to6_layout3and3and6 (c : BitVec 6) :
    (opcodeWord m op (layout3and3and6 a b c)).extractLsb' 6 3 = b :=
  (extract_11to6_layout3and3and6 m op a b c (by decide) (by decide)).trans BitVec.extractLsb'_append_eq_right

/-- Bits [5:0] of a layout of three fields hold the third (R101 to R103, R109). -/
theorem extract_5to0_layout3and3and6 (c : BitVec 6) {start len : Nat} (h : start + len ≤ 6) :
    (opcodeWord m op (layout3and3and6 a b c)).extractLsb' start len = c.extractLsb' start len :=
  (extract_opcodeWord m op _ (by omega)).trans (BitVec.extractLsb'_append_eq_of_add_le h)

@[simp] theorem extract_5to0_layout3and3and6_whole (c : BitVec 6) :
    (opcodeWord m op (layout3and3and6 a b c)).extractLsb' 0 6 = c :=
  (extract_5to0_layout3and3and6 m op a b c (by decide)).trans BitVec.extractLsb'_eq_self

@[simp] theorem extract_2to0_registerOperand (sr2 : Reg) :
    (opcodeWord m op (layout3and3and6 a b (registerOperand sr2))).extractLsb' 0 3 = sr2.toBits :=
  (extract_5to0_layout3and3and6 m op a b _ (by decide)).trans BitVec.extractLsb'_append_eq_right

@[simp] theorem extract_4to0_immediateOperand (imm5 : BitVec 5) :
    (opcodeWord m op (layout3and3and6 a b (immediateOperand imm5))).extractLsb' 0 5 = imm5 :=
  (extract_5to0_layout3and3and6 m op a b _ (by decide)).trans BitVec.extractLsb'_append_eq_right

@[simp] theorem extract_10to0_layout1and11 (l : BitVec 1) (c : BitVec 11) :
    (opcodeWord m op (layout1and11 l c)).extractLsb' 0 11 = c :=
  (extract_opcodeWord m op _ (by decide)).trans BitVec.extractLsb'_append_eq_right

@[simp] theorem extract_7to0_layout4and8 (u : BitVec 4) (v : BitVec 8) :
    (opcodeWord m op (layout4and8 u v)).extractLsb' 0 8 = v :=
  (extract_opcodeWord m op _ (by decide)).trans BitVec.extractLsb'_append_eq_right

/-! ## The mode bit and the long bit (R113) -/

@[simp] theorem immediateMode_registerOperand (sr2 : Reg) :
    immediateMode (opcodeWord m op (layout3and3and6 a b (registerOperand sr2))) = false := by
  simp [immediateMode, -BitVec.getLsbD_eq_getElem]

@[simp] theorem immediateMode_immediateOperand (imm5 : BitVec 5) :
    immediateMode (opcodeWord m op (layout3and3and6 a b (immediateOperand imm5))) = true := by
  simp [immediateMode, -BitVec.getLsbD_eq_getElem]

@[simp] theorem longBit_layout1and11 (l : BitVec 1) (c : BitVec 11) :
    longBit (opcodeWord m op (layout1and11 l c)) = l.getLsbD 0 := by
  simp [longBit, -BitVec.getLsbD_eq_getElem]

@[simp] theorem longBit_layout3and3and6 (c : BitVec 6) :
    longBit (opcodeWord m op (layout3and3and6 a b c)) = a.getLsbD 2 := by
  simp [longBit, -BitVec.getLsbD_eq_getElem]

end

/-- A field of one bit is that bit. -/
theorem extract_one (w : Word) (i : Nat) : w.extractLsb' i 1 = BitVec.ofBool (w.getLsbD i) := by
  ext j hj
  obtain rfl : j = 0 := by omega
  simp

theorem extract_eq_ofBool_immediateMode (w : Word) : w.extractLsb' 5 1 = BitVec.ofBool (immediateMode w) :=
  extract_one w 5

theorem extract_eq_ofBool_longBit (w : Word) : w.extractLsb' 11 1 = BitVec.ofBool (longBit w) :=
  extract_one w 11

/-! ## Trap vectors -/

theorem decodeTrap_of_not_service {v : BitVec 8} (h : isServiceVector v = false) : decodeTrap v = .trapUnknown v := by
  revert v
  decide

theorem wellFormed_decodeTrap (v : BitVec 8) : (decodeTrap v).wellFormed = true := by
  revert v
  decide

/-! ## Decoding what was encoded -/

/-- The opcode is read back by `decodeWith_opcodeWord`; what remains of each form is reading its fields back. -/
theorem decodeWith_encodeWith {m : OpcodeMap} (hm : m.wf = true) {i : Instr} (hi : i.wellFormed = true) :
    decodeWith m (encodeWith m i) = i := by
  cases i <;> refine (decodeWith_opcodeWord hm _ _).trans ?_
  case trapUnknown v =>
    simp only [decodeAs, vector8Field, extract_7to0_layout4and8]
    exact decodeTrap_of_not_service (by simpa [Instr.wellFormed] using hi)
  all_goals simp [decodeAs, flagsField, reg11to9, reg8to6, reg2to0, imm5Field, offset6Field, offset9Field, offset11Field,
    vector8Field, decodeTrap]

/-- Settles O1: the opcode is read back by the legality of the map, and each field from where its layout put it. -/
theorem decodeOfEncodeIsIdentity : Obligations.DecodeOfEncodeIsIdentity :=
  fun _ _ hm hi => decodeWith_encodeWith hm hi

end Sys2Proof
end

section
/-! The bits that a layout names (R101 to R114), as a list of fields for each form: two words agree off the ignored bits exactly when
they agree on these fields. -/

namespace Sys2Proof

open Sys2Proof.Statements

/-! ## Masks made of fields -/

/-- The mask of the fields of a list, each given by its lowest bit and its length. -/
def fieldsMask : List (Nat × Nat) → Word
  | [] => 0
  | (start, len) :: fields => (BitVec.allOnes len).setWidth 16 <<< start ||| fieldsMask fields

theorem getLsbD_fieldsMask (fields : List (Nat × Nat)) (i : Nat) :
    (fieldsMask fields).getLsbD i = true ↔ i < 16 ∧ ∃ f ∈ fields, f.1 ≤ i ∧ i < f.1 + f.2 := by
  induction fields with
  | nil => simp [fieldsMask]
  | cons f fields ih =>
    simp only [fieldsMask, BitVec.getLsbD_or, Bool.or_eq_true, ih, List.exists_mem_cons_iff, and_or_left]
    refine or_congr_left ?_
    simp [-BitVec.getLsbD_eq_getElem]
    omega

theorem and_eq_and_iff_getLsbD {v w mask : Word} :
    v &&& mask = w &&& mask ↔ ∀ i, mask.getLsbD i = true → v.getLsbD i = w.getLsbD i := by
  constructor
  · intro h i hi
    simpa [-BitVec.getLsbD_eq_getElem, hi] using congrArg (·.getLsbD i) h
  · intro h
    apply BitVec.eq_of_getLsbD_eq
    intro i _
    cases hi : mask.getLsbD i
    · simp [-BitVec.getLsbD_eq_getElem, hi]
    · simp [-BitVec.getLsbD_eq_getElem, hi, h i hi]

theorem extract_eq_iff_getLsbD {v w : Word} {start len : Nat} :
    v.extractLsb' start len = w.extractLsb' start len ↔
      ∀ i, start ≤ i → i < start + len → v.getLsbD i = w.getLsbD i := by
  constructor
  · intro h i hi hlt
    have hbit := congrArg (·.getLsbD (i - start)) h
    simpa [-BitVec.getLsbD_eq_getElem, show i - start < len by omega, Nat.add_sub_cancel' hi] using hbit
  · intro h
    refine extract_eq_of_bits v start _ fun i hi => ?_
    rw [h _ (Nat.le_add_right ..) (by omega), BitVec.getLsbD_extractLsb', decide_eq_true hi, Bool.true_and]

/-- Words agree under a mask of fields exactly when they have the same fields. -/
theorem and_fieldsMask_eq_iff {fields : List (Nat × Nat)} {v w : Word} :
    v &&& fieldsMask fields = w &&& fieldsMask fields ↔
      ∀ f ∈ fields, v.extractLsb' f.1 f.2 = w.extractLsb' f.1 f.2 := by
  simp only [and_eq_and_iff_getLsbD, extract_eq_iff_getLsbD, getLsbD_fieldsMask]
  constructor
  · intro h f hf i hi hlt
    by_cases h16 : i < 16
    · exact h i ⟨h16, f, hf, hi, hlt⟩
    · rw [BitVec.getLsbD_of_ge v i (by omega), BitVec.getLsbD_of_ge w i (by omega)]
  · rintro h i ⟨-, f, hf, hi, hlt⟩
    exact h f hf i hi hlt

/-! ## The opcode of a word -/

/-- Every word has the number of one of the sixteen opcodes, whose layout decodes it (R115, R118). -/
theorem exists_decode_eq_decodeAs (w : Word) :
    ∃ op, w.extractLsb' 12 4 = opcodeNumber opcodeMap op ∧ decode w = decodeAs op w :=
  ⟨opcodeOf opcodeMap (opcodeField w), (opcodeNumber_opcodeOf opcodeMap_wf _).symm, rfl⟩

/-- A word with an opcode's number is decoded by that opcode's layout. -/
theorem decode_eq_decodeAs {w : Word} {op : Opcode} (h : w.extractLsb' 12 4 = opcodeNumber opcodeMap op) :
    decode w = decodeAs op w := by
  rw [decode_of_opcode h, opcodeOf_opcodeNumber opcodeMap_wf]

/-! ## The named fields -/

/-- The fields that the layout of an instruction names, the opcode, the mode bit and the long bit among them
(R100 to R111, R113). -/
def Instr.namedFields : Instr → List (Nat × Nat)
  | .br _ _ | .ld _ _ | .st _ _ | .ldi _ _ | .sti _ _ | .lea _ _ => [(12, 4), (9, 3), (0, 9)]
  | .addReg _ _ _ | .andReg _ _ _ => [(12, 4), (9, 3), (6, 3), (5, 1), (0, 3)]
  | .addImm _ _ _ | .andImm _ _ _ => [(12, 4), (9, 3), (6, 3), (5, 1), (0, 5)]
  | .ldr _ _ _ | .str _ _ _ => [(12, 4), (9, 3), (6, 3), (0, 6)]
  | .not _ _ => [(12, 4), (9, 3), (6, 3)]
  | .jmp _ => [(12, 4), (6, 3)]
  | .jsr _ => [(12, 4), (11, 1), (0, 11)]
  | .jsrr _ => [(12, 4), (11, 1), (6, 3)]
  | .rti | .res => [(12, 4)]
  | .trapGetc | .trapOut | .trapPuts | .trapIn | .trapPutsp | .trapHalt | .trapUnknown _ => [(12, 4), (0, 8)]

theorem namedFields_decodeTrap (v : BitVec 8) : (decodeTrap v).namedFields = [(12, 4), (0, 8)] := by
  revert v
  decide

theorem opcode_mem_namedFields (i : Instr) : (12, 4) ∈ i.namedFields := by
  cases i <;> exact List.mem_cons_self

/-- The bits that R114 lists as ignored are those of no named field. -/
theorem not_ignoredBits (w : Word) : ~~~ ignoredBits w = fieldsMask (decode w).namedFields := by
  obtain ⟨op, hop, hdecode⟩ := exists_decode_eq_decodeAs w
  rw [hdecode, ignoredBits, hop]
  cases op
  case add | and =>
    cases hmode : w.getLsbD 5 <;>
    simp [decodeAs, immediateMode, hmode, Instr.namedFields, fieldsMask, -BitVec.getLsbD_eq_getElem]
  case jsr =>
    cases hlong : w.getLsbD 11 <;>
    simp [decodeAs, longBit, hlong, Instr.namedFields, fieldsMask, -BitVec.getLsbD_eq_getElem]
  case trap => simp [decodeAs, namedFields_decodeTrap, fieldsMask]
  all_goals simp [decodeAs, Instr.namedFields, fieldsMask]

/-- Agreement off the ignored bits is agreement on the named fields. -/
theorem agree_iff_namedFields {v w : Word} :
    v &&& ~~~ ignoredBits w = w &&& ~~~ ignoredBits w ↔
      ∀ f ∈ (decode w).namedFields, v.extractLsb' f.1 f.2 = w.extractLsb' f.1 f.2 := by
  rw [not_ignoredBits, and_fieldsMask_eq_iff]

/-! ## Words with the same named fields -/

theorem immediateMode_congr {v w : Word} (h : v.extractLsb' 5 1 = w.extractLsb' 5 1) : immediateMode v = immediateMode w :=
  extract_eq_iff_getLsbD.1 h 5 le_rfl (by decide)

theorem longBit_congr {v w : Word} (h : v.extractLsb' 11 1 = w.extractLsb' 11 1) : longBit v = longBit w :=
  extract_eq_iff_getLsbD.1 h 11 le_rfl (by decide)

/-- The named fields of a word determine its decoding. -/
theorem decode_congr {v w : Word}
    (h : ∀ f ∈ (decode w).namedFields, v.extractLsb' f.1 f.2 = w.extractLsb' f.1 f.2) : decode v = decode w := by
  obtain ⟨op, hop, hdecode⟩ := exists_decode_eq_decodeAs w
  rw [decode_eq_decodeAs ((h _ (opcode_mem_namedFields _)).trans hop)]
  rw [hdecode] at h ⊢
  cases op
  case add | and =>
    cases hmode : immediateMode w <;>
    · simp only [decodeAs, hmode, cond_true, cond_false, Instr.namedFields, List.forall_mem_cons] at h
      obtain ⟨-, hdr, hsr1, hbit, hoperand, -⟩ := h
      simp [decodeAs, immediateMode_congr hbit, hmode, reg11to9, reg8to6, reg2to0, imm5Field, hdr, hsr1, hoperand]
  case jsr =>
    cases hlong : longBit w <;>
    · simp only [decodeAs, hlong, cond_true, cond_false, Instr.namedFields, List.forall_mem_cons] at h
      obtain ⟨-, hbit, htarget, -⟩ := h
      simp [decodeAs, longBit_congr hbit, hlong, reg8to6, offset11Field, htarget]
  case trap =>
    simp only [decodeAs, namedFields_decodeTrap, List.forall_mem_cons] at h
    simp [decodeAs, vector8Field, h]
  all_goals
    simp only [decodeAs, Instr.namedFields, List.forall_mem_cons] at h
    simp [decodeAs, flagsField, reg11to9, reg8to6, offset6Field, offset9Field, h]

/-- Settles O2: words that agree off the ignored bits have the same named fields; the examples are evaluated. -/
theorem decodeIgnoresUnnamedBits : Obligations.DecodeIgnoresUnnamedBits :=
  ⟨fun _ _ h => decode_congr (agree_iff_namedFields.1 h), by decide, by decide, by decide, by decide⟩

/-! ## Encoding what was decoded -/

theorem encode_decodeTrap (v : BitVec 8) : encode (decodeTrap v) = opcodeWord opcodeMap .trap (layout4and8 0 v) := by
  revert v
  decide

/-- Every word decodes to an instruction: only a vector without a service becomes `trapUnknown` (R117, R118). -/
theorem wellFormed_decode (w : Word) : (decode w).wellFormed = true := by
  obtain ⟨op, -, hdecode⟩ := exists_decode_eq_decodeAs w
  rw [hdecode]
  cases op
  case add | and => cases hmode : immediateMode w <;> simp [decodeAs, hmode, Instr.wellFormed]
  case jsr => cases hlong : longBit w <;> simp [decodeAs, hlong, Instr.wellFormed]
  case trap => exact wellFormed_decodeTrap _
  all_goals rfl

/-- The encoder writes every named field of a word back. -/
theorem extract_encode_decode (w : Word) :
    ∀ f ∈ (decode w).namedFields, (encode (decode w)).extractLsb' f.1 f.2 = w.extractLsb' f.1 f.2 := by
  obtain ⟨op, hop, hdecode⟩ := exists_decode_eq_decodeAs w
  rw [hdecode]
  cases op
  case add | and =>
    cases hmode : immediateMode w <;>
    simp [decodeAs, hmode, Instr.namedFields, encode, encodeWith, hop, extract_eq_ofBool_immediateMode, reg11to9, reg8to6,
      reg2to0, imm5Field]
  case jsr =>
    cases hlong : longBit w <;>
    simp [decodeAs, hlong, Instr.namedFields, encode, encodeWith, hop, extract_eq_ofBool_longBit, reg8to6, offset11Field]
  case trap => simp [decodeAs, namedFields_decodeTrap, encode_decodeTrap, hop, vector8Field]
  all_goals
    simp [decodeAs, Instr.namedFields, encode, encodeWith, hop, flagsField, reg11to9, reg8to6, offset6Field, offset9Field]

/-- Settles O3: the encoder writes the named fields back, and these are the bits that are not ignored. -/
theorem encodeOfDecodeKeepsNamedBits : Obligations.EncodeOfDecodeKeepsNamedBits :=
  fun w => ⟨wellFormed_decode w, agree_iff_namedFields.2 (extract_encode_decode w)⟩

end Sys2Proof
end

section
/-! The opcode table as data (R122): a word matches the row of the instruction it decodes to, since the row looks at named bits only,
and rows overlap only where a TRAP has a service. -/

namespace Sys2Proof

/-- The words that the encoder writes match their rows: the laws of the constructors, together. -/
theorem matchesWord_encode : ∀ {i : Instr}, i.wellFormed = true → i.row.matchesWord (encode i) = true
  | .br _ _ => Laws.EncodesInRow.br _ _
  | .addReg _ _ _ => Laws.EncodesInRow.addReg _ _ _
  | .addImm _ _ _ => Laws.EncodesInRow.addImm _ _ _
  | .ld _ _ => Laws.EncodesInRow.ld _ _
  | .st _ _ => Laws.EncodesInRow.st _ _
  | .jsr _ => Laws.EncodesInRow.jsr _
  | .jsrr _ => Laws.EncodesInRow.jsrr _
  | .andReg _ _ _ => Laws.EncodesInRow.andReg _ _ _
  | .andImm _ _ _ => Laws.EncodesInRow.andImm _ _ _
  | .ldr _ _ _ => Laws.EncodesInRow.ldr _ _ _
  | .str _ _ _ => Laws.EncodesInRow.str _ _ _
  | .rti => Laws.EncodesInRow.rti
  | .not _ _ => Laws.EncodesInRow.not _ _
  | .ldi _ _ => Laws.EncodesInRow.ldi _ _
  | .sti _ _ => Laws.EncodesInRow.sti _ _
  | .jmp _ => Laws.EncodesInRow.jmp _
  | .res => Laws.EncodesInRow.res
  | .lea _ _ => Laws.EncodesInRow.lea _ _
  | .trapGetc => Laws.EncodesInRow.trapGetc
  | .trapOut => Laws.EncodesInRow.trapOut
  | .trapPuts => Laws.EncodesInRow.trapPuts
  | .trapIn => Laws.EncodesInRow.trapIn
  | .trapPutsp => Laws.EncodesInRow.trapPutsp
  | .trapHalt => Laws.EncodesInRow.trapHalt
  | .trapUnknown _ => Laws.EncodesInRow.trapUnknown _

theorem row_mem_opcodeTable (i : Instr) : i.row ∈ opcodeTable := by
  cases i <;> simp [opcodeTable, tableInstrs, Instr.row]

/-- A row tests named bits only. -/
theorem fieldsMask_and_row_mask (i : Instr) : fieldsMask i.namedFields &&& i.row.mask = i.row.mask := by
  cases i <;> simp [Instr.namedFields, Instr.row, fieldsMask]

theorem OpcodeRow.matchesWord_iff (r : OpcodeRow) (w : Word) : r.matchesWord w = true ↔ w &&& r.mask = r.pattern :=
  beq_iff_eq

/-- Words with the same named fields match an instruction's row alike. -/
theorem matchesWord_congr {i : Instr} {v w : Word} (h : v &&& fieldsMask i.namedFields = w &&& fieldsMask i.namedFields) :
    i.row.matchesWord v = i.row.matchesWord w := by
  have hmask : v &&& i.row.mask = w &&& i.row.mask := by
    rw [← fieldsMask_and_row_mask, ← BitVec.and_assoc, h, BitVec.and_assoc]
  rw [OpcodeRow.matchesWord, hmask, OpcodeRow.matchesWord]

theorem matchesWord_row_decode (w : Word) : (decode w).row.matchesWord w = true := by
  rw [← matchesWord_congr (and_fieldsMask_eq_iff.2 (extract_encode_decode w))]
  exact matchesWord_encode (wellFormed_decode w)

/-- The table's overlaps: two rows whose tests can both hold are the same, or the second has the higher priority, or the first is a
service's and the second the row of the vectors without one. -/
theorem row_overlaps : ∀ r ∈ opcodeTable, ∀ q ∈ opcodeTable, r.pattern &&& q.mask = q.pattern &&& r.mask →
    r = q ∨ r.priority < q.priority ∨
      (r.mask = 0xF0FF ∧ isServiceVector (r.pattern.extractLsb' 0 8) = true ∧ q = (Instr.trapUnknown 0).row) := by
  decide

theorem not_isServiceVector_of_row_decodeTrap {v : BitVec 8} (h : (decodeTrap v).row = (Instr.trapUnknown 0).row) :
    isServiceVector v = false := by
  revert v
  decide

/-- The row of the vectors without a service is taken for such a vector only (R117, R122). -/
theorem not_isServiceVector_of_row_decode {w : Word} (h : (decode w).row = (Instr.trapUnknown 0).row) :
    isServiceVector (w.extractLsb' 0 8) = false := by
  have hmatch : w &&& 0xF000 = 0xF000 := (OpcodeRow.matchesWord_iff _ w).1 (h ▸ matchesWord_row_decode w)
  have hop : w.extractLsb' 12 4 = 0xF := by
    have hfield := congrArg (BitVec.extractLsb' 12 4) hmatch
    rw [BitVec.extractLsb'_and] at hfield
    exact BitVec.and_allOnes.symm.trans hfield
  rw [decode_eq_decodeAs (op := .trap) hop] at h
  exact not_isServiceVector_of_row_decodeTrap h

/-- Settles O4: a matching row overlaps the row of the decoded instruction; of the table's overlaps, the one where the decoded row would
have the lower priority is a service's, whose vector the decoder gives to the service. -/
theorem decodeFollowsTheTable : Obligations.DecodeFollowsTheTable := by
  refine ⟨rfl, by decide, fun w => ⟨row_mem_opcodeTable _, matchesWord_row_decode w, fun r hr hmatch hne => ?_⟩⟩
  have hr' := (r.matchesWord_iff w).1 hmatch
  have hd := (OpcodeRow.matchesWord_iff _ w).1 (matchesWord_row_decode w)
  have hboth : r.pattern &&& (decode w).row.mask = (decode w).row.pattern &&& r.mask := by
    rw [← hr', ← hd, BitVec.and_assoc, BitVec.and_assoc, BitVec.and_comm r.mask]
  obtain heq | hlt | ⟨hmask, hservice, hrow⟩ := row_overlaps r hr _ (row_mem_opcodeTable _) hboth
  · exact absurd heq hne
  · exact hlt
  · have hvector : r.pattern.extractLsb' 0 8 = w.extractLsb' 0 8 := by
      rw [← hr', hmask, BitVec.extractLsb'_and]
      exact BitVec.and_allOnes
    simp [hvector, not_isServiceVector_of_row_decode hrow] at hservice

end Sys2Proof
end

section
/-! Single words: the written-out ones, and the no-operations (R119, R258). -/

namespace Sys2Proof

open Sys2Proof.Machine

/-- Settles O5: each of the twelve words is decoded by evaluation. -/
theorem decodeOfWrittenWords : Obligations.DecodeOfWrittenWords := by
  unfold Obligations.DecodeOfWrittenWords
  decide

/-- A field that begins above every set bit is 0. -/
theorem extract_eq_zero_of_lt {w : Word} {start : Nat} (h : w.toNat < 2 ^ start) (len : Nat) : w.extractLsb' start len = 0 := by
  apply BitVec.eq_of_toNat_eq
  rw [BitVec.extractLsb'_toNat, Nat.shiftRight_eq_div_pow, Nat.div_eq_of_lt h, Nat.zero_mod]
  rfl

/-- Below 0x0200 the opcode field and the flags field are 0, so the word is a BR that tests no flag (R119). -/
theorem decode_of_lt {w : Word} (h : w.toNat < 0x0200) : decode w = .br 0 (w.extractLsb' 0 9) := by
  have hop : w.extractLsb' 12 4 = 0 := extract_eq_zero_of_lt (by omega) 4
  have hflags : w.extractLsb' 9 3 = 0 := extract_eq_zero_of_lt h 3
  rw [decode_eq_decodeAs (op := .br) hop, decodeAs, flagsField, hflags, offset9Field]

/-- A BR that tests no flag is never taken (R119, R140). -/
theorem exec_br_of_no_flag (off : BitVec 9) (s : State) : exec (.br 0 off) s = .next s := by
  have hnone : 0 &&& s.cond.bits = 0 := BitVec.zero_and
  rw [exec_br, if_neg (not_not_intro hnone)]

/-- Settles O58: the stored word is a BR that tests no flag, and the incremented pc is the sum modulo 65,536. -/
theorem noFlagBranchIsNop : Obligations.NoFlagBranchIsNop := by
  refine ⟨fun _ => decode_of_lt, fun s hrun hpend hmap hpc hword => ?_⟩
  have hdecode : decodeWith s.params.opcodeMap (s.word s.pc) = .br 0 ((s.word s.pc).extractLsb' 0 9) := by
    rw [hmap]
    exact decode_of_lt hword
  have hpc' : s.pc + 1 = BitVec.ofNat 16 ((s.pc.toNat + 1) % 65536) := by
    apply BitVec.eq_of_toNat_eq
    simp
  rw [step_executes_stored_word hrun hpend hpc, hdecode, exec_br_of_no_flag, hpc']

end Sys2Proof
end

section
/-! The operate instructions (R101 to R103, R131 to R133): each is read off its opcode and its mode bit, and each ends with one write
of its destination register and the flags of the value written. -/

namespace Sys2Proof.Machine

open Sys2Proof.Statements

/-! ## Their encoding -/

section
variable {w : Word}

/-- ADD with the mode bit 0 (R101, R113). -/
theorem decode_addReg (hop : w.extractLsb' 12 4 = 0x1) (hmode : w.getLsbD 5 = false) :
    decode w = .addReg (reg11to9 w) (reg8to6 w) (reg2to0 w) := by
  rw [decode_eq_decodeAs (op := .add) hop, decodeAs, immediateMode, hmode, cond_false]

/-- ADD with the mode bit 1 (R102, R113). -/
theorem decode_addImm (hop : w.extractLsb' 12 4 = 0x1) (hmode : w.getLsbD 5 = true) :
    decode w = .addImm (reg11to9 w) (reg8to6 w) (imm5Field w) := by
  rw [decode_eq_decodeAs (op := .add) hop, decodeAs, immediateMode, hmode, cond_true]

/-- AND with the mode bit 0 (R101, R113). -/
theorem decode_andReg (hop : w.extractLsb' 12 4 = 0x5) (hmode : w.getLsbD 5 = false) :
    decode w = .andReg (reg11to9 w) (reg8to6 w) (reg2to0 w) := by
  rw [decode_eq_decodeAs (op := .and) hop, decodeAs, immediateMode, hmode, cond_false]

/-- AND with the mode bit 1 (R102, R113). -/
theorem decode_andImm (hop : w.extractLsb' 12 4 = 0x5) (hmode : w.getLsbD 5 = true) :
    decode w = .andImm (reg11to9 w) (reg8to6 w) (imm5Field w) := by
  rw [decode_eq_decodeAs (op := .and) hop, decodeAs, immediateMode, hmode, cond_true]

/-- NOT has one form, whatever its bits [5:0] (R103). -/
theorem decode_not (hop : w.extractLsb' 12 4 = 0x9) : decode w = .not (reg11to9 w) (reg8to6 w) :=
  decode_eq_decodeAs (op := .not) hop

end

/-! ## Their effect -/

/-- An instruction whose meaning is one write of its destination register with the flags changes that register and `cond`, and
nothing else (R28, R29). -/
theorem exec_eq_of_setRegCc {i : Instr} {s : State} {dr : Reg} {v : Word} (h : exec i s = .next (s.setRegCc dr v)) :
    exec i s = .next { s with regs := s.regs.set dr v, cond := flagOf v } := by
  rw [h, State.setRegCc_of_regs rfl]

/-- NOT writes 0xFFFF less its source: that difference never borrows, so it is the bitwise complement (R133). -/
theorem exec_not (dr sr : Reg) (s : State) : exec (.not dr sr) s = .next (s.setRegCc dr (0xFFFF - s.reg sr)) := by
  have hcomplement : 0xFFFF - s.reg sr = ~~~ s.reg sr := BitVec.allOnes_sub_eq_not _
  rw [hcomplement]
  rfl

/-! ## The statements -/

/-- Settles O8: the mode bit selects the form, and each form is by definition one write of the sum with its flags. -/
theorem addMeaning : Obligations.AddMeaning :=
  ⟨fun _ => decode_addReg, fun _ => decode_addImm,
    fun _ _ _ _ => exec_eq_of_setRegCc rfl, fun _ _ _ _ => exec_eq_of_setRegCc rfl⟩

/-- Settles O9: as ADD, with the bitwise conjunction for the sum. -/
theorem andMeaning : Obligations.AndMeaning :=
  ⟨fun _ => decode_andReg, fun _ => decode_andImm,
    fun _ _ _ _ => exec_eq_of_setRegCc rfl, fun _ _ _ _ => exec_eq_of_setRegCc rfl⟩

/-- Settles O10: NOT has one form, and the complement that it writes is the difference from 0xFFFF. -/
theorem notMeaning : Obligations.NotMeaning :=
  ⟨fun _ => decode_not, fun dr sr s => exec_eq_of_setRegCc (exec_not dr sr s)⟩

end Sys2Proof.Machine
end

section
/-! The control instructions (R104 to R107, R140 to R144): each is read off its opcode, JSR and JSRR by the long bit, and each writes
the pc, with the link before it or without, and nothing else. -/

namespace Sys2Proof.Machine

/-! ## Their encoding -/

section
variable {w : Word}

theorem decode_br (hop : w.extractLsb' 12 4 = 0x0) : decode w = .br (flagsField w) (offset9Field w) :=
  decode_eq_decodeAs (op := .br) hop

theorem decode_jmp (hop : w.extractLsb' 12 4 = 0xC) : decode w = .jmp (reg8to6 w) :=
  decode_eq_decodeAs (op := .jmp) hop

/-- The opcode of JSR and JSRR with the long bit 1 (R106, R113). -/
theorem decode_jsr (hop : w.extractLsb' 12 4 = 0x4) (hlong : w.getLsbD 11 = true) : decode w = .jsr (offset11Field w) := by
  rw [decode_eq_decodeAs (op := .jsr) hop, decodeAs, longBit, hlong, cond_true]

/-- The opcode of JSR and JSRR with the long bit 0 (R107, R113). -/
theorem decode_jsrr (hop : w.extractLsb' 12 4 = 0x4) (hlong : w.getLsbD 11 = false) : decode w = .jsrr (reg8to6 w) := by
  rw [decode_eq_decodeAs (op := .jsr) hop, decodeAs, longBit, hlong, cond_false]

end

/-! ## Their effect -/

/-- The flag bits n, z and p of BR select NEG, ZRO and POS (R104, R140). -/
theorem and_bits_ne_zero_iff (flags : BitVec 3) (c : Cond) :
    flags &&& c.bits ≠ 0 ↔
      (flags.getLsbD 2 = true ∧ c = .neg) ∨ (flags.getLsbD 1 = true ∧ c = .zro) ∨ (flags.getLsbD 0 = true ∧ c = .pos) := by
  revert flags
  cases c
  case pos => decide
  case zro => decide
  case neg => decide

theorem exec_br_of_taken {flags : BitVec 3} {s : State} (h : flags &&& s.cond.bits ≠ 0) (off : BitVec 9) :
    exec (.br flags off) s = .next { s with pc := s.pc + sext9 off } := by
  rw [exec_br, if_pos h]

theorem exec_br_of_not_taken {flags : BitVec 3} {s : State} (h : flags &&& s.cond.bits = 0) (off : BitVec 9) :
    exec (.br flags off) s = .next s := by
  rw [exec_br, if_neg (not_not_intro h)]

/-- JSRR links first and then goes to what BaseR holds (R144). -/
theorem exec_jsrr (baseR : Reg) (s : State) :
    exec (.jsrr baseR) s =
      .next { s with regs := s.regs.set .r7 s.pc, pc := if baseR = .r7 then s.pc else s.reg baseR } := by
  rw [← State.reg_link]
  rfl

/-! ## The statements -/

/-- Settles O11: BR has one form, its effect splits on its test, and the test is that of one of the three flag bits. -/
theorem brMeaning : Obligations.BrMeaning :=
  ⟨fun _ => decode_br, fun _ off _ => ⟨fun h => exec_br_of_taken h off, fun h => exec_br_of_not_taken h off⟩,
    fun s flags => and_bits_ne_zero_iff flags s.cond⟩

/-- Settles O12: JMP has one form, and it is by definition one write of the pc. -/
theorem jmpMeaning : Obligations.JmpMeaning :=
  ⟨fun _ => decode_jmp, fun _ _ => rfl⟩

/-- Settles O13: the long bit selects JSR, which is by definition the link and one write of the pc. -/
theorem jsrMeaning : Obligations.JsrMeaning :=
  ⟨fun _ => decode_jsr, fun _ _ => rfl⟩

/-- Settles O14: the long bit selects JSRR; the link leaves a BaseR other than R7, and makes R7 the pc that is already there. -/
theorem jsrrMeaning : Obligations.JsrrMeaning := by
  refine ⟨fun _ => decode_jsrr, fun baseR s hne => ?_, fun s => ?_⟩
  · rw [exec_jsrr, if_neg hne]
  · rw [exec_jsrr, if_pos rfl]

end Sys2Proof.Machine
end

section
/-! The load instructions (R108, R109, R150 to R153): each is read off its opcode, and each ends as the answer of its last read
says.  Reads leave the registers alone, so DR is written into the register file that the instruction began with. -/

namespace Sys2Proof.Machine

open Sys2Proof.Statements

/-! ## Their encoding -/

section
variable {w : Word}

theorem decode_ld (hop : w.extractLsb' 12 4 = 0x2) : decode w = .ld (reg11to9 w) (offset9Field w) :=
  decode_eq_decodeAs (op := .ld) hop

theorem decode_ldi (hop : w.extractLsb' 12 4 = 0xA) : decode w = .ldi (reg11to9 w) (offset9Field w) :=
  decode_eq_decodeAs (op := .ldi) hop

theorem decode_ldr (hop : w.extractLsb' 12 4 = 0x6) : decode w = .ldr (reg11to9 w) (reg8to6 w) (offset6Field w) :=
  decode_eq_decodeAs (op := .ldr) hop

theorem decode_lea (hop : w.extractLsb' 12 4 = 0xE) : decode w = .lea (reg11to9 w) (offset9Field w) :=
  decode_eq_decodeAs (op := .lea) hop

end

/-! ## Their effect -/

/-- The end of a load whose read left the registers of `s`: DR and the flags on a word, neither on a wait or a failure (R150 to
R152). -/
theorem next_loadFrom {s : State} (dr : Reg) (r : ReadResult × State) : r.2.regs = s.regs →
    (.next (loadFrom dr r) : Host.Outcome State Fault Refusal) =
      match r with
      | (.value v, t) => .next { t with regs := s.regs.set dr v, cond := flagOf v }
      | (.waits, t) => .next { t with pending := some (.statusKey (.load dr)) }
      | (.fails, t) => .next { t with run := .faulted .ioFailure } := by
  intro hregs
  obtain ⟨answer, t⟩ := r
  cases answer with
  | value v => exact congrArg Host.Outcome.next (State.setRegCc_of_regs hregs dr v)
  | waits => rfl
  | fails => rfl

/-! ## The statements -/

/-- Settles O15: LD has one form, and it is by definition one read and the end of a load. -/
theorem ldMeaning : Obligations.LdMeaning :=
  ⟨fun _ => decode_ld, fun dr _ s => next_loadFrom dr _ (memRead_regs s _)⟩

/-- Settles O16: LDI has one form; a pointer that is there is read through, as LD reads its word, and the registers are those of the
start after both reads. -/
theorem ldiMeaning : Obligations.LdiMeaning := by
  refine ⟨fun _ => decode_ldi, fun dr off s => ?_⟩
  have hregs := memRead_regs s (s.pc + sext9 off)
  show Host.Outcome.next (loadThrough dr (memRead (s.pc + sext9 off) s)) = _
  generalize memRead (s.pc + sext9 off) s = r at hregs ⊢
  obtain ⟨answer, t⟩ := r
  cases answer with
  | value a => exact next_loadFrom dr _ ((memRead_regs t a).trans hregs)
  | waits => rfl
  | fails => rfl

/-- Settles O17: as LD, with the address from BaseR. -/
theorem ldrMeaning : Obligations.LdrMeaning :=
  ⟨fun _ => decode_ldr, fun dr _ _ s => next_loadFrom dr _ (memRead_regs s _)⟩

/-- Settles O18: LEA has one form, and it is by definition one write of the address with its flags. -/
theorem leaMeaning : Obligations.LeaMeaning :=
  ⟨fun _ => decode_lea, fun _ _ _ => exec_eq_of_setRegCc rfl⟩

end Sys2Proof.Machine
end

section
/-! The store instructions (R108, R109, R160 to R163): each is read off its opcode, and each is one write of memory, for STI after the
read of its pointer.  A word that was stored is what a load at the same address gives back. -/

namespace Sys2Proof.Machine

open Sys2Proof.Statements

/-! ## Their encoding -/

section
variable {w : Word}

theorem decode_st (hop : w.extractLsb' 12 4 = 0x3) : decode w = .st (reg11to9 w) (offset9Field w) :=
  decode_eq_decodeAs (op := .st) hop

theorem decode_sti (hop : w.extractLsb' 12 4 = 0xB) : decode w = .sti (reg11to9 w) (offset9Field w) :=
  decode_eq_decodeAs (op := .sti) hop

theorem decode_str (hop : w.extractLsb' 12 4 = 0x7) : decode w = .str (reg11to9 w) (reg8to6 w) (offset6Field w) :=
  decode_eq_decodeAs (op := .str) hop

end

/-! ## A stored word, loaded -/

section
variable {s t u : State} {a v : Word}

/-- A store form that has an address leaves the source register's word there, whether or not its pointer read wrote the keyboard
words before (R160 to R163). -/
theorem word_of_exec_store {i : Instr} {sr baseR : Reg} {off9 : BitVec 9} {off6 : BitVec 6} (hs : s.mem.wf = true)
    (hi : i = .st sr off9 ∨ i = .sti sr off9 ∨ i = .str sr baseR off6) (ha : storeAddress i s = some a)
    (h : exec i s = .next t) : t.word a = s.reg sr := by
  obtain ⟨b, rfl⟩ := exec_store hi ha h
  exact State.word_putWord_same (memRead_wf s hs b) a (s.reg sr)

theorem word_congr_mem (h : u.mem = t.mem) (a : Word) : u.word a = t.word a :=
  congrArg (Memory.read · a.toNat) h

/-- LD at an address other than the status word's gives the word that is stored there (R57, R150). -/
theorem exec_ld_of_word (ha : a ≠ Config.kbsr) (hv : u.word a = v) {off : BitVec 9} (haddr : u.pcRelative off = a) (dr : Reg) :
    exec (.ld dr off) u = .next (u.setRegCc dr v) := by
  rw [exec_ld_plain (haddr ▸ ha), haddr, hv]

/-- LDR at an address other than the status word's gives the word that is stored there (R57, R152). -/
theorem exec_ldr_of_word (ha : a ≠ Config.kbsr) (hv : u.word a = v) {base : Reg} {off : BitVec 6}
    (haddr : u.basePlus base off = a) (dr : Reg) : exec (.ldr dr base off) u = .next (u.setRegCc dr v) := by
  rw [exec_ldr_plain (haddr ▸ ha), haddr, hv]

/-- LDI through a pointer to an address other than the status word's gives the word that is stored there (R57, R151). -/
theorem exec_ldi_of_word (ha : a ≠ Config.kbsr) (hv : u.word a = v) {off : BitVec 9} (hplain : u.pcRelative off ≠ Config.kbsr)
    (hptr : u.word (u.pcRelative off) = a) (dr : Reg) : exec (.ldi dr off) u = .next (u.setRegCc dr v) := by
  rw [exec_ldi_plain hplain (hptr ▸ ha), hptr, hv]

end

/-! ## The statements -/

/-- Settles O39: each store form leaves the word at its address, memory is the same when the load begins, and each load form gives
back the word at the address. -/
theorem storeThenLoadRoundTrip : Obligations.StoreThenLoadRoundTrip := by
  intro s t u a sr dr baseR store off9 off6 hs hkbsr _ hstore ha h hmem
  have hword : u.word a = s.reg sr := (word_congr_mem hmem a).trans (word_of_exec_store hs hstore ha h)
  refine ⟨fun off haddr => ?_, fun base off haddr => ?_, fun off hplain hptr => ?_⟩
  · exact exec_eq_of_setRegCc (exec_ld_of_word hkbsr hword haddr dr)
  · exact exec_eq_of_setRegCc (exec_ldr_of_word hkbsr hword haddr dr)
  · exact exec_eq_of_setRegCc (exec_ldi_of_word hkbsr hword hplain hptr dr)

/-- Settles O19: ST has one form, and it is by definition one write of memory. -/
theorem stMeaning : Obligations.StMeaning :=
  ⟨fun _ => decode_st, fun _ _ s hs => ⟨_, rfl, rfl, s.word_putWord hs _ _⟩⟩

/-- Settles O20: STI has one form; its pointer read leaves SR as it was, so a pointer that is there is stored through with the word
that SR held at the start. -/
theorem stiMeaning : Obligations.StiMeaning := by
  refine ⟨fun _ => decode_sti, fun sr off s => ?_⟩
  have hreg := reg_memRead s (s.pc + sext9 off) sr
  show Host.Outcome.next (storeThrough sr (memRead (s.pc + sext9 off) s)) = _
  generalize memRead (s.pc + sext9 off) s = r at hreg ⊢
  obtain ⟨answer, t⟩ := r
  cases answer with
  | value a => exact congrArg (fun v => Host.Outcome.next (memWrite a v t)) hreg
  | waits => rfl
  | fails => rfl

/-- Settles O21: as ST, with the address from BaseR. -/
theorem strMeaning : Obligations.StrMeaning :=
  ⟨fun _ => decode_str, fun _ _ _ s hs => ⟨_, rfl, rfl, s.word_putWord hs _ _⟩⟩

end Sys2Proof.Machine
end

section
/-! The encoding of TRAP (R110, R115, R117): a service's row tests every bit that its layout names, so a word that matches it is
that service; any other word with the opcode of TRAP has an unknown vector. -/

namespace Sys2Proof

open Sys2Proof.Statements

variable {w : Word}

theorem wellFormed_of_callsConsole {i : Instr} (hi : callsConsole i = true) : i.wellFormed = true := by
  cases i <;> cases hi
  case trapGetc | trapOut | trapPuts | trapIn | trapPutsp | trapHalt => rfl

/-- The row of a service tests every named bit (R115, R122). -/
theorem row_mask_of_callsConsole {i : Instr} (hi : callsConsole i = true) : i.row.mask = fieldsMask i.namedFields := by
  cases i <;> cases hi
  case trapGetc | trapOut | trapPuts | trapIn | trapPutsp | trapHalt => decide

/-- A word that matches the row of a service is that service, whatever its ignored bits (R114, R115). -/
theorem decode_of_service_row {i : Instr} (hi : callsConsole i = true) (h : w &&& i.row.mask = i.row.pattern) :
    decode w = i := by
  have hwf : i.wellFormed = true := wellFormed_of_callsConsole hi
  have hdecode : decode (encode i) = i := decodeWith_encodeWith opcodeMap_wf hwf
  have hsame : w &&& i.row.mask = encode i &&& i.row.mask :=
    h.trans ((OpcodeRow.matchesWord_iff _ _).1 (matchesWord_encode hwf)).symm
  rw [row_mask_of_callsConsole hi, and_fieldsMask_eq_iff] at hsame
  exact (decode_congr (by rwa [hdecode])).trans hdecode

/-- A TRAP whose vector is outside 0x20 to 0x25 (R117). -/
theorem decode_trapUnknown (hop : w.extractLsb' 12 4 = 0xF)
    (hvector : ¬ (0x20 ≤ (w.extractLsb' 0 8).toNat ∧ (w.extractLsb' 0 8).toNat ≤ 0x25)) :
    decode w = .trapUnknown (w.extractLsb' 0 8) := by
  have hservice : isServiceVector (w.extractLsb' 0 8) = false := by
    rw [isServiceVector, ← Bool.decide_and, decide_eq_false hvector]
  exact (decode_eq_decodeAs (op := .trap) hop).trans (decodeTrap_of_not_service hservice)

end Sys2Proof
end

section
/-! TRAP and the services that write and read single characters (R170 to R172, R174, R176 to R178).  Each service begins in the state
that the link leaves, and goes on from each answer of the console. -/

namespace Sys2Proof.Machine

open Sys2Proof.Statements

/-! ## The link -/

/-- A TRAP begins with the link, and linking again changes nothing (R170). -/
theorem exec_link {i : Instr} (hi : isTrap i = true) (s : State) : exec i s.link = exec i s := by
  cases i <;> cases hi
  case trapGetc | trapOut | trapPuts | trapIn | trapPutsp | trapHalt | trapUnknown => rfl

theorem flagRegister_ne_r7_of_isTrap {i : Instr} (hi : isTrap i = true) {d : Reg} (hd : flagRegister i = some d) : .r7 ≠ d := by
  cases i <;> cases hi
  case trapGetc | trapIn =>
    cases hd
    decide
  case trapOut | trapPuts | trapPutsp | trapHalt | trapUnknown => cases hd

/-- A TRAP writes no register but R0 and R7 (R22, R178). -/
theorem not_mem_regsWritten_of_isTrap {i : Instr} (hi : isTrap i = true) {r : Reg} (h0 : r ≠ .r0) (h7 : r ≠ .r7) :
    r ∉ regsWritten i := by
  cases i <;> cases hi <;> simp [regsWritten, h0, h7]

/-- After the link no service writes R7 (R170, R178). -/
theorem exec_r7_of_isTrap {i : Instr} {s t : State} (hi : isTrap i = true) (h : exec i s = .next t) : t.reg .r7 = s.pc := by
  have hlinked : s.link.reg .r7 = s.pc := s.reg_setReg_same .r7 s.pc
  exact exec_keeps (P := fun t => t.reg .r7 = s.pc) i s.link t ((exec_link hi s).trans h) hlinked
    (hread := fun b t h => (reg_memRead t b .r7).trans h) (hkey := fun _ h => h) (hwrite := fun _ _ h => h)
    (hpark := fun _ _ h => h) (hraise := fun _ h => h) (hfatal := fun _ _ _ h => h)
    (hcc := fun _ v t hd h => (t.reg_setRegCc_of_ne (flagRegister_ne_r7_of_isTrap hi hd) v).trans h)
    (hlink := fun _ _ => s.link.reg_setReg_same .r7 s.pc) (hpc := fun _ _ _ htrap _ _ => absurd hi htrap)
    (hst := fun _ _ _ _ h => h) (hhalt := fun _ _ h => h)

/-- Settles O32: R7 is written by the link only, the pc not at all, and R22 lists R0 and R7 for a TRAP. -/
theorem trapLinksAndKeepsPc : Obligations.TrapLinksAndKeepsPc := fun i s t hi h =>
  ⟨exec_r7_of_isTrap hi h, exec_pc_of_flags_or_trap h (.inr hi),
    fun r h0 h7 => registersWrittenOnly i s t h r (not_mem_regsWritten_of_isTrap hi h0 h7)⟩

/-- Settles O30: a vector outside the six is decoded as unknown, whose meaning is by definition the link and the raise. -/
theorem unknownTrapMeaning : Obligations.UnknownTrapMeaning :=
  ⟨fun _ => decode_trapUnknown, fun _ _ => rfl⟩

/-! ## Bytes that the console accepts -/

/-- The console will accept a write of each of these bytes. -/
def Console.Accepts (c : Console) (bytes : List Byte) : Prop := ∀ w ∈ c.writes.take bytes.length, w = .done

/-- The console after it has accepted these bytes. -/
def Console.written (c : Console) (bytes : List Byte) : Console :=
  { c with writes := c.writes.drop bytes.length, out := c.out ++ bytes }

@[simp] theorem Console.written_nil (c : Console) : c.written [] = c := by
  simp [Console.written]

theorem Console.written_append (c : Console) (xs ys : List Byte) : c.written (xs ++ ys) = (c.written xs).written ys := by
  simp [Console.written]

theorem Console.accepts_append {c : Console} {xs ys : List Byte} :
    c.Accepts (xs ++ ys) ↔ c.Accepts xs ∧ (c.written xs).Accepts ys := by
  simp only [Console.Accepts, Console.written, List.length_append, List.take_add, List.forall_mem_append]

variable {s : State}

theorem writeBytes_of_accepts {bytes : List Byte} (h : s.console.Accepts bytes) :
    writeBytes bytes s = (.done, s.setConsole (s.console.written bytes)) :=
  writeBytes_done s bytes h

/-- A service whose text is accepted goes on after it (R82). -/
theorem finishWrite_writeBytes_of_accepts {bytes : List Byte} (h : s.console.Accepts bytes) (k : State → State) :
    finishWrite k (writeBytes bytes s) = k (s.setConsole (s.console.written bytes)) := by
  rw [writeBytes_of_accepts h]
  rfl

/-- One byte that is accepted (R82). -/
theorem writeByte_of_accepts {b : Byte} (h : s.console.Accepts [b]) :
    writeByte b s = (.done, s.setConsole (s.console.written [b])) := by
  have hdone := writeBytes_of_accepts h
  obtain ⟨haccepted, hconsole⟩ | ⟨hfailed, -⟩ := s.console.writeByte_cases b
  · rw [← List.drop_one] at hconsole
    exact Prod.ext haccepted (congrArg s.setConsole hconsole)
  · simp [writeBytes, writeByte, hfailed] at hdone

/-! ## GETC, OUT and HALT -/

theorem readKey_of_takeKey {r : KeyAnswer} {c : Console} (h : s.console.takeKey = (r, c)) :
    readKey s = (r, s.setConsole c) := by
  rw [readKey, h]

theorem writeByte_of_writeByte {b : Byte} {r : WriteAnswer} {c : Console} (h : s.console.writeByte b = (r, c)) :
    writeByte b s = (r, s.setConsole c) := by
  rw [writeByte, h]

/-- A key goes to R0 with zeros above it, so its flag is ZRO or POS (R171). -/
theorem State.setRegCc_zext8 (s : State) (d : Reg) (k : Byte) :
    s.setRegCc d (zext8 k) = { s with regs := s.regs.set d (zext8 k), cond := if k = 0x00 then .zro else .pos } := by
  rw [State.setRegCc_eq, condOf_zext8]

/-- GETC goes on from the answer of the one call that it makes (R171). -/
theorem exec_trapGetc_of_takeKey {r : KeyAnswer} {c : Console} (h : s.console.takeKey = (r, c)) :
    exec .trapGetc s = .next (getcFrom (r, s.link.setConsole c)) :=
  congrArg (fun r => Host.Outcome.next (getcFrom r)) (readKey_of_takeKey (s := s.link) h)

/-- Settles O23: each answer of `ReadKey()` is one way to go on from the state after the link. -/
theorem getcMeaning : Obligations.GetcMeaning := by
  refine ⟨fun _ h => decode_of_service_row rfl h, fun s c => ⟨fun k hk => ?key, fun hk => ?waits, fun hk => ?fails⟩⟩
  all_goals rw [exec_trapGetc_of_takeKey hk]
  case key => exact congrArg Host.Outcome.next ((s.link.setConsole c).setRegCc_zext8 .r0 k)
  case waits => rfl
  case fails => rfl

/-- OUT goes on from the answer of the one call that it makes (R172). -/
theorem exec_trapOut_of_writeByte {r : WriteAnswer} {c : Console} (h : s.console.writeByte (lowByte (s.reg .r0)) = (r, c)) :
    exec .trapOut s = .next (finishWrite id (r, s.link.setConsole c)) :=
  congrArg (fun r => Host.Outcome.next (finishWrite id r)) (writeByte_of_writeByte (s := s.link) h)

/-- A byte is in the output exactly when its write was accepted (R82, R84). -/
theorem Console.out_of_writeByte {c d : Console} {b : Byte} {r : WriteAnswer} (h : c.writeByte b = (r, d)) :
    d.out = if r = .done then c.out ++ [b] else c.out := by
  have hcases := c.writeByte_cases b
  simp only [h] at hcases
  obtain ⟨rfl, rfl⟩ | ⟨rfl, rfl⟩ := hcases
  · rfl
  · rfl

/-- Settles O24: each answer of `WriteByte` is one way to go on from the state after the link. -/
theorem outMeaning : Obligations.OutMeaning := by
  refine ⟨fun _ h => decode_of_service_row rfl h, fun s c => ⟨fun h => ?done, fun h => ?fails⟩⟩
  case done => exact ⟨Console.out_of_writeByte h, exec_trapOut_of_writeByte h⟩
  case fails => exact ⟨Console.out_of_writeByte h, exec_trapOut_of_writeByte h⟩

/-- Settles O26: the text is accepted, and the run state changes after it. -/
theorem haltMeaning : Obligations.HaltMeaning :=
  ⟨fun _ h => decode_of_service_row rfl h, fun s h =>
    congrArg Host.Outcome.next (finishWrite_writeBytes_of_accepts (s := s.link) (bytes := haltBytes) h (·.setRun .halted))⟩

/-! ## IN -/

/-- The next key does not depend on the writes. -/
theorem Console.takeKey_written (c : Console) (bytes : List Byte) :
    (c.written bytes).takeKey = (c.takeKey.1, c.takeKey.2.written bytes) := by
  obtain ⟨polls, keys, writes, out⟩ := c
  cases keys <;> rfl

/-- IN whose prompt is accepted goes on from the answer of `ReadKey()` (R174). -/
theorem exec_trapIn_of_takeKey {r : KeyAnswer} {c : Console} (hprompt : s.console.Accepts promptBytes)
    (h : s.console.takeKey = (r, c)) : exec .trapIn s = .next (inFrom (r, s.link.setConsole (c.written promptBytes))) := by
  have hkey : s.prompted.console.takeKey = (r, c.written promptBytes) :=
    (s.console.takeKey_written promptBytes).trans (by rw [h])
  rw [exec_trapIn_of_prompt_done hprompt, readKey_of_takeKey hkey]
  rfl

/-- IN that has its key and whose echo is accepted (R174). -/
theorem inFrom_byte {k : Byte} (h : s.console.Accepts [k]) :
    inFrom (.byte k, s) = { s with
      regs := s.regs.set .r0 (zext8 k), cond := if k = 0x00 then .zro else .pos, console := s.console.written [k] } := by
  show finishWrite _ (writeByte k s) = _
  rw [writeByte_of_accepts h]
  exact (s.setConsole (s.console.written [k])).setRegCc_zext8 .r0 k

theorem Console.writes_of_takeKey {c d : Console} {r : KeyAnswer} (h : c.takeKey = (r, d)) : d.writes = c.writes := by
  simpa only [h] using c.takeKey_writes

theorem Console.out_of_takeKey {c d : Console} {r : KeyAnswer} (h : c.takeKey = (r, d)) : d.out = c.out := by
  simpa only [h] using c.takeKey_out

/-- Settles O25: the prompt is accepted, each answer of `ReadKey()` is one way to go on after it, and a key is echoed before it goes to
R0. -/
theorem inMeaning : Obligations.InMeaning := by
  refine ⟨fun _ h => decode_of_service_row rfl h, rfl, fun s c hprompt => ⟨fun k hk hall => ?key, fun hk => ?waits,
    fun hk => ?fails⟩⟩
  all_goals
    rw [exec_trapIn_of_takeKey hprompt hk, ← Console.writes_of_takeKey hk, ← Console.out_of_takeKey hk]
  case key =>
    rw [← Console.writes_of_takeKey hk] at hall
    have hbytes : c.Accepts (promptBytes ++ [k]) := hall
    obtain ⟨-, hecho⟩ := Console.accepts_append.1 hbytes
    have hdrop : (c.writes.drop 19).drop 1 = c.writes.drop 20 := List.drop_drop
    rw [inFrom_byte hecho, ← hdrop]
    rfl
  case waits => rfl
  case fails => rfl

end Sys2Proof.Machine
end

section
/-! PUTS and PUTSP (R173, R175): the loop of the model ends as the run of the pseudocode does, and a string that is away from the
keyboard status word and whose bytes are accepted has the run that ends at its terminator. -/

namespace Sys2Proof.Machine

open Sys2Proof.Statements

variable {service : StringService} {s t : State} {a b w : Word}

/-! ## One turn of the loop -/

theorem stringLoop_fails (service : StringService) (turns : Nat) (a : Word) (t : State) :
    stringLoop service turns a (.fails, t) = t.raise .ioFailure := by
  cases turns <;> rfl

/-- A word whose bytes are not all written ends the loop (R84). -/
theorem stringLoop_write_fails {u : State} (turns : Nat) (hw : w ≠ 0x0000)
    (hwrite : writeBytes (service.bytes w) t = (.fails, u)) :
    stringLoop service turns a (.value w, t) = u.raise .ioFailure := by
  cases turns with
  | zero =>
    show (if w = 0x0000 then t else finishWrite _ (writeBytes (service.bytes w) t)) = _
    rw [if_neg hw, hwrite]
    rfl
  | succ turns =>
    rw [stringLoop_succ_word service turns a hw, hwrite]
    rfl

/-- A word that is written whole leads on to the next address (R173, R175). -/
theorem stringLoop_word {u : State} (turns : Nat) (hw : w ≠ 0x0000)
    (hwrite : writeBytes (service.bytes w) t = (.done, u)) :
    stringLoop service (turns + 1) a (.value w, t) = stringLoop service turns (a + 1) (memRead (a + 1) u) := by
  rw [stringLoop_succ_word service turns a hw, hwrite]
  rfl

/-- The last word that one step handles: the string goes on from `pending`. -/
theorem stringLoop_last_word {u : State} (hw : w ≠ 0x0000) (hwrite : writeBytes (service.bytes w) t = (.done, u)) :
    stringLoop service 0 a (.value w, t) = u.park (.stringAt service (a + 1)) := by
  show (if w = 0x0000 then t else finishWrite _ (writeBytes (service.bytes w) t)) = _
  rw [if_neg hw, hwrite]
  rfl

/-! ## The loop and the pseudocode -/

/-- With turns enough for the words that are written whole, the loop ends as the pseudocode does. -/
theorem stringLoop_of_run {n turns : Nat} (h : StringRun service n a s t) (hn : n ≤ turns) :
    stringLoop service turns a (memRead a s) = t := by
  induction h generalizing turns with
  | terminator hread => rw [hread, stringLoop_zero_word]
  | word hread hw hwrite _ ih =>
    obtain ⟨turns, rfl⟩ := Nat.exists_eq_add_one.2 (Nat.zero_lt_of_lt hn)
    rw [hread, stringLoop_word turns hw hwrite]
    exact ih (Nat.le_of_succ_le_succ hn)
  | readWaits hread =>
    rw [hread, stringLoop_waits]
    rfl
  | readFails hread =>
    rw [hread, stringLoop_fails]
    rfl
  | writeFails hread hw hwrite =>
    rw [hread, stringLoop_write_fails turns hw hwrite]
    rfl

/-- When every turn writes its word whole, the string goes on from `pending`. -/
theorem stringLoop_of_words {turns : Nat} (h : StringWords service (turns + 1) a s b t) :
    stringLoop service turns a (memRead a s) = t.park (.stringAt service b) := by
  induction turns generalizing a s with
  | zero =>
    cases h with
    | word hread hw hwrite hrest =>
      cases hrest
      rw [hread, stringLoop_last_word hw hwrite]
  | succ turns ih =>
    cases h with
    | word hread hw hwrite hrest =>
      rw [hread, stringLoop_word turns hw hwrite]
      exact ih hrest

theorem stringFrom_of_run {n : Nat} (h : StringRun service n a s t) (hn : n < 65536) : stringFrom service a s = t :=
  stringLoop_of_run h (Nat.le_of_lt_succ hn)

theorem stringFrom_of_words (h : StringWords service 65536 a s b t) :
    stringFrom service a s = t.park (.stringAt service b) :=
  stringLoop_of_words (turns := 65535) h

/-- Settles O29: the services and the steps that go on with them are the loop from an address, or from the word of a status read that had
waited. -/
theorem stringServicesFollowPseudocode : Obligations.StringServicesFollowPseudocode := by
  refine ⟨fun n s t hn => ⟨?puts, ?putsp⟩, fun s t b => ⟨?putsLong, ?putspLong⟩,
    fun service n a b s t hrun hp => ⟨?stringAt, ?stringAtLong⟩, fun service a s u hrun hp => ?statusKey⟩
  case puts | putsp => exact fun h => congrArg Host.Outcome.next (stringFrom_of_run h hn)
  case putsLong | putspLong => exact fun h => congrArg Host.Outcome.next (stringFrom_of_words h)
  case stringAt =>
    exact fun hn h => (step_resumes s hrun hp).trans (congrArg Host.Outcome.next (stringFrom_of_run h hn))
  case stringAtLong =>
    exact fun h => (step_resumes s hrun hp).trans (congrArg Host.Outcome.next (stringFrom_of_words h))
  case statusKey =>
    have hstep : step s = .next (stringLoop service (65534 + 1) a (takeStatusKey { s with pending := none })) :=
      step_resumes s hrun hp
    refine ⟨fun hkey => ?fails, fun hkey => ?terminator, fun w x hkey hw => ⟨fun hwrite => ?writeFails, fun hwrite => ?word⟩⟩
    all_goals rw [hstep, hkey]
    case fails => exact congrArg Host.Outcome.next (stringLoop_fails service _ a u)
    case terminator => exact congrArg Host.Outcome.next (stringLoop_zero_word service _ a u)
    case writeFails => exact congrArg Host.Outcome.next (stringLoop_write_fails _ hw hwrite)
    case word =>
      rw [stringLoop_word 65534 hw hwrite]
      exact ⟨fun n v hn h => congrArg Host.Outcome.next (stringLoop_of_run h (Nat.le_of_lt_succ hn)),
        fun b v h => congrArg Host.Outcome.next (stringLoop_of_words h)⟩

/-! ## A string in memory -/

/-- A string in memory whose bytes are accepted is written whole, up to its terminator, in every state that has that memory
(R173, R175). -/
theorem stringRun_of_stringAt {ws : List Word} (hmem : t.mem = s.mem) (h : StringAt s a ws)
    (haccepts : t.console.Accepts (ws.flatMap service.bytes)) :
    StringRun service ws.length a t (t.setConsole (t.console.written (ws.flatMap service.bytes))) := by
  induction ws generalizing a t with
  | nil =>
    obtain ⟨hplain, hzero⟩ := h
    have hread : memRead a t = (.value 0x0000, t) := by
      rw [memRead_plain t hplain, word_congr_mem hmem, hzero]
    rw [List.flatMap_nil, Console.written_nil]
    exact .terminator hread
  | cons w ws ih =>
    obtain ⟨hplain, hword, hw, hrest⟩ := h
    have hread : memRead a t = (.value w, t) := by
      rw [memRead_plain t hplain, word_congr_mem hmem, hword]
    rw [List.flatMap_cons, Console.accepts_append] at haccepts
    obtain ⟨hfirst, haccepts⟩ := haccepts
    rw [List.flatMap_cons, Console.written_append]
    exact .word hread hw (writeBytes_of_accepts hfirst)
      (ih (t := t.setConsole (t.console.written (service.bytes w))) hmem hrest haccepts)

/-- The loop on such a string, within one lap of memory, from the state after the link. -/
theorem stringFrom_of_stringAt {ws : List Word} (h : StringAt s a ws) (hlen : ws.length < 65536)
    (haccepts : s.console.Accepts (ws.flatMap service.bytes)) :
    stringFrom service a s.link = s.link.setConsole (s.console.written (ws.flatMap service.bytes)) :=
  stringFrom_of_run (stringRun_of_stringAt (s := s) (t := s.link) rfl h haccepts) hlen

/-- PUTS writes one byte for each word (R173). -/
theorem flatMap_bytes_puts (ws : List Word) : ws.flatMap StringService.puts.bytes = ws.map lowByte :=
  List.map_eq_flatMap.symm

/-- Settles O27: the run on such a string, with one byte for each word. -/
theorem putsMeaning : Obligations.PutsMeaning := by
  refine ⟨fun _ h => decode_of_service_row rfl h, fun s ws h hlen haccepts => ?_⟩
  have hlength : (ws.map lowByte).length = ws.length := List.length_map lowByte
  have hrun := stringFrom_of_stringAt (service := .puts) h hlen
  rw [flatMap_bytes_puts, Console.Accepts, Console.written, hlength] at hrun
  exact congrArg Host.Outcome.next (hrun haccepts)

/-- Settles O28: the run on such a string, with the bytes of each word in order. -/
theorem putspMeaning : Obligations.PutspMeaning := by
  refine ⟨fun _ h => decode_of_service_row rfl h, fun s ws bytes h hlen haccepts hbytes => ?_⟩
  have hbytes' : bytes = ws.flatMap StringService.putsp.bytes := hbytes
  subst hbytes'
  exact congrArg Host.Outcome.next (stringFrom_of_stringAt h hlen haccepts)

end Sys2Proof.Machine
end

section
/-! RTI and RES (R111, R190, R191): the layout of each is its opcode alone, so a word that decodes to either has that opcode's number in
`ir[15:12]`, and this number is the payload that the meaning raises. -/

namespace Sys2Proof

/-! ## The opcode of an instruction -/

/-- The opcode whose layout an instruction has (R101 to R111). -/
def Instr.opcode : Instr → Opcode
  | .br _ _ => .br
  | .addReg _ _ _ | .addImm _ _ _ => .add
  | .ld _ _ => .ld
  | .st _ _ => .st
  | .jsr _ | .jsrr _ => .jsr
  | .andReg _ _ _ | .andImm _ _ _ => .and
  | .ldr _ _ _ => .ldr
  | .str _ _ _ => .str
  | .rti => .rti
  | .not _ _ => .not
  | .ldi _ _ => .ldi
  | .sti _ _ => .sti
  | .jmp _ => .jmp
  | .res => .res
  | .lea _ _ => .lea
  | .trapGetc | .trapOut | .trapPuts | .trapIn | .trapPutsp | .trapHalt | .trapUnknown _ => .trap

theorem opcode_decodeTrap (v : BitVec 8) : (decodeTrap v).opcode = .trap := by
  revert v
  decide

theorem opcode_decodeAs (op : Opcode) (w : Word) : (decodeAs op w).opcode = op := by
  cases op
  case add | and => cases hmode : immediateMode w <;> simp [decodeAs, hmode, Instr.opcode]
  case jsr => cases hlong : longBit w <;> simp [decodeAs, hlong, Instr.opcode]
  case trap => exact opcode_decodeTrap _
  all_goals rfl

/-- Under a legal OPCODE_MAP, `ir[15:12]` is the number of the decoded instruction's opcode (R100, R115). -/
theorem opcodeNumber_opcode_decodeWith {m : OpcodeMap} (hm : m.wf = true) (w : Word) :
    opcodeNumber m (decodeWith m w).opcode = w.extractLsb' 12 4 := by
  rw [decodeWith, opcode_decodeAs, opcodeNumber_opcodeOf hm, opcodeField]

/-! ## Their encoding -/

section
variable {w : Word}

theorem decode_rti (hop : w.extractLsb' 12 4 = 0x8) : decode w = .rti :=
  decode_eq_decodeAs (op := .rti) hop

theorem decode_res (hop : w.extractLsb' 12 4 = 0xD) : decode w = .res :=
  decode_eq_decodeAs (op := .res) hop

end

namespace Machine

/-! ## Their effect -/

/-- Each raises UnsupportedOpcode with its own opcode's number, and that is all (R190, R191). -/
theorem exec_of_unsupported {i : Instr} (hi : i = .rti ∨ i = .res) (s : State) :
    exec i s = .next { s with run := .faulted (.unsupportedOpcode (opcodeNumber s.params.opcodeMap i.opcode)) } := by
  obtain rfl | rfl := hi
  · rfl
  · rfl

/-! ## The statement -/

/-- Settles O31: the payload is the number of the instruction's opcode, which is the opcode field of every word that decodes to it. -/
theorem unsupportedOpcodeMeaning : Obligations.UnsupportedOpcodeMeaning := by
  refine ⟨fun _ => decode_rti, fun _ => decode_res, fun s => ⟨_, exec_of_unsupported (.inl rfl) s, fun hmap => ?_⟩,
    fun s => ⟨_, exec_of_unsupported (.inr rfl) s, fun hmap => ?_⟩, fun s w hm hi => ?_⟩
  · rw [hmap, Instr.opcode, opcodeNumber_rti]
  · rw [hmap, Instr.opcode, opcodeNumber_res]
  · rw [exec_of_unsupported hi, opcodeNumber_opcode_decodeWith hm]

end Machine

end Sys2Proof
end

section
/-! The step and the run (R201 to R206, R209, R220, R221): a step while Running executes the word of its fetch, or it leaves the machine
Running or failed at the console; so only what an instruction does can halt the machine or raise another fatal condition. -/

namespace Sys2Proof.Machine

open Sys2Proof.Safety Sys2Proof.Statements

variable {s t u : State} {i : Instr} {ir : Word}

/-! ## A step that executes the word of its fetch -/

/-- The fetch, at once or after a wait, leaves the pc, the parameters and the run state (R55, R201). -/
theorem executes_unchanged (h : Executes s ir u) : u.pc = s.pc ∧ u.params = s.params ∧ u.run = s.run := by
  obtain ⟨_, hread⟩ | ⟨_, hkey⟩ := h
  · have hu : u = (memRead s.pc s).2 := (congrArg Prod.snd hread).symm
    exact hu ▸ ⟨memRead_pc s _, memRead_params s _, memRead_run s _⟩
  · have hu : u = (takeStatusKey (s.setPending none)).2 := (congrArg Prod.snd hkey).symm
    exact hu ▸ ⟨takeStatusKey_pc _, takeStatusKey_params _, takeStatusKey_run _⟩

/-- The step that executes a word is the increment and the decoded instruction (R201). -/
theorem step_of_executes (hrun : s.run = .running) (h : Executes s ir u) :
    step s = exec (decodeWith s.params.opcodeMap ir) { u with pc := s.pc + 1 } := by
  have hstep : step s = afterFetch exec (.value ir, u) := by
    obtain ⟨hpend, hread⟩ | ⟨hpend, hkey⟩ := h
    · rw [step_fetches s hrun hpend, fetch, hread]
    · rw [step_resumes s hrun hpend]
      exact congrArg (afterFetch exec) hkey
  obtain ⟨hpc, hparams, _⟩ := executes_unchanged h
  rw [hstep, ← hpc, ← hparams]
  rfl

/-- Settles O46: a fetch that reads a word leads to its execution; a fetch that fails raises before the increment. -/
theorem stepRunsDecodedInstruction : Obligations.StepRunsDecodedInstruction := by
  intro s hrun
  refine ⟨fun hpend => ⟨fun ir t hread => ?word, fun t hread => ⟨?raises, ?pc⟩, fun i hpc _ hi => ?stored⟩,
    fun hpend => ⟨fun ir u hkey => ?resumedWord, fun u hkey => ⟨?resumedRaises, ?resumedPc⟩⟩⟩
  case word => exact step_of_executes hrun (.inl ⟨hpend, hread⟩)
  case raises =>
    rw [step_fetches s hrun hpend, fetch, hread]
    rfl
  case pc => exact (congrArg (·.2.pc) hread).symm.trans (memRead_pc s _)
  case stored => rw [step_executes_stored_word hrun hpend hpc, hi]
  case resumedWord => exact step_of_executes hrun (.inr ⟨hpend, hkey⟩)
  case resumedRaises =>
    rw [step_resumes s hrun hpend]
    exact congrArg (afterFetch exec) hkey
  case resumedPc => exact (congrArg (·.2.pc) hkey).symm.trans (takeStatusKey_pc _)

/-! ## Running, or failed at the console -/

/-- The machine runs, or a console call has failed: how every operation but HALT and the two other fatal conditions leaves a running
machine. -/
def RunningOrIoFailed (s : State) : Prop := s.run = .running ∨ s.run = .faulted .ioFailure

theorem RunningOrIoFailed.of_run_eq (hs : RunningOrIoFailed s) (h : t.run = s.run) : RunningOrIoFailed t :=
  hs.imp h.trans h.trans

theorem runningOrIoFailed_raise (s : State) : RunningOrIoFailed (s.raise .ioFailure) := .inr rfl

theorem FlagsEnd.runningOrIoFailed {d : Reg} (h : FlagsEnd d s t) (hs : RunningOrIoFailed s) : RunningOrIoFailed t := by
  cases h with
  | sets v ht => exact hs.of_run_eq ht.run
  | waits p ht => exact hs.of_run_eq ht.run
  | fails => exact runningOrIoFailed_raise _

theorem stringLoop_runningOrIoFailed (service : StringService) (n : Nat) (a : Word) {r : ReadResult × State}
    (hr : RunningOrIoFailed r.2) : RunningOrIoFailed (stringLoop service n a r) :=
  stringLoop_keeps service n a r (fun b t ht => ht.of_run_eq (memRead_run t b)) (fun _ _ ht => ht) (fun _ _ ht => ht)
    (fun t _ => runningOrIoFailed_raise t) hr

theorem storeThrough_runningOrIoFailed (sr : Reg) {r : ReadResult × State} (hr : RunningOrIoFailed r.2) :
    RunningOrIoFailed (storeThrough sr r) :=
  finishRead_elim _ _ _ (fun _ _ => hr) hr (runningOrIoFailed_raise _)

/-- An instruction that is gone on with, its fetch being over, neither halts nor raises another condition than IoFailure (R83, R84). -/
theorem resume_runningOrIoFailed {p : Pending} (hp : p ≠ .statusKey .fetch) (hs : RunningOrIoFailed s)
    (h : resume exec p s = .next t) : RunningOrIoFailed t := by
  have hkey : RunningOrIoFailed (takeStatusKey s).2 := hs.of_run_eq (takeStatusKey_run s)
  cases p with
  | getcKey =>
    cases h
    exact (getcFrom_flagsEnd (.refl ..)).runningOrIoFailed hs
  | inKey =>
    cases h
    exact (inFrom_flagsEnd (.refl ..)).runningOrIoFailed hs
  | stringAt service a =>
    cases h
    exact stringLoop_runningOrIoFailed _ _ _ (hs.of_run_eq (memRead_run s a))
  | statusKey use =>
    cases use with
    | fetch => exact absurd rfl hp
    | load dr =>
      cases h
      exact (loadFrom_flagsEnd (.refl ..)).runningOrIoFailed hkey
    | loadPointer dr =>
      cases h
      exact (loadThrough_flagsEnd (.refl ..)).runningOrIoFailed hkey
    | storePointer sr =>
      cases h
      exact storeThrough_runningOrIoFailed sr hkey
    | stringWord service a =>
      cases h
      exact stringLoop_runningOrIoFailed _ _ _ hkey

/-- A fetch that gives no word waits or fails (R83, R84). -/
theorem afterFetch_value_or {r : ReadResult × State} (hr : RunningOrIoFailed r.2) (h : afterFetch exec r = .next t) :
    (∃ ir, r = (.value ir, r.2)) ∨ RunningOrIoFailed t := by
  obtain ⟨answer, u⟩ := r
  cases answer with
  | value ir => exact .inl ⟨ir, rfl⟩
  | waits =>
    cases h
    exact .inr hr
  | fails =>
    cases h
    exact .inr (runningOrIoFailed_raise u)

/-- A step while Running executes a word, or leaves the machine Running or failed at the console (R201, R83, R84). -/
theorem step_executes_or (hrun : s.run = .running) (h : step s = .next t) :
    (∃ ir u, Executes s ir u) ∨ RunningOrIoFailed t := by
  have hs : RunningOrIoFailed s := .inl hrun
  cases hpend : s.pending with
  | none =>
    rw [step_fetches s hrun hpend] at h
    exact (afterFetch_value_or (hs.of_run_eq (memRead_run s _)) h).imp_left
      fun ⟨ir, hread⟩ => ⟨ir, _, .inl ⟨hpend, hread⟩⟩
  | some p =>
    rw [step_resumes s hrun hpend] at h
    by_cases hp : p = .statusKey .fetch
    · subst hp
      have hkey : RunningOrIoFailed (takeStatusKey (s.setPending none)).2 := hs.of_run_eq (takeStatusKey_run _)
      exact (afterFetch_value_or hkey h).imp_left fun ⟨ir, hvalue⟩ => ⟨ir, _, .inr ⟨hpend, hvalue⟩⟩
    · exact .inr (resume_runningOrIoFailed hp (s := s.setPending none) hs h)

/-! ## How an instruction leaves a running machine -/

/-- HALT ends with its text written and the machine Halted, or its text has failed (R176, R204). -/
theorem exec_trapHalt_cases (h : exec .trapHalt s = .next t) :
    (t.run = .halted ∧ t.reg .r7 = s.pc ∧ t.console.out = s.console.out ++ haltBytes) ∨ t.run = .faulted .ioFailure := by
  cases h
  have hr7 : (writeBytes haltBytes s.link).2.reg .r7 = s.pc := (reg_writeBytes ..).trans (State.reg_link s .r7)
  obtain ⟨written, rest, hsplit, hout, hall⟩ := writeBytes_out s.link haltBytes
  generalize writeBytes haltBytes s.link = r at hr7 hout hall ⊢
  obtain ⟨answer, u⟩ := r
  cases answer with
  | done =>
    have hwritten : haltBytes = written := by rw [hsplit, hall rfl, List.append_nil]
    exact .inl ⟨rfl, hr7, hwritten ▸ hout⟩
  | fails => exact .inr rfl

/-- Only HALT and the instructions that raise always can leave a running machine other than Running or failed at the console. -/
theorem exec_runningOrIoFailed (hraise : raisesAlways i ≠ true) (hhalt : i ≠ .trapHalt) (hs : RunningOrIoFailed s)
    (h : exec i s = .next t) : RunningOrIoFailed t :=
  exec_keeps i s t h hs
    (hread := fun b t ht => ht.of_run_eq (memRead_run t b)) (hkey := fun _ ht => ht) (hwrite := fun _ _ ht => ht)
    (hpark := fun _ _ ht => ht) (hraise := fun t _ => runningOrIoFailed_raise t)
    (hfatal := fun _ _ hi _ => absurd hi hraise) (hcc := fun _ _ _ _ ht => ht) (hlink := fun hs _ => hs)
    (hpc := fun _ _ ht _ _ _ => ht) (hst := fun _ _ _ _ ht => ht) (hhalt := fun _ hi _ => absurd hi hhalt)

/-- What the instructions that raise always leave: the machine Faulted, for a TRAP with R7 written before (R170, R190, R191). -/
theorem exec_of_raisesAlways (hraise : raisesAlways i = true) (h : exec i s = .next t) :
    ((i = .rti ∨ i = .res) ∧ ∃ op, t = s.raise (.unsupportedOpcode op)) ∨
      ∃ v, i = .trapUnknown v ∧ t = s.link.raise (.unknownTrap v) := by
  cases i <;> cases hraise <;> cases h
  case rti => exact .inl ⟨.inl rfl, _, rfl⟩
  case res => exact .inl ⟨.inr rfl, _, rfl⟩
  case trapUnknown v => exact .inr ⟨v, rfl, rfl⟩

/-- The four ways in which an instruction that begins while the machine runs can leave it (R204, R220, R221, R222). -/
theorem exec_run_cases (hrun : s.run = .running) (h : exec i s = .next t) :
    RunningOrIoFailed t ∨ (i = .trapHalt ∧ t.run = .halted) ∨
      ((i = .rti ∨ i = .res) ∧ ∃ op, t = s.raise (.unsupportedOpcode op)) ∨
      ∃ v, i = .trapUnknown v ∧ t = s.link.raise (.unknownTrap v) := by
  by_cases hraise : raisesAlways i = true
  · exact .inr (.inr (exec_of_raisesAlways hraise h))
  · by_cases hhalt : i = .trapHalt
    · subst hhalt
      obtain ⟨hhalted, _⟩ | hfailed := exec_trapHalt_cases h
      · exact .inr (.inl ⟨rfl, hhalted⟩)
      · exact .inl (.inr hfailed)
    · exact .inl (exec_runningOrIoFailed hraise hhalt (.inl hrun) h)

/-- A step that leaves a running machine neither Running nor failed at the console has executed one of four instructions, in one of
three ways. -/
theorem step_run_cases (hrun : s.run = .running) (h : step s = .next t) :
    RunningOrIoFailed t ∨ ∃ ir u, Executes s ir u ∧
      ((decodeWith s.params.opcodeMap ir = .trapHalt ∧ t.run = .halted) ∨
        ((decodeWith s.params.opcodeMap ir = .rti ∨ decodeWith s.params.opcodeMap ir = .res) ∧
          ∃ op, t = { u with pc := s.pc + 1, run := .faulted (.unsupportedOpcode op) }) ∨
        ∃ v, decodeWith s.params.opcodeMap ir = .trapUnknown v ∧
          t = { u with pc := s.pc + 1, regs := u.regs.set .r7 (s.pc + 1), run := .faulted (.unknownTrap v) }) := by
  obtain ⟨ir, u, hexecutes⟩ | ht := step_executes_or hrun h
  · obtain ⟨_, _, hu⟩ := executes_unchanged hexecutes
    rw [step_of_executes hrun hexecutes] at h
    exact (exec_run_cases (s := { u with pc := s.pc + 1 }) (hu.trans hrun) h).imp_right fun hi => ⟨ir, u, hexecutes, hi⟩
  · exact .inl ht

/-! ## The statements -/

/-- Settles O48: of the ways in which a step ends, one is Halted, and its instruction is HALT; a state after the end has no step. -/
theorem onlyHaltHalts : Obligations.OnlyHaltHalts := by
  refine ⟨fun s t hrun h hhalted => ?_, fun s => Iff.rfl, fun s t hended h => ?_⟩
  · obtain ht | ⟨ir, u, hexecutes, ⟨hhalt, _⟩ | ⟨_, _, rfl⟩ | ⟨_, _, rfl⟩⟩ := step_run_cases hrun h
    · simp [RunningOrIoFailed, hhalted] at ht
    · rw [step_of_executes hrun hexecutes, hhalt] at h
      obtain ⟨_, hr7, hout⟩ | hfailed := exec_trapHalt_cases h
      · exact ⟨ir, u, hexecutes, hhalt, exec_pc_of_flags_or_trap h (.inr rfl), hr7, _, hout⟩
      · simp [hhalted] at hfailed
    · cases hhalted
    · cases hhalted
  · obtain ⟨hrun, _⟩ | hrun := step_next_cases h
    · simp [Ended, hrun] at hended
    · simp [Ended, hrun] at hended

/-- A word that decodes to the TRAP without a service has no service's vector (R117). -/
theorem not_isServiceVector_of_decodeWith {m : OpcodeMap} {v : BitVec 8} (h : decodeWith m ir = .trapUnknown v) :
    isServiceVector v = false := by
  have hop : opcodeOf m (opcodeField ir) = .trap := by
    rw [← opcode_decodeAs (opcodeOf m (opcodeField ir)) ir]
    exact congrArg Instr.opcode h
  have htrap : decodeTrap (vector8Field ir) = .trapUnknown v := by
    rwa [decodeWith, hop] at h
  simpa [htrap, Instr.wellFormed] using wellFormed_decodeTrap (vector8Field ir)

theorem isServiceVector_iff (v : BitVec 8) : isServiceVector v = true ↔ 0x20 ≤ v.toNat ∧ v.toNat ≤ 0x25 := by
  simp [isServiceVector]

/-- Settles O49: of the ways in which a step ends, each of the two conditions is one, and its instruction is the one that raises it; and
the step that executes such an instruction ends so. -/
theorem fatalConditionSources : Obligations.FatalConditionSources := by
  intro s t hrun h
  refine ⟨fun op hop => ?unsupported, fun v hv => ?unknown, fun ir u hexecutes hi => ?raisesUnsupported,
    fun ir u v hexecutes hi => ?raisesUnknown⟩
  case unsupported =>
    obtain ht | ⟨ir, u, hexecutes, ⟨_, hhalted⟩ | ⟨hi, _, rfl⟩ | ⟨_, _, rfl⟩⟩ := step_run_cases hrun h
    · simp [RunningOrIoFailed, hop] at ht
    · simp [hop] at hhalted
    · cases hop
      exact ⟨ir, u, hexecutes, hi, rfl⟩
    · cases hop
  case unknown =>
    obtain ht | ⟨ir, u, hexecutes, ⟨_, hhalted⟩ | ⟨_, _, rfl⟩ | ⟨_, hi, rfl⟩⟩ := step_run_cases hrun h
    · simp [RunningOrIoFailed, hv] at ht
    · simp [hv] at hhalted
    · cases hv
    · cases hv
      have hvector : ¬ (0x20 ≤ v.toNat ∧ v.toNat ≤ 0x25) := by
        rw [← isServiceVector_iff, not_isServiceVector_of_decodeWith hi]
        exact Bool.false_ne_true
      exact ⟨ir, u, hexecutes, hi, hvector, rfl⟩
  case raisesUnsupported =>
    rw [step_of_executes hrun hexecutes, exec_of_unsupported hi] at h
    cases h
    exact ⟨_, rfl⟩
  case raisesUnknown =>
    rw [step_of_executes hrun hexecutes, hi] at h
    cases h
    rfl

/-- Settles O47: the step reads the run state first, and a step while Running ends in one of the ways above. -/
theorem runStateTransitions : Obligations.RunStateTransitions := by
  refine ⟨fun s hrun => ?notStarted, fun s hrun => ?halted, fun s c hrun => ?faulted, fun s hrun => ?running⟩
  case notStarted =>
    rw [step, hrun]
    rfl
  case halted | faulted => rw [step, hrun]
  case running =>
    obtain ⟨t, h⟩ := step_answers_next s hrun
    refine ⟨t, h, ?_⟩
    obtain (ht | ht) | ⟨_, _, _, ⟨_, hhalted⟩ | ⟨_, _, rfl⟩ | ⟨_, _, rfl⟩⟩ := step_run_cases hrun h
    · exact .inl ht
    · exact .inr (.inr ⟨_, ht⟩)
    · exact .inr (.inl hhalted)
    · exact .inr (.inr ⟨_, rfl⟩)
    · exact .inr (.inr ⟨_, rfl⟩)

end Sys2Proof.Machine
end

section
/-! The loader and the placing of one word (R44, R252, R253): a longer image is a shorter one and one more store, the last, so what an
image leaves is told by induction from its end. -/

namespace Sys2Proof.Machine

variable {s : State}

/-! ## An image in memory -/

/-- The last word of an image is stored last, at the origin and the length before it, modulo 65,536 (R252, R253). -/
theorem loadImage_append_singleton (origin : Word) (words : List Word) (w : Word) (s : State) :
    loadImage origin (words ++ [w]) s =
      (loadImage origin words s).putWord (origin + BitVec.ofNat 16 words.length) w := by
  induction words generalizing origin s with
  | nil => exact congrArg (s.putWord · w) (BitVec.add_zero origin).symm
  | cons v vs ih =>
    have haddr : origin + 1 + BitVec.ofNat 16 vs.length = origin + BitVec.ofNat 16 (v :: vs).length := by
      rw [BitVec.add_assoc, List.length_cons, Nat.add_comm, BitVec.ofNat_add]
      rfl
    rw [← haddr]
    exact ih (origin + 1) (s.putWord origin v)

/-- The last word of an image is over any earlier one (R252, R253). -/
theorem word_loadImage_append_singleton (hs : s.mem.wf = true) (origin : Word) (words : List Word) (w a : Word) :
    (loadImage origin (words ++ [w]) s).word a =
      if a = origin + BitVec.ofNat 16 words.length then w else (loadImage origin words s).word a := by
  rw [loadImage_append_singleton, State.word_putWord _ (loadImage_wf origin words s hs)]

/-- The loader changes memory only (R252). -/
theorem loadImage_frame (origin : Word) (words : List Word) (s : State) :
    { loadImage origin words s with mem := s.mem } = s :=
  loadImage_keeps (P := fun t => { t with mem := s.mem } = s) (fun _ _ _ h => h) origin words s rfl

/-- Two offsets within one lap of the address space give two addresses (R50). -/
theorem add_ofNat_ne_of_lt (origin : Word) {i j : Nat} (hij : i < j) (hj : j < 65536) :
    origin + BitVec.ofNat 16 i ≠ origin + BitVec.ofNat 16 j := by
  intro h
  have hnat := congrArg BitVec.toNat (BitVec.add_right_inj origin |>.1 h)
  simp only [BitVec.toNat_ofNat] at hnat
  omega

/-- An image of at most one lap leaves each of its words at its address (R252, R253). -/
theorem word_loadImage_of_lt (hs : s.mem.wf = true) (origin : Word) (words : List Word) (hlen : words.length ≤ 65536)
    (i : Nat) (h : i < words.length) : (loadImage origin words s).word (origin + BitVec.ofNat 16 i) = words[i] := by
  induction words using List.reverseRecOn with
  | nil => cases h
  | append_singleton ws w ih =>
    rw [List.length_append, List.length_singleton] at hlen h
    rw [word_loadImage_append_singleton hs]
    obtain hi | rfl := Nat.lt_succ_iff_lt_or_eq.1 h
    · rw [if_neg (add_ofNat_ne_of_lt origin hi (by omega)), List.getElem_append_left hi]
      exact ih (by omega) hi
    · rw [if_pos rfl, List.getElem_concat_length rfl]

/-- A word at no address of the image stays (R252). -/
theorem word_loadImage_of_ne (hs : s.mem.wf = true) (origin : Word) (words : List Word) {a : Word}
    (ha : ∀ i, i < words.length → a ≠ origin + BitVec.ofNat 16 i) : (loadImage origin words s).word a = s.word a := by
  induction words using List.reverseRecOn with
  | nil => rfl
  | append_singleton ws w ih =>
    rw [List.length_append, List.length_singleton] at ha
    rw [word_loadImage_append_singleton hs, if_neg (ha ws.length (Nat.lt_succ_self _))]
    exact ih fun i hi => ha i (Nat.lt_succ_of_lt hi)

/-- Settles O54: the constructed machine's memory lists no word, and an image is told word by word from its end. -/
theorem loaderEffect : Obligations.LoaderEffect :=
  ⟨fun _ _ _ => rfl, fun origin words s hs => ⟨loadImage_frame origin words s,
    word_loadImage_append_singleton hs origin words, word_loadImage_of_lt hs origin words,
    fun _ => word_loadImage_of_ne hs origin words⟩⟩

/-! ## One word where the next step fetches -/

/-- A whole word is placed as it is. -/
theorem withFetchWord_of_word (s : State) (w : Word) :
    s.withFetchWord 16 w.toNat = ((s.putWord s.pc w).setPending none).start := by
  rw [State.withFetchWord, Nat.mod_eq_of_lt w.isLt, BitVec.ofNat_toNat, BitVec.setWidth_eq]

/-- Settles O59: the placed word is the stored word at the pc, and the machine runs with nothing in progress. -/
theorem placedWordRunsNext : Obligations.PlacedWordRunsNext := by
  intro s w hs hpc
  have hword : (s.putWord s.pc w).word s.pc = w := State.word_putWord_same hs s.pc w
  have hstep := step_executes_stored_word (s := ((s.putWord s.pc w).setPending none).start) rfl rfl hpc
  rw [withFetchWord_of_word, hstep]
  exact ⟨_, congrArg (fun v => exec (decodeWith s.params.opcodeMap v) _) hword, rfl, hword, rfl, rfl, rfl, rfl, rfl, rfl,
    fun a ha => State.word_putWord_of_ne hs ha w⟩

end Sys2Proof.Machine
end
